-- ==== Sys2Proof/Word.lean ====
section
/-! DEFINITION. The word types of the Toy_RSA number-theory block. -/

namespace Sys2Proof

/-- A command word, a control register and one host access are 32 bits wide (R40, R77, R110). -/
abbrev Word := BitVec 32

/-- The number of an operand register, R0 to R7 (R30: NREG = 8). -/
abbrev RegId := Fin 8

/-- The RW-bit pattern of an operand register as its 32-bit words, the least significant word first
(R72, R76): word `w` of the list is bits [32w+31 : 32w] of the pattern. -/
abbrev RegWords := List Word

end Sys2Proof
end

