-- ==== Sys2Proof/Config.lean ====
section
/-! DEFINITION. What one instance of the block fixes: the open parameters of R8 and the constants. -/

namespace Sys2Proof

/-- The parameters R8 leaves open and an instance fixes: the register width, as RW = 32 · WPR with
64 ≤ RW ≤ 4096, and the 8 KiB aligned byte address BASE of the aperture. The legality of each is
part of the data, so a state with an illegal width cannot be written. (ENGINE_STEPS, the third open
parameter, is free per run and lies in the schedule of State.) -/
structure Params where
  /-- WPR, the 32-bit words per operand register. -/
  wpr : Nat
  /-- BASE. -/
  base : Nat
  wpr_ge : 2 ≤ wpr
  wpr_le : wpr ≤ 128
  base_aligned : base % 0x2000 = 0
deriving DecidableEq, Repr

/-- RW, the width of an operand register in bits (R8). -/
abbrev Params.rw (p : Params) : Nat := 32 * p.wpr

/-- DESIGN CHOICE (log 1, log 2): the instance of `State.reset`, RW = 128 (the width of the spec's
own vectors) with the aperture at address 0. Unsafe for a claim about `State.reset` alone; claims
about every state hold for every legal width and base. -/
def Params.default : Params := ⟨4, 0, by decide, by decide, by decide⟩

/-- NREG (R8). -/
def Config.nreg : Nat := 8

/-- TDEF, the round count that T8 = 0 selects (R8, R114). -/
def Config.tdef : Nat := 16

/-- TMAX, the largest round count (R8). -/
def Config.tmax : Nat := 255

/-- The size of the aperture in bytes (R70). -/
def Config.apertureBytes : Nat := 0x2000

/-- The constant that ID reads, "RSA1" (R41). -/
def Config.idWord : Word := 0x52534131#32

end Sys2Proof
end

