-- ==== Sys2Proof/Syntax.lean ====
section
/-! DEFINITION. The five commands (R3, R115, R130), one constructor per row of spec/opcode_table.json. -/

namespace Sys2Proof

/-- A command with its operands in assembler order, destinations first (R130). Register numbers are
below 8 by type (R113); MRTEST keeps its immediate T8 as it stands in the word, because T8 = 0 and
T8 = 16 are two distinct words (R114). -/
inductive Instr
  /-- `MODEXP rd, rbase, rexp, rmod` (R142). -/
  | modexp (rd rbase rexp rmod : RegId)
  /-- `EXTGCD rg, rx, ry, ra, rb` (R164). -/
  | extgcd (rg rx ry ra rb : RegId)
  /-- `MODINV rd, re, rphi` (R173). -/
  | modinv (rd re rphi : RegId)
  /-- `MRTEST rd, rn, t` (R197), and `MRTEST rd, rn` with T8 = 0 (R132). -/
  | mrtest (rd rn : RegId) (t8 : BitVec 8)
  /-- `MRROUND rd, rn, ra` (R200). -/
  | mrround (rd rn ra : RegId)
deriving DecidableEq, Repr

end Sys2Proof
end

