-- ==== Sys2Proof/WellFormed.lean ====
section
/-! DEFINITION. Which commands the block knows: the constraint the register types do not carry. -/

namespace Sys2Proof

/-- The three destinations of EXTGCD are pairwise distinct (R115, R120); no other command has a
constraint beyond its register numbers being below 8 (R113). -/
def Instr.wf : Instr → Bool
  | .modexp _ _ _ _ => true
  | .extgcd rg rx ry _ _ => rg ≠ rx && rg ≠ ry && rx ≠ ry
  | .modinv _ _ _ => true
  | .mrtest _ _ _ => true
  | .mrround _ _ _ => true

end Sys2Proof
end

