-- ==== Sys2Proof/Decode.lean ====
section
/-! DEFINITION. Decoding a command word (R110 to R122) and encoding a command. -/

namespace Sys2Proof

/-! ### The fields of a command word -/

/-- The fields of formats R5 and RT (R111, R112). -/
inductive Field
  | op | fa | fb | fc | fd | fe | t8 | res
deriving DecidableEq, Repr

/-- The lowest bit of a field (R111, R112). -/
def Field.lo : Field → Nat
  | .op => 0 | .fa => 8 | .fb => 12 | .fc => 16 | .fd => 20 | .fe => 24 | .t8 => 20 | .res => 28

/-- The width of a field (R111, R112). -/
def Field.width : Field → Nat
  | .op => 8 | .t8 => 8
  | .fa => 4 | .fb => 4 | .fc => 4 | .fd => 4 | .fe => 4 | .res => 4

/-- The value of a field of a word, an unsigned number (R11, R113). -/
def Field.get (f : Field) (w : Word) : Nat := w.toNat / 2 ^ f.lo % 2 ^ f.width

/-- The register a field selects; below 8 for every word that passes the range check (R113). -/
def Field.reg (f : Field) (w : Word) : RegId := Fin.ofNat 8 (f.get w)

/-! ### The opcode map -/

/-- The assigned opcodes (R116). -/
inductive Opcode
  | modexp | extgcd | modinv | mrtest | mrround
deriving DecidableEq, Repr

/-- The opcode byte's command; 0x00 and 0x06 to 0xFF are unassigned (R116, R121). -/
def opcodeOf (op : Nat) : Option Opcode :=
  if op = 1 then some .modexp
  else if op = 2 then some .extgcd
  else if op = 3 then some .modinv
  else if op = 4 then some .mrtest
  else if op = 5 then some .mrround
  else none

/-- The fields that must be zero: RES in every command and the fields R115 marks 0. -/
def Opcode.zeroFields : Opcode → List Field
  | .modexp => [.res, .fe]
  | .extgcd => [.res]
  | .modinv => [.res, .fe, .fd]
  | .mrtest => [.res, .fc]
  | .mrround => [.res, .fe, .fd]

/-- The register fields a command uses, those R115 marks dst or src. -/
def Opcode.regFields : Opcode → List Field
  | .modexp => [.fa, .fb, .fc, .fd]
  | .extgcd => [.fa, .fb, .fc, .fd, .fe]
  | .modinv => [.fa, .fb, .fc]
  | .mrtest => [.fa, .fb]
  | .mrround => [.fa, .fb, .fc]

/-- The command of a word whose opcode is `op`, its fields read in the order of R115. -/
def Opcode.build (op : Opcode) (w : Word) : Instr :=
  match op with
  | .modexp => .modexp (Field.fa.reg w) (Field.fb.reg w) (Field.fc.reg w) (Field.fd.reg w)
  | .extgcd =>
    .extgcd (Field.fa.reg w) (Field.fb.reg w) (Field.fc.reg w) (Field.fd.reg w) (Field.fe.reg w)
  | .modinv => .modinv (Field.fa.reg w) (Field.fb.reg w) (Field.fc.reg w)
  | .mrtest => .mrtest (Field.fa.reg w) (Field.fb.reg w) (BitVec.ofNat 8 (Field.t8.get w))
  | .mrround => .mrround (Field.fa.reg w) (Field.fb.reg w) (Field.fc.reg w)

/-! ### The decoder -/

/-- Why a word is illegal (R120, R222). -/
inductive Illegal
  /-- The opcode is not 0x01 to 0x05. -/
  | opcode
  /-- A reserved or unused field is nonzero. -/
  | reservedBits
  /-- A used register field is 8 or more. -/
  | registerRange
  /-- The EXTGCD destinations are not pairwise distinct. -/
  | duplicateDestination
deriving DecidableEq, Repr

/-- The sub-code of an illegal word, as ERRINFO.SUB reports it (R48, R222). -/
def Illegal.sub : Illegal → BitVec 4
  | .opcode => 1
  | .reservedBits => 2
  | .registerRange => 3
  | .duplicateDestination => 4

/-- R120: the checks in their order, the first that fails being reported; total on every word. -/
def decode (w : Word) : Except Illegal Instr :=
  match opcodeOf (Field.op.get w) with
  | none => .error .opcode
  | some op =>
    if op.zeroFields.any (fun f => f.get w != 0) then .error .reservedBits
    else if op.regFields.any (fun f => 8 ≤ f.get w) then .error .registerRange
    else if (op.build w).wf then .ok (op.build w)
    else .error .duplicateDestination

/-! ### The encoder -/

/-- A word of format R5 with RES = 0, from its fields (R111). -/
def encodeR5 (op : BitVec 8) (fa fb fc fd fe : BitVec 4) : Word :=
  0#4 ++ fe ++ fd ++ fc ++ fb ++ fa ++ op

/-- A word of format RT with RES = 0, from its fields (R112). -/
def encodeRT (op : BitVec 8) (fa fb fc : BitVec 4) (t8 : BitVec 8) : Word :=
  0#4 ++ t8 ++ fc ++ fb ++ fa ++ op

/-- A register number as a 4-bit field (R113). -/
def RegId.field (r : RegId) : BitVec 4 := BitVec.ofNat 4 r.val

/-- The word of a command (R111, R112, R115, R116). -/
def encode : Instr → Word
  | .modexp rd rbase rexp rmod =>
    encodeR5 0x01 (RegId.field rd) (RegId.field rbase) (RegId.field rexp) (RegId.field rmod) 0
  | .extgcd rg rx ry ra rb =>
    encodeR5 0x02 (RegId.field rg) (RegId.field rx) (RegId.field ry) (RegId.field ra)
      (RegId.field rb)
  | .modinv rd re rphi =>
    encodeR5 0x03 (RegId.field rd) (RegId.field re) (RegId.field rphi) 0 0
  | .mrtest rd rn t8 => encodeRT 0x04 (RegId.field rd) (RegId.field rn) 0 t8
  | .mrround rd rn ra =>
    encodeR5 0x05 (RegId.field rd) (RegId.field rn) (RegId.field ra) 0 0

/-! ### The exact patterns of R117 -/

/-- The match value of a command's row in R117 and spec/opcode_table.json. -/
def Opcode.matchWord : Opcode → Word
  | .modexp => 0x00000001
  | .extgcd => 0x00000002
  | .modinv => 0x00000003
  | .mrtest => 0x00000004
  | .mrround => 0x00000005

/-- The mask of a command's row in R117 and spec/opcode_table.json. -/
def Opcode.maskWord : Opcode → Word
  | .modexp => 0xFF8888FF
  | .extgcd => 0xF88888FF
  | .modinv => 0xFFF888FF
  | .mrtest => 0xF00F88FF
  | .mrround => 0xFFF888FF

/-- The opcode of a command (R116). -/
def Instr.opcode : Instr → Opcode
  | .modexp _ _ _ _ => .modexp
  | .extgcd _ _ _ _ _ => .extgcd
  | .modinv _ _ _ => .modinv
  | .mrtest _ _ _ => .mrtest
  | .mrround _ _ _ => .mrround

/-! ### The word as the host numbers it -/

/-- The instruction the decoder reads from the word whose bits are `w`, numbered as
spec/opcode_table.json numbers them (bit 0 the least significant; every bit from `nbits` up is 0).
A command is one 32-bit word (R110), so a longer one is none. -/
def decodeTableWord (nbits w : Nat) : Option Instr :=
  if nbits ≤ 32 then
    match decode (BitVec.ofNat 32 (w % 2 ^ nbits)) with
    | .ok i => some i
    | .error _ => none
  else none

end Sys2Proof
end

