-- ==== Sys2Proof/Machine/State.lean ====
section
/-! DEFINITION. The state of the block (INVENTORY.md, State), its reset value, and how a step can stop. -/

namespace Sys2Proof.Machine

/-! ### How a step can stop -/

/-- The faults of a step. No command raises one: the block's own errors are completion codes
(R220), which lead to a next state. -/
inductive Fault
  /-- Raised by a host access in the schedule whose bus address lies outside BASE to BASE + 0x1FFF:
  such an access is not the block's, and the spec fixes nothing outside the aperture (R70, R82).
  Safe: the model stops where the spec says nothing (log 10). -/
  | outsideAperture
deriving DecidableEq, Repr

/-- The refusals of a step. -/
inductive Refusal
  /-- Raised by an arm of `exec` whose command has no meaning yet; no arm is one. Safe. -/
  | notModelled (mnemonic : String)
deriving DecidableEq, Repr

/-! ### Completion codes -/

/-- STATUS.ERR (R44, R220); codes 4 to 15 are never produced. -/
inductive ErrCode
  | none | illegalCommand | invalidArgument | notInvertible
deriving DecidableEq, Repr

/-! ### The engine's working state (R57) -/

/-- MODEXP's latched operands and its running result, running base and remaining exponent (R57,
R140); also one Miller–Rabin round's a^u mod n (R146). -/
structure PowerWork where
  b : Int
  e : Int
  m : Int
  result : Int
  base : Int
  rem : Int
deriving DecidableEq, Repr

/-- EXTGCD's and MODINV's latched operands, remainders, last quotient and coefficients (R57, R161). -/
structure EuclidWork where
  a : Int
  b : Int
  r0 : Int
  r1 : Int
  s0 : Int
  s1 : Int
  t0 : Int
  t1 : Int
  q : Int
deriving DecidableEq, Repr

/-- Where a Miller–Rabin command stands (R190 to R194). -/
inductive MrPhase
  /-- Halving u while it is even (R190). -/
  | factoring
  /-- A witness request for modulus n is pending at the entropy port (R194). -/
  | awaiting
  /-- Computing v = a^u mod n for the current witness (R191). -/
  | powering (p : PowerWork)
  /-- Testing v and squaring it (R191). -/
  | squaring
  /-- The verdict is known (R196). -/
  | verdict (prime : Bool)
deriving DecidableEq, Repr

/-- Miller–Rabin's latched operands, u, k, v, squaring index and round counter (R57, R190 to R192). -/
structure MrWork where
  /-- The latched n. -/
  n : Int
  /-- The latched round count t; 1 for MRROUND. -/
  rounds : Nat
  /-- MRROUND's latched witness; none for MRTEST, which asks the entropy port. -/
  given : Option Int
  u : Int
  k : Nat
  v : Int
  i : Nat
  /-- The witnesses of the rounds begun so far, in order; its length is the round counter j (log 7). -/
  draws : List Int
  phase : MrPhase
deriving DecidableEq, Repr

/-- The working state of the command in flight. -/
inductive Work
  | power (w : PowerWork)
  | euclid (w : EuclidWork)
  | primality (w : MrWork)
deriving DecidableEq, Repr

/-- What the engine holds while BUSY (R33): the latched command (the word in decoded form, with the
destination indices of R51), the working state with the latched operands, and whether a compute
step has been taken, since at least one precedes the commit (R8, R52). -/
structure Job where
  cmd : Instr
  work : Work
  stepped : Bool
deriving DecidableEq, Repr

/-- The sequencer (R33). What the engine holds while BUSY exists only while BUSY. -/
inductive Seq
  | idle
  | busy (job : Job)
deriving DecidableEq, Repr

/-! ### The interleaving (R90) -/

/-- One step of a run, as the agents of R10 take them. -/
inductive Event
  /-- A host read of the word at a bus address (R84). -/
  | read (addr : Nat)
  /-- A host write of a word at a bus address, with its byte strobe (R85). -/
  | write (addr : Nat) (v : Word) (strb : BitVec 4)
  /-- An engine step in which the engine performs so many iterations of its loop; 0 is a step in
  which it makes no progress (R52, R276; log 4). A schedule holds finitely many of them (log 15). The
  entropy source answers the requests of this step with `answers`, in order, as far as they go (R60,
  R194; log 25). -/
  | engine (iters : Nat) (answers : List Int)
  /-- The entropy source answers the request pending between two engine steps with `a` (R194; log 25). -/
  | witness (a : Int)
  /-- The rst input is asserted or released (R260). -/
  | rst (level : Bool)
deriving DecidableEq, Repr

/-! ### The state -/

/-- The whole machine. The spec's own state first (R62 lists it), then the open parameters, then the
model's own fields. STATUS.BUSY and irq are read off `seq`, `done` and `ie` (R33, R230); ID and CFG
are constants (R41, R42); CTRL.SRST has no storage (R43). -/
structure State where
  /-- R0 to R7 (R30). -/
  regs : Vector RegWords 8
  /-- The sequencer, with the engine's data while BUSY (R33, R57). -/
  seq : Seq
  /-- CTRL.IE (R43). -/
  ie : Bool
  /-- STATUS.DONE (R44). -/
  done : Bool
  /-- STATUS.ACCERR (R44). -/
  accerr : Bool
  /-- STATUS.CMDOVR (R44). -/
  cmdovr : Bool
  /-- STATUS.ERR (R44). -/
  err : ErrCode
  /-- ERRINFO (R48). -/
  errinfo : Word
  /-- LASTCMD (R47). -/
  lastcmd : Word
  /-- The level of the rst input (R60, R260). -/
  rst : Bool
  /-- The open parameters, the same in every step of a run (R8). -/
  params : Params
  /-- MODEL's own: the word the last step's host read returned, none if it was no read (log 9). -/
  rdata : Option Word
  /-- MODEL's own: the loop iterations the engine performs in one engine step, the free part of
  ENGINE_STEPS (log 4). -/
  effort : Nat
  /-- MODEL's own: the answers the entropy source gives within an engine step, those of the last engine
  event (R60, R194, log 25). -/
  answers : List Int
  /-- MODEL's own: the interleaving still to come (R90, log 3). -/
  schedule : List Event
deriving DecidableEq, Repr

/-- R62 for an instance with the parameters `p`: every piece of the spec's state at its reset value.
The model's own fields: no read answered (log 9), one iteration per engine step (DESIGN CHOICE, log
4), no answer within an engine step (DESIGN CHOICE, log 25), nothing scheduled (DESIGN CHOICE, log 3),
rst released (log 8). -/
def State.resetOf (p : Params) : State where
  regs := Vector.replicate 8 (List.replicate p.wpr 0)
  seq := .idle
  ie := false
  done := false
  accerr := false
  cmdovr := false
  err := .none
  errinfo := 0
  lastcmd := 0
  rst := false
  params := p
  rdata := none
  effort := 1
  answers := []
  schedule := []

/-- The machine right after reset (R62), for the instance of log 1 and log 2. -/
def State.reset : State := State.resetOf Params.default

end Sys2Proof.Machine
end

