-- ==== Sys2Proof/Machine/Apu.lean ====
section
/-! DEFINITION. The external arithmetic primitives of R14: exact, total on the domains the engine uses (R15). -/

namespace Sys2Proof.Machine

/-- ADD (R14). -/
def Apu.add (a b : Int) : Int := a + b

/-- SUB (R14). -/
def Apu.sub (a b : Int) : Int := a - b

/-- MUL (R14). -/
def Apu.mul (a b : Int) : Int := a * b

/-- DIVMOD, for b > 0 (R14): floor quotient and remainder. Lean's `/` and `%` on integers agree with
floor division for a positive divisor, the only one the engine passes (R13, R15). -/
def Apu.divmod (a b : Int) : Int × Int := (a / b, a % b)

/-- MOD, the second half of DIVMOD (R14). -/
def Apu.mod (a b : Int) : Int := (Apu.divmod a b).2

/-- CMP: -1, 0 or +1 as a < b, a = b, a > b (R14). -/
def Apu.cmp (a b : Int) : Int := if a < b then -1 else if a = b then 0 else 1

/-- BITLEN, for a ≥ 0 (R14, R13): the least L with a < 2^L. -/
def Apu.bitlen (a : Int) : Nat := if a ≤ 0 then 0 else Nat.log2 a.toNat + 1

/-- BIT, for a ≥ 0 (R14, R11): ⌊a / 2^i⌋ mod 2. -/
def Apu.bit (a : Int) (i : Nat) : Int := a / 2 ^ i % 2

/-- `a >> 1`, the DIVMOD(a, 2) quotient (R13, R140). -/
def Apu.half (a : Int) : Int := (Apu.divmod a 2).1

end Sys2Proof.Machine
end

