-- ==== Sys2Proof/Machine/Algorithms.lean ====
section
/-! DEFINITION. The algorithms over the APU primitives: the loops the engine runs, one iteration at a time
(R140, R161, R190 to R192), and the functions the spec's rules name (R140, R160, R161, R170, R190 to R192). -/

namespace Sys2Proof.Machine

/-! ### Square and multiply (R140) -/

/-- The working state before the first iteration (R140): the result starts at 1 mod m. -/
def PowerWork.init (b e m : Int) : PowerWork where
  b := b
  e := e
  m := m
  result := Apu.mod 1 m
  base := Apu.mod b m
  rem := e

/-- Whether the loop has ended: CMP(e, 0) is not positive (R140). -/
def PowerWork.finished (w : PowerWork) : Bool := Apu.cmp w.rem 0 ≤ 0

/-- One pass through R140's loop; the identity once the loop has ended. -/
def PowerWork.iterate (w : PowerWork) : PowerWork :=
  if w.finished then w
  else
    { w with
      result := if Apu.bit w.rem 0 = 1 then Apu.mod (Apu.mul w.result w.base) w.m else w.result
      base := Apu.mod (Apu.mul w.base w.base) w.m
      rem := Apu.half w.rem }

/-- So many passes. -/
def PowerWork.run : Nat → PowerWork → PowerWork
  | 0, w => w
  | fuel + 1, w => PowerWork.run fuel w.iterate

/-- `modexp(b, e, m)` of R140, for b, e ≥ 0 and m > 0; the loop takes bitlen(e) passes (R144). -/
def modexp (b e m : Int) : Int := (PowerWork.run (Apu.bitlen e) (PowerWork.init b e m)).result

/-! ### Extended Euclid (R160, R161) -/

/-- R160's recursion, its depth bounded by the first argument. -/
def extgcdDepth : Nat → Int → Int → Int × Int × Int
  | 0, a, _ => (a, 1, 0)
  | depth + 1, a, b =>
    if Apu.cmp b 0 = 0 then (a, 1, 0)
    else
      let qr := Apu.divmod a b
      let gxy := extgcdDepth depth b qr.2
      (gxy.1, gxy.2.2, Apu.sub gxy.2.1 (Apu.mul qr.1 gxy.2.2))

/-- `extgcd(a, b)` of R160, for a, b ≥ 0: the triple (g, x, y). The depth is at most b + 1 (R163). -/
def extgcd (a b : Int) : Int × Int × Int := extgcdDepth (b.toNat + 1) a b

/-- The working state before the first iteration (R161). -/
def EuclidWork.init (a b : Int) : EuclidWork where
  a := a
  b := b
  r0 := a
  r1 := b
  s0 := 1
  s1 := 0
  t0 := 0
  t1 := 1
  q := 0

/-- Whether the loop has ended: r1 = 0 (R161). -/
def EuclidWork.finished (w : EuclidWork) : Bool := Apu.cmp w.r1 0 = 0

/-- One pass through R161's loop; the identity once the loop has ended. -/
def EuclidWork.iterate (w : EuclidWork) : EuclidWork :=
  if w.finished then w
  else
    let qr := Apu.divmod w.r0 w.r1
    { w with
      r0 := w.r1
      r1 := qr.2
      s0 := w.s1
      s1 := Apu.sub w.s0 (Apu.mul qr.1 w.s1)
      t0 := w.t1
      t1 := Apu.sub w.t0 (Apu.mul qr.1 w.t1)
      q := qr.1 }

/-- So many passes. -/
def EuclidWork.run : Nat → EuclidWork → EuclidWork
  | 0, w => w
  | fuel + 1, w => EuclidWork.run fuel w.iterate

/-- `extgcd_iter(a, b)` of R161, for a, b ≥ 0; the loop takes at most b + 1 passes (R277). -/
def extgcdIter (a b : Int) : Int × Int × Int :=
  let w := EuclidWork.run (b.toNat + 1) (EuclidWork.init a b)
  (w.r0, w.s0, w.t0)

/-- R170's normalisation of the Bézout coefficient x into [0, φ). -/
def normaliseInverse (x phi : Int) : Int :=
  Apu.mod (if x < 0 then Apu.add x phi else x) phi

/-- `modinv(e, φ)` of R170, for e ≥ 0, φ > 0 and gcd(e, φ) = 1. -/
def modinv (e phi : Int) : Int := normaliseInverse (extgcd e phi).2.1 phi

/-! ### Miller–Rabin (R190 to R192) -/

/-- `special(n)` of R190: the verdict where no round is needed. -/
def special (n : Int) : Option Bool :=
  if n = 2 then some true
  else if n < 2 then some false
  else if Apu.bit n 0 = 0 then some false
  else none

/-- R190's halving loop, its passes bounded by the first argument. -/
def factorLoop : Nat → Int → Nat → Int × Nat
  | 0, u, k => (u, k)
  | fuel + 1, u, k =>
    if Apu.bit u 0 = 0 then factorLoop fuel (Apu.half u) (k + 1) else (u, k)

/-- `factor(n)` of R190, for odd n ≥ 3: (u, k) with n − 1 = u · 2^k and u odd. -/
def factor (n : Int) : Int × Nat := factorLoop (Apu.bitlen n) (Apu.sub n 1) 0

/-- R191's test-and-square loop on v, with so many tests left; true is PASS. -/
def squareLoop (n : Int) : Nat → Int → Bool
  | 0, _ => false
  | tests + 1, v => if v = Apu.sub n 1 then true else squareLoop n tests (Apu.mod (Apu.mul v v) n)

/-- `round(n, u, k, a)` of R191; true is PASS. There are k tests and at most k − 1 squarings. -/
def mrRound (n u : Int) (k : Nat) (a : Int) : Bool :=
  let v := modexp a u n
  if v = 1 then true else squareLoop n k v

/-- The rounds of R192: all t must pass, and the first that does not ends the test. None when the
witnesses run out before the verdict. -/
def mrRounds (n u : Int) (k : Nat) : Nat → List Int → Option Bool
  | 0, _ => some true
  | _ + 1, [] => none
  | t + 1, a :: rest => if mrRound n u k a then mrRounds n u k t rest else some false

/-- `mr(n, t, witnesses)` of R192; none when the witnesses run out before the verdict. -/
def mr (n : Int) (t : Nat) (witnesses : List Int) : Option Bool :=
  match special n with
  | some verdict => some verdict
  | none => mrRounds n (factor n).1 (factor n).2 t witnesses

/-- The verdict as the integer written to the destination (R196). -/
def verdictInt (prime : Bool) : Int := if prime then 1 else 0

/-- The working state of a Miller–Rabin command (R192, R200): a special n has its verdict at once,
an odd n ≥ 3 begins by factoring n − 1. -/
def MrWork.init (n : Int) (rounds : Nat) (given : Option Int) : MrWork where
  n := n
  rounds := rounds
  given := given
  u := Apu.sub n 1
  k := 0
  v := 0
  i := 0
  draws := []
  phase :=
    match special n with
    | some verdict => .verdict verdict
    | none => .factoring

/-- Whether the verdict is known. -/
def MrWork.finished (w : MrWork) : Bool :=
  match w.phase with
  | .verdict _ => true
  | _ => false

/-- Begin a round with the witness `a` (R191, R192). -/
def MrWork.beginRound (w : MrWork) (a : Int) : MrWork :=
  { w with draws := w.draws ++ [a], phase := .powering (PowerWork.init a w.u w.n) }

/-- The entropy source answers `a` (R194): the round begins if a request is pending and `a` lies in
[2, n − 1]; anything else is no answer and changes nothing (log 6). -/
def MrWork.receive (w : MrWork) (a : Int) : MrWork :=
  if w.phase = .awaiting ∧ 2 ≤ a ∧ a ≤ w.n - 1 then w.beginRound a else w

/-- The next round's witness: MRROUND's is given; MRTEST requests one and waits (R194, R200;
log 25). -/
def MrWork.nextWitness (w : MrWork) : MrWork :=
  match w.given with
  | some a => w.beginRound a
  | none => { w with phase := .awaiting }

/-- The round passed: the test ends when all rounds have passed (R192). -/
def MrWork.passRound (w : MrWork) : MrWork :=
  if w.rounds ≤ w.draws.length then { w with phase := .verdict true } else w.nextWitness

/-- One pass through whichever loop the test is in; the identity while a witness is awaited and once
the verdict is known. -/
def MrWork.iterate (w : MrWork) : MrWork :=
  match w.phase with
  | .factoring =>
    if Apu.bit w.u 0 = 0 then { w with u := Apu.half w.u, k := w.k + 1 } else w.nextWitness
  | .awaiting => w
  | .powering p =>
    if p.finished then
      let w' := { w with v := p.result, i := 0 }
      if p.result = 1 then w'.passRound else { w' with phase := .squaring }
    else { w with phase := .powering p.iterate }
  | .squaring =>
    if w.v = Apu.sub w.n 1 then w.passRound
    else if w.i + 1 = w.k then { w with phase := .verdict false }
    else { w with v := Apu.mod (Apu.mul w.v w.v) w.n, i := w.i + 1 }
  | .verdict _ => w

/-! ### Any command's working state -/

/-- Whether a witness request is pending (R58, R194). -/
def Work.awaits : Work → Bool
  | .primality w => w.phase = .awaiting
  | .power _ => false
  | .euclid _ => false

/-- One pass of the running command's loop. -/
def Work.iterate : Work → Work
  | .power w => .power w.iterate
  | .euclid w => .euclid w.iterate
  | .primality w => .primality w.iterate

/-- The entropy source answers `a`; only a Miller–Rabin command hears it (R194). -/
def Work.receive (a : Int) : Work → Work
  | .primality w => .primality (w.receive a)
  | .power w => .power w
  | .euclid w => .euclid w

/-- So many passes, within one engine step in which the entropy source gives these answers, in order. A
pass in which a request is pending receives the next answer, and is idle once they are used up (R52, R194,
log 25). -/
def Work.run : Nat → List Int → Work → Work
  | 0, _, w => w
  | fuel + 1, [], w => Work.run fuel [] w.iterate
  | fuel + 1, a :: rest, w =>
    if w.awaits then Work.run fuel rest (w.receive a) else Work.run fuel (a :: rest) w.iterate

/-- Whether the command's result is known. -/
def Work.finished : Work → Bool
  | .power w => w.finished
  | .euclid w => w.finished
  | .primality w => w.finished

end Sys2Proof.Machine
end

