-- ==== Sys2Proof/Machine/Operands.lean ====
section
/-! DEFINITION. Operand registers as words, patterns and integers (R11, R12, R30, R72, R76), and the operand
checks of the commands (R114, R223). -/

namespace Sys2Proof.Machine

/-! ### Words and patterns -/

/-- The RW-bit pattern of a list of words, as a number: word `w` is its bits [32w+31 : 32w] (R72). -/
def wordsToNat : List Word → Nat
  | [] => 0
  | w :: ws => w.toNat + 2 ^ 32 * wordsToNat ws

/-- The `k` lowest 32-bit words of a pattern, the least significant first (R72, R76). -/
def natToWords : Nat → Nat → List Word
  | 0, _ => []
  | k + 1, n => BitVec.ofNat 32 n :: natToWords k (n / 2 ^ 32)

/-- `int_RW` of a pattern (R11): two's complement. -/
def intOfPattern (rw pattern : Nat) : Int :=
  if pattern / 2 ^ (rw - 1) % 2 = 1 then (pattern : Int) - ((2 ^ rw : Nat) : Int) else pattern

/-- `pat_RW` of an integer (R11): v mod 2^RW. -/
def patternOfInt (rw : Nat) (v : Int) : Nat := (v % ((2 ^ rw : Nat) : Int)).toNat

/-! ### Operand registers -/

/-- The pattern of Rr (R30). -/
def State.pattern (s : State) (r : RegId) : Nat := wordsToNat s.regs[r]

/-- `x[r]` (R12): Rr as a mathematical integer. No register is hardwired (R30). -/
def State.x (s : State) (r : RegId) : Int := intOfPattern s.params.rw (s.pattern r)

/-- `x[r] <- v` (R12). -/
def State.setX (s : State) (r : RegId) (v : Int) : State :=
  { s with regs := s.regs.set r (natToWords s.params.wpr (patternOfInt s.params.rw v)) }

/-- Word `w` of Rr (R72). -/
def State.regWord (s : State) (r : RegId) (w : Nat) : Word := s.regs[r].getD w 0

/-- Replace word `w` of Rr and nothing else of it (R72). -/
def State.setRegWord (s : State) (r : RegId) (w : Nat) (v : Word) : State :=
  { s with regs := s.regs.set r (s.regs[r].set w v) }

/-! ### The immediate -/

/-- R114: the round count of T8, zero-extended, 0 meaning the default 16. -/
def roundCount (t8 : BitVec 8) : Nat := if t8 = 0 then Config.tdef else t8.toNat

/-! ### The operand checks, in ascending slot order (R223); the slot of the first that fails -/

/-- MODEXP (R142). -/
def checkModexp (b e m : Int) : Option (BitVec 3) :=
  if b < 0 then some 2 else if e < 0 then some 3 else if m ≤ 0 then some 4 else none

/-- EXTGCD (R164). -/
def checkExtgcd (a b : Int) : Option (BitVec 3) :=
  if a < 0 then some 4 else if b < 0 then some 5 else none

/-- MODINV (R173). -/
def checkModinv (e phi : Int) : Option (BitVec 3) :=
  if e < 0 then some 2 else if phi ≤ 0 then some 3 else none

/-- MRROUND (R200): the witness is checked only when n is odd and ≥ 3. -/
def checkMrround (n a : Int) : Option (BitVec 3) :=
  if special n = none ∧ (a < 2 ∨ n - 1 < a) then some 3 else none

end Sys2Proof.Machine
end

