-- ==== Sys2Proof/Machine/Flags.lean ====
section
/-! DEFINITION. The control and status registers as the host reads and writes them (R41 to R48), and irq (R230). -/

namespace Sys2Proof.Machine

/-- STATUS.BUSY reads 1 exactly when seq = BUSY (R33). -/
def State.busy (s : State) : Bool :=
  match s.seq with
  | .idle => false
  | .busy _ => true

/-- The 4-bit code of STATUS.ERR (R220). -/
def ErrCode.code : ErrCode → BitVec 4
  | .none => 0
  | .illegalCommand => 1
  | .invalidArgument => 2
  | .notInvertible => 3

/-- CFG as read (R42, R84). -/
def cfgWord (p : Params) : Word :=
  0#4 ++ BitVec.ofNat 8 Config.tdef ++ BitVec.ofNat 4 Config.nreg ++ BitVec.ofNat 16 p.wpr

/-- CTRL as read: SRST and the reserved bits read 0 (R43, R84). -/
def State.ctrlWord (s : State) : Word := 0#31 ++ BitVec.ofBool s.ie

/-- STATUS as read (R44, R84). -/
def State.statusWord (s : State) : Word :=
  0#20 ++ s.err.code ++ 0#4 ++ BitVec.ofBool s.cmdovr ++ BitVec.ofBool s.accerr ++
    BitVec.ofBool s.done ++ BitVec.ofBool s.busy

/-- ERRINFO with a slot and a sub-code, the reserved bits 0 (R48, R226). -/
def errinfoWord (slot : BitVec 3) (sub : BitVec 4) : Word := 0#24 ++ sub ++ 0#1 ++ slot

/-- ERRINFO.SLOT (R48). -/
def State.errSlot (s : State) : BitVec 3 := s.errinfo.extractLsb' 0 3

/-- ERRINFO.SUB (R48). -/
def State.errSub (s : State) : BitVec 4 := s.errinfo.extractLsb' 4 4

/-- A host write to STATUS: write 1 to clear DONE, ACCERR and CMDOVR, every other bit ignored (R45). -/
def State.writeStatus (s : State) (v : Word) : State :=
  { s with
    done := s.done && !v.getLsbD 1
    accerr := s.accerr && !v.getLsbD 2
    cmdovr := s.cmdovr && !v.getLsbD 3 }

/-- The level of the irq output (R230); ACCERR, CMDOVR and a pending request do not drive it (R231). -/
def State.irq (s : State) : Bool := s.done && s.ie

/-- The modulus of the witness request pending at the entropy port, if one is (R58, R194). -/
def State.witnessRequest (s : State) : Option Int :=
  match s.seq with
  | .busy ⟨_, .primality w, _⟩ => if w.phase = .awaiting then some w.n else none
  | _ => none

end Sys2Proof.Machine
end

