-- ==== Sys2Proof/Machine/Ops.lean ====
section
/-! DEFINITION. The shared operations: the command lifecycle (R50 to R54), completion with a code, the block's
"exception entry" (R226), the acknowledgement, its "return" (R229), reset (R260, R261), and a witness arriving (R194). -/

namespace Sys2Proof.Machine

/-! ### Refused accesses -/

/-- A refused host access sets STATUS.ACCERR (R44, R74, R77 to R80). -/
def State.refuseAccess (s : State) : State := { s with accerr := true }

/-- A CMD write while BUSY is refused: CMDOVR ← 1, and nothing else changes (R54). -/
def State.refuseCommand (s : State) : State := { s with cmdovr := true }

/-! ### Accept -/

/-- The first line of the accept step (R50): LASTCMD ← w, DONE, ERR and ERRINFO cleared. -/
def State.beginCommand (s : State) (w : Word) : State :=
  { s with lastcmd := w, done := false, err := .none, errinfo := 0 }

/-- The last line of the accept step (R50, R51): the operands are latched into the working state and
seq ← BUSY. No compute step has been taken yet. -/
def State.latch (s : State) (cmd : Instr) (work : Work) : State :=
  { s with seq := .busy ⟨cmd, work, false⟩ }

/-! ### Completion -/

/-- Write the destination registers of a command. -/
def State.writeDests (s : State) : List (RegId × Int) → State
  | [] => s
  | (r, v) :: rest => (s.setX r v).writeDests rest

/-- `complete(E, slot, sub)` (R226), with the destinations and their results: written only when the
code is NONE. LASTCMD already holds the command word. -/
def State.complete (s : State) (code : ErrCode) (slot : BitVec 3) (sub : BitVec 4)
    (dests : List (RegId × Int)) : State :=
  { (if code = .none then s.writeDests dests else s) with
    err := code
    errinfo := errinfoWord slot sub
    seq := .idle
    done := true }

/-- `raise INVALID_ARGUMENT(slot)` in the accept step (R12, R223). -/
def State.raiseInvalid (s : State) (slot : BitVec 3) : State :=
  s.complete .invalidArgument slot 0 []

/-- An illegal word completes in the accept step with its sub-code (R120, R222). -/
def State.raiseIllegal (s : State) (why : Illegal) : State :=
  s.complete .illegalCommand 0 why.sub []

/-- `raise NOT_INVERTIBLE(0)` in the commit step (R224). -/
def State.raiseNotInvertible (s : State) : State := s.complete .notInvertible 0 0 []

/-- The commit step of a command that succeeds (R53): every destination and the status in one step. -/
def State.commit (s : State) (dests : List (RegId × Int)) : State := s.complete .none 0 0 dests

/-- The host's acknowledgement of a completion, the nearest thing to a return (R229): DONE is
cleared and nothing is restored. It is what a write of 1 to STATUS.DONE does (R45). -/
def State.acknowledge (s : State) : State := { s with done := false }

/-! ### The two halves of a command -/

/-- The accept step of a command after its first line (R50): the first failing operand check
completes it with INVALID_ARGUMENT, else the command is latched. -/
def State.accept (s : State) (failing : Option (BitVec 3)) (cmd : Instr) (work : Work) : State :=
  match failing with
  | some slot => s.raiseInvalid slot
  | none => s.latch cmd work

/-- One engine step of the job in flight (R52, R53). Once the result is known, at least one compute
step has been taken and the engine makes progress, the step is the commit; else it is a compute
step, which performs `effort` iterations, takes the answers the entropy source gives within the step, and
changes nothing the host can see (log 4, log 25). -/
def State.engineStep (s : State) (job : Job) (commit : Work → State) : State :=
  if job.stepped ∧ job.work.finished ∧ 0 < s.effort then commit job.work
  else { s with seq := .busy { job with work := job.work.run s.effort s.answers, stepped := true } }

/-- One step of the command `cmd`: while IDLE its accept step, while it is the command in flight its
next engine step. While another command is in flight, `cmd` can only be a CMD write, which is
refused (R54). -/
def State.runCommand (s : State) (cmd : Instr) (accept : State) (commit : Work → State) : State :=
  match s.seq with
  | .idle => accept
  | .busy job => if job.cmd = cmd then s.engineStep job commit else s.refuseCommand

/-! ### The entropy port -/

/-- The entropy source answers with `a` between two engine steps (R194; log 25). It is an answer only
while a request is pending and `a` lies in [2, n − 1]; anything else is none and changes nothing (log 6). -/
def State.answerWitness (s : State) (a : Int) : State :=
  match s.seq with
  | .idle => s
  | .busy job => { s with seq := .busy { job with work := job.work.receive a } }

/-! ### Reset -/

/-- A reset in the midst of a run (R260, R261): every piece of the spec's state at its value of R62.
The parameters, the rst input's level and what the model holds of the outside world stay. -/
def State.reinit (s : State) : State :=
  { State.resetOf s.params with
    rst := s.rst, effort := s.effort, answers := s.answers, schedule := s.schedule }

end Sys2Proof.Machine
end

