-- ==== Sys2Proof/Machine/Euclid.lean ====
section
/-! DEFINITION. EXTGCD and MODINV (41_extgcd.md). -/

namespace Sys2Proof.Machine

/-- What EXTGCD's commit writes in one step: x[rg] ← g, x[rx] ← x, x[ry] ← y (R164). -/
def commitExtgcd (rg rx ry : RegId) (s : State) : Work → State
  | .euclid w => s.commit [(rg, w.r0), (rx, w.s0), (ry, w.t0)]
  | .power _ => s
  | .primality _ => s

/-- EXTGCD rg, rx, ry, ra, rb (R164). While IDLE: latch a and b, check a ≥ 0 (slot 4) and b ≥ 0
(slot 5). While in flight: the loop of R161, whose triple is R160's, then the commit. -/
def execExtgcd (rg rx ry ra rb : RegId) (s : State) : Host.Outcome State Fault Refusal :=
  let a := s.x ra
  let b := s.x rb
  let cmd := Instr.extgcd rg rx ry ra rb
  .next (s.runCommand cmd
    (s.accept (checkExtgcd a b) cmd (.euclid (EuclidWork.init a b)))
    (commitExtgcd rg rx ry s))

/-- What MODINV's commit does (R173): NOT_INVERTIBLE when the gcd is not 1, else
x[rd] ← modinv(e, φ), the coefficient x normalised into [0, φ) (R170, R172). -/
def commitModinv (rd : RegId) (s : State) : Work → State
  | .euclid w =>
    if w.r0 ≠ 1 then s.raiseNotInvertible else s.commit [(rd, normaliseInverse w.s0 w.b)]
  | .power _ => s
  | .primality _ => s

/-- MODINV rd, re, rphi (R173). While IDLE: latch e and φ, check e ≥ 0 (slot 2) and φ > 0 (slot 3).
While in flight: the loop of R161 on (e, φ), then the commit. -/
def execModinv (rd re rphi : RegId) (s : State) : Host.Outcome State Fault Refusal :=
  let e := s.x re
  let phi := s.x rphi
  let cmd := Instr.modinv rd re rphi
  .next (s.runCommand cmd
    (s.accept (checkModinv e phi) cmd (.euclid (EuclidWork.init e phi)))
    (commitModinv rd s))

end Sys2Proof.Machine
end

