-- ==== Sys2Proof/Machine/MillerRabin.lean ====
section
/-! DEFINITION. MRTEST and MRROUND (42_miller_rabin.md). -/

namespace Sys2Proof.Machine

/-- What a Miller–Rabin commit writes: the verdict, 1 or 0 (R196). -/
def commitVerdict (rd : RegId) (s : State) : Work → State
  | .primality w =>
    match w.phase with
    | .verdict prime => s.commit [(rd, verdictInt prime)]
    | _ => s
  | .power _ => s
  | .euclid _ => s

/-- MRTEST rd, rn, t (R197). While IDLE: latch n and t; there is no operand check. While in flight:
the special cases, the factorisation and the rounds of R190 to R192, a witness being requested at
the start of each round (R194), then the commit. -/
def execMrtest (rd rn : RegId) (t8 : BitVec 8) (s : State) : Host.Outcome State Fault Refusal :=
  let n := s.x rn
  let cmd := Instr.mrtest rd rn t8
  .next (s.runCommand cmd
    (s.accept none cmd (.primality (MrWork.init n (roundCount t8) none)))
    (commitVerdict rd s))

/-- MRROUND rd, rn, ra (R200). While IDLE: latch n and a, check 2 ≤ a ≤ n − 1 (slot 3) when n is odd
and ≥ 3. While in flight: the special cases, the factorisation and one round with the witness a,
then the commit. -/
def execMrround (rd rn ra : RegId) (s : State) : Host.Outcome State Fault Refusal :=
  let n := s.x rn
  let a := s.x ra
  let cmd := Instr.mrround rd rn ra
  .next (s.runCommand cmd
    (s.accept (checkMrround n a) cmd (.primality (MrWork.init n 1 (some a))))
    (commitVerdict rd s))

end Sys2Proof.Machine
end

