-- ==== Sys2Proof/Machine/Modexp.lean ====
section
/-! DEFINITION. MODEXP (40_modexp.md). -/

namespace Sys2Proof.Machine

/-- What MODEXP's commit writes: x[rd] ← modexp(b, e, m) (R142). -/
def commitModexp (rd : RegId) (s : State) : Work → State
  | .power w => s.commit [(rd, w.result)]
  | .euclid _ => s
  | .primality _ => s

/-- MODEXP rd, rbase, rexp, rmod (R142). While IDLE: latch b, e and m, check b ≥ 0 (slot 2), e ≥ 0
(slot 3) and m > 0 (slot 4). While in flight: the loop of R140, then the commit. -/
def execModexp (rd rbase rexp rmod : RegId) (s : State) : Host.Outcome State Fault Refusal :=
  let b := s.x rbase
  let e := s.x rexp
  let m := s.x rmod
  let cmd := Instr.modexp rd rbase rexp rmod
  .next (s.runCommand cmd
    (s.accept (checkModexp b e m) cmd (.power (PowerWork.init b e m)))
    (commitModexp rd s))

end Sys2Proof.Machine
end

