-- ==== Sys2Proof/Machine/Dispatch.lean ====
section
/-! DEFINITION. The meaning of every command, one arm per constructor of Instr. -/

namespace Sys2Proof.Machine

/-- One step of a command: its accept step while the block is IDLE (after R50's first line, which
`acceptWord` performs for every word), its next engine step while it is in flight. -/
def exec (i : Instr) (s : State) : Host.Outcome State Fault Refusal :=
  match i with
  | .modexp rd rbase rexp rmod => Sys2Proof.Machine.execModexp rd rbase rexp rmod s
  | .extgcd rg rx ry ra rb => Sys2Proof.Machine.execExtgcd rg rx ry ra rb s
  | .modinv rd re rphi => Sys2Proof.Machine.execModinv rd re rphi s
  | .mrtest rd rn t8 => Sys2Proof.Machine.execMrtest rd rn t8 s
  | .mrround rd rn ra => Sys2Proof.Machine.execMrround rd rn ra s

end Sys2Proof.Machine
end

