-- ==== Sys2Proof/Machine/HostPort.lean ====
section
/-! DEFINITION. The host port: the aperture map (R71), reads (R84), writes (R85), the accept step of a CMD write
(R50), and one turn of each agent (R90). -/

namespace Sys2Proof.Machine

/-! ### The aperture map -/

/-- What a byte offset of the aperture addresses (R71, R72, R79, R80). -/
inductive Region
  | id | cfg | ctrl | status | cmd | errinfo
  /-- Word `w` of register Rr (R72). -/
  | window (r : RegId) (w : Nat)
  /-- 0x0018 to 0x0FFF, and what lies beyond the register window (R79). -/
  | reserved
  /-- off[1:0] ≠ 0 (R80). -/
  | misaligned
deriving DecidableEq, Repr

/-- The byte offset of word `w` of Rr (R72). -/
def windowOffset (p : Params) (r : RegId) (w : Nat) : Nat := 0x1000 + 4 * (r.val * p.wpr + w)

/-- R71. -/
def region (p : Params) (off : Nat) : Region :=
  if off % 4 ≠ 0 then .misaligned
  else if off = 0x0000 then .id
  else if off = 0x0004 then .cfg
  else if off = 0x0008 then .ctrl
  else if off = 0x000C then .status
  else if off = 0x0010 then .cmd
  else if off = 0x0014 then .errinfo
  else if 0x1000 ≤ off ∧ off < 0x1000 + 32 * p.wpr then
    .window (Fin.ofNat 8 ((off - 0x1000) / 4 / p.wpr)) ((off - 0x1000) / 4 % p.wpr)
  else .reserved

/-- The offset of a bus address within the aperture; none outside it (R70, R82). -/
def offsetOf (p : Params) (addr : Nat) : Option Nat :=
  if p.base ≤ addr ∧ addr < p.base + Config.apertureBytes then some (addr - p.base) else none

/-! ### Reads -/

/-- The word a host read of a region returns (R84); a refused read returns 0 (R79, R80). -/
def State.regionWord (s : State) : Region → Word
  | .id => Config.idWord
  | .cfg => cfgWord s.params
  | .ctrl => s.ctrlWord
  | .status => s.statusWord
  | .cmd => s.lastcmd
  | .errinfo => s.errinfo
  | .window r w => s.regWord r w
  | .reserved => 0
  | .misaligned => 0

/-- `MemRead(off, 4)` (R84): the word returned and the state after; only a refused read changes
the state, by ACCERR (R81). -/
def State.memRead (s : State) (off : Nat) : Word × State :=
  match region s.params off with
  | .reserved => (0, s.refuseAccess)
  | .misaligned => (0, s.refuseAccess)
  | target => (s.regionWord target, s)

/-! ### The accept step -/

/-- R50: a word written to CMD while IDLE. -/
def acceptWord (w : Word) (s : State) : Host.Outcome State Fault Refusal :=
  match decode w with
  | .error why => .next ((s.beginCommand w).raiseIllegal why)
  | .ok i => exec i (s.beginCommand w)

/-- A host write to CMD (R46): accepted while IDLE, refused while BUSY (R54). -/
def writeCmd (w : Word) (s : State) : Host.Outcome State Fault Refusal :=
  if s.busy then .next s.refuseCommand else acceptWord w s

/-! ### Writes -/

/-- A host write to CTRL (R43): a soft reset when bit 1 is set (R261), else IE ← bit 0. -/
def State.writeCtrl (s : State) (v : Word) : State :=
  if v.getLsbD 1 then s.reinit else { s with ie := v.getLsbD 0 }

/-- A host write to the register window (R72), refused while BUSY (R74). -/
def State.writeWindow (s : State) (r : RegId) (w : Nat) (v : Word) : State :=
  if s.busy then s.refuseAccess else s.setRegWord r w v

/-- `MemWrite(off, 4, v)` with byte strobe `strb` (R85). -/
def memWrite (off : Nat) (v : Word) (strb : BitVec 4) (s : State) :
    Host.Outcome State Fault Refusal :=
  if strb ≠ 0xF then .next s.refuseAccess
  else
    match region s.params off with
    | .misaligned => .next s.refuseAccess
    | .reserved => .next s.refuseAccess
    | .id => .next s.refuseAccess
    | .cfg => .next s.refuseAccess
    | .errinfo => .next s.refuseAccess
    | .ctrl => .next (s.writeCtrl v)
    | .status => .next (s.writeStatus v)
    | .cmd => writeCmd v s
    | .window r w => .next (s.writeWindow r w v)

/-! ### One turn of each agent -/

/-- The host reads a bus address. -/
def hostRead (addr : Nat) (s : State) : Host.Outcome State Fault Refusal :=
  match offsetOf s.params addr with
  | none => .fault .outsideAperture
  | some off => .next { (s.memRead off).2 with rdata := some (s.memRead off).1 }

/-- The host writes a bus address. -/
def hostWrite (addr : Nat) (v : Word) (strb : BitVec 4) (s : State) :
    Host.Outcome State Fault Refusal :=
  match offsetOf s.params addr with
  | none => .fault .outsideAperture
  | some off => memWrite off v strb s

/-- The engine takes a step: nothing while IDLE, where it waits for a CMD write (R246), else the next
step of the command in flight. -/
def engineTurn (s : State) : Host.Outcome State Fault Refusal :=
  match s.seq with
  | .idle => .next s
  | .busy job => exec job.cmd s

/-- The rst input takes the level `level`: while it is asserted, and in the step it is asserted,
the block is held at its reset values; when it is released the block is IDLE (R260). -/
def rstTurn (level : Bool) (s : State) : State :=
  if level then { s.reinit with rst := true }
  else if s.rst then { s.reinit with rst := false }
  else s

/-- The turn of the agent that the next event names. While rst is asserted no host access is
performed and nothing else moves (R260, log 8). -/
def turn (e : Event) (s : State) : Host.Outcome State Fault Refusal :=
  match e with
  | .rst level => .next (rstTurn level s)
  | .read addr => if s.rst then .next s.reinit else hostRead addr s
  | .write addr v strb => if s.rst then .next s.reinit else hostWrite addr v strb s
  | .engine iters answers =>
    if s.rst then .next s.reinit else engineTurn { s with effort := iters, answers := answers }
  | .witness a => if s.rst then .next s.reinit else .next (s.answerWitness a)

/-- The state in which the next event's agent has its turn: the event is taken off the schedule, and
the last read's data is no longer presented (log 9). -/
def State.popped (s : State) : State := { s with schedule := s.schedule.tail, rdata := none }

/-- Once the schedule is exhausted only the engine moves (log 3), at its present effort but never at
none: the weak fairness of R277, since a schedule is finite and whatever follows it makes progress
(log 15). The entropy source gives no more answers (log 3). -/
def turnAlone (s : State) : Host.Outcome State Fault Refusal :=
  if s.rst then .next s.reinit else engineTurn { s with effort := max 1 s.effort, answers := [] }

end Sys2Proof.Machine
end

