-- ==== Sys2Proof/Machine/Step.lean ====
section
/-! DEFINITION. One step of a run (R90): the next event of the schedule is taken, and its agent has its turn. -/

namespace Sys2Proof.Machine

/-- One atomic step. -/
def step (s : State) : Host.Outcome State Fault Refusal :=
  match s.schedule with
  | [] => turnAlone s.popped
  | e :: _ => turn e s.popped

/-- The host's next access is a write of the word `w` to CMD, the block IDLE and rst released, so that
the very next step accepts and runs it (log 12). A command is one 32-bit word (R110). -/
def State.withFetchWord (s : State) (nbits w : Nat) : State :=
  { s with
    rst := false
    seq := .idle
    schedule := .write (s.params.base + 0x10) (BitVec.ofNat 32 (w % 2 ^ nbits)) 0xF :: s.schedule }

end Sys2Proof.Machine
end

