-- ==== Sys2Proof/Machine/HostNotation.lean ====
section
/-! DEFINITION. The assembler (R130, R132) and the host-action notation (R131): what a host writes down, as words
and as events of the schedule. -/

namespace Sys2Proof.Machine

/-! ### The assembler -/

/-- A line of assembly with its operands as written: register numbers and a round count of any size;
`none` where MRTEST's round count is omitted (R130, R132). -/
inductive AsmLine
  | modexp (rd rbase rexp rmod : Nat)
  | extgcd (rg rx ry ra rb : Nat)
  | modinv (rd re rphi : Nat)
  | mrtest (rd rn : Nat) (t : Option Nat)
  | mrround (rd rn ra : Nat)
deriving DecidableEq, Repr

/-- A register name, refused outside r0 to r7 (R130). -/
def asmReg (n : Nat) : Option RegId := if h : n < 8 then some ⟨n, h⟩ else none

/-- The immediate of a round count: omitted it is T8 = 0 (R132), written it must lie in 1 to 255 (R130). -/
def asmRounds : Option Nat → Option (BitVec 8)
  | none => some 0
  | some t => if 1 ≤ t ∧ t ≤ Config.tmax then some (BitVec.ofNat 8 t) else none

/-- The command of a line, if its operands are ones the assembler accepts (R130). -/
def asmInstr : AsmLine → Option Instr
  | .modexp rd rbase rexp rmod => do
    return .modexp (← asmReg rd) (← asmReg rbase) (← asmReg rexp) (← asmReg rmod)
  | .extgcd rg rx ry ra rb => do
    return .extgcd (← asmReg rg) (← asmReg rx) (← asmReg ry) (← asmReg ra) (← asmReg rb)
  | .modinv rd re rphi => do return .modinv (← asmReg rd) (← asmReg re) (← asmReg rphi)
  | .mrtest rd rn t => do return .mrtest (← asmReg rd) (← asmReg rn) (← asmRounds t)
  | .mrround rd rn ra => do return .mrround (← asmReg rd) (← asmReg rn) (← asmReg ra)

/-- The word of a line; EXTGCD destinations that are not distinct are refused (R130). -/
def assemble (line : AsmLine) : Option Word :=
  match asmInstr line with
  | some i => if i.wf then some (encode i) else none
  | none => none

/-! ### Host actions (R131) -/

/-- `WR off, v`. -/
def hostWr (p : Params) (off : Nat) (v : Word) : Event := .write (p.base + off) v 0xF

/-- `RD off`. -/
def hostRd (p : Params) (off : Nat) : Event := .read (p.base + off)

/-- The WPR writes of `LDR rN, v` from word `w` on, in ascending order (R73). -/
def ldrFrom (p : Params) (r : RegId) : Nat → List Word → List Event
  | _, [] => []
  | w, v :: rest => hostWr p (windowOffset p r w) v :: ldrFrom p r (w + 1) rest

/-- `LDR rN, v`: the WPR writes of pat_RW(v), w = 0 to WPR − 1 (R73). -/
def hostLdr (p : Params) (r : RegId) (v : Int) : List Event :=
  ldrFrom p r 0 (natToWords p.wpr (patternOfInt p.rw v))

/-- `CMD <command>`. -/
def hostCmd (p : Params) (i : Instr) : Event := hostWr p 0x0010 (encode i)

/-- The read that `WAITDONE` repeats until bit 1 of the word it returns is 1; the repeating is host
software. -/
def hostPoll (p : Params) : Event := hostRd p 0x000C

/-- `ACK`: clear DONE. -/
def hostAck (p : Params) : Event := hostWr p 0x000C 0x00000002

end Sys2Proof.Machine
end

