-- ==== Sys2Proof/Safety.lean ====
section
/-! DEFINITION. The terms claims are stated in: the invariant of a run, what the host can see, and what a command
may write. -/

namespace Sys2Proof.Machine

/-! ### Values -/

/-- `v` lies in the range of an RW-bit register (R9, R30). -/
def Fits (p : Params) (v : Int) : Prop :=
  -((2 ^ (p.rw - 1) : Nat) : Int) ≤ v ∧ v < ((2 ^ (p.rw - 1) : Nat) : Int)

/-- Every register holds exactly WPR words (R30, R72). -/
def State.RegsSized (s : State) : Prop := ∀ r : RegId, s.regs[r].length = s.params.wpr

/-! ### The invariant of the working state (R57) -/

/-- R143's loop invariant: result · base^rem ≡ b^e (mod m), every value reduced mod m. -/
structure PowerWork.Inv (w : PowerWork) : Prop where
  b_nonneg : 0 ≤ w.b
  e_nonneg : 0 ≤ w.e
  m_pos : 0 < w.m
  result_nonneg : 0 ≤ w.result
  result_lt : w.result < w.m
  base_nonneg : 0 ≤ w.base
  base_lt : w.base < w.m
  rem_nonneg : 0 ≤ w.rem
  power : w.result * w.base ^ w.rem.toNat % w.m = w.b ^ w.e.toNat % w.m

/-- Both pairs of coefficients give their remainder, and the triple of R160 for (a, b) is made of the
triple for the current remainders. -/
structure EuclidWork.Inv (w : EuclidWork) : Prop where
  a_nonneg : 0 ≤ w.a
  b_nonneg : 0 ≤ w.b
  r0_nonneg : 0 ≤ w.r0
  r1_nonneg : 0 ≤ w.r1
  triple : extgcd w.a w.b =
    ((extgcd w.r0 w.r1).1,
      w.s0 * (extgcd w.r0 w.r1).2.1 + w.s1 * (extgcd w.r0 w.r1).2.2,
      w.t0 * (extgcd w.r0 w.r1).2.1 + w.t1 * (extgcd w.r0 w.r1).2.2)

/-- A witness lies in [2, n − 1] (R194). -/
def LegalWitness (n a : Int) : Prop := 2 ≤ a ∧ a ≤ n - 1

/-- Every round of these witnesses passes (R191, R192). -/
def AllPass (n : Int) (witnesses : List Int) : Prop :=
  ∀ a ∈ witnesses, mrRound n (factor n).1 (factor n).2 a = true

/-- What each phase of a Miller–Rabin command on odd n ≥ 3 has established (R190 to R192). -/
def MrWork.PhaseInv (w : MrWork) : MrPhase → Prop
  | .factoring =>
    w.draws = [] ∧ 1 ≤ w.u ∧ w.n - 1 = w.u * 2 ^ w.k
  | .awaiting =>
    w.given = none ∧ (w.u, w.k) = factor w.n ∧ w.draws.length < w.rounds ∧ AllPass w.n w.draws
  | .powering p =>
    (w.u, w.k) = factor w.n ∧ p.Inv ∧ p.e = w.u ∧ p.m = w.n ∧
      ∃ past, w.draws = past ++ [p.b] ∧ AllPass w.n past
  | .squaring =>
    (w.u, w.k) = factor w.n ∧ w.i < w.k ∧
      ∃ past a, w.draws = past ++ [a] ∧ AllPass w.n past ∧
        mrRound w.n w.u w.k a = squareLoop w.n (w.k - w.i) w.v
  | .verdict prime =>
    if prime then w.draws.length = w.rounds ∧ AllPass w.n w.draws
    else ∃ past a, w.draws = past ++ [a] ∧ AllPass w.n past ∧
      mrRound w.n (factor w.n).1 (factor w.n).2 a = false

/-- The invariant of a Miller–Rabin command. -/
structure MrWork.Inv (w : MrWork) : Prop where
  rounds_pos : 1 ≤ w.rounds
  draws_legal : ∀ a ∈ w.draws, LegalWitness w.n a
  draws_le : w.draws.length ≤ w.rounds
  given_one : ∀ a, w.given = some a → w.rounds = 1 ∧ (w.draws = [] ∨ w.draws = [a]) ∧
    (special w.n = none → LegalWitness w.n a)
  special_verdict : ∀ p, special w.n = some p → w.phase = .verdict p ∧ w.draws = []
  phase_ok : special w.n = none → w.PhaseInv w.phase

/-- The working state is of the kind its command runs on, satisfies its invariant, and its latched
operands are in range (R51, R57). -/
def Job.Inv (p : Params) (job : Job) : Prop :=
  match job.cmd, job.work with
  | .modexp _ _ _ _, .power w => w.Inv ∧ Fits p w.b ∧ Fits p w.e ∧ Fits p w.m
  | .extgcd _ _ _ _ _, .euclid w => w.Inv ∧ Fits p w.a ∧ Fits p w.b
  | .modinv _ _ _, .euclid w => w.Inv ∧ 0 < w.b ∧ Fits p w.a ∧ Fits p w.b
  | .mrtest _ _ t8, .primality w =>
    w.Inv ∧ w.given = none ∧ w.rounds = roundCount t8 ∧ Fits p w.n
  | .mrround _ _ _, .primality w => w.Inv ∧ w.given.isSome = true ∧ Fits p w.n
  | _, _ => False

/-! ### The invariant of a run -/

/-- What each completion code leaves in ERRINFO (R48, R220 to R224). -/
def ErrinfoAgrees (s : State) : Prop :=
  match s.err with
  | .none => s.errinfo = 0
  | .illegalCommand => ∃ why : Illegal, s.errinfo = errinfoWord 0 why.sub
  | .invalidArgument => ∃ slot : BitVec 3, 2 ≤ slot ∧ slot ≤ 5 ∧ s.errinfo = errinfoWord slot 0
  | .notInvertible => s.errinfo = 0

/-- The invariant of a run: registers of the right size, ERRINFO in agreement with ERR, and while
BUSY a clean status, LASTCMD the word of the command in flight, and a sound working state; while rst
is asserted, the reset values (R30, R33, R44, R48, R57, R226, R260). -/
structure State.Inv (s : State) : Prop where
  regs_sized : s.RegsSized
  errinfo_agrees : ErrinfoAgrees s
  busy_clean : s.busy = true → s.done = false ∧ s.err = .none
  busy_job : ∀ job, s.seq = .busy job → decode s.lastcmd = .ok job.cmd ∧ job.Inv s.params
  rst_held : s.rst = true → { s with rdata := none } = s.reinit

/-! ### What the host can see -/

/-- No offset of the aperture reads differently, and irq has the same level: what R52 and R57 call
host-visible. -/
def SameToHost (s t : State) : Prop :=
  (∀ off, (t.memRead off).1 = (s.memRead off).1) ∧ t.irq = s.irq

/-! ### What a command may write -/

/-- The destination registers of a command (R115). -/
def dests : Instr → List RegId
  | .modexp rd _ _ _ => [rd]
  | .extgcd rg rx ry _ _ => [rg, rx, ry]
  | .modinv rd _ _ => [rd]
  | .mrtest rd _ _ => [rd]
  | .mrround rd _ _ => [rd]

/-- A completion with code `code` and ERRINFO `info` (R53, R226): exactly the results listed are
written, each register not listed and every other piece of state is as before. -/
structure Completes (s t : State) (code : ErrCode) (info : Word)
    (results : List (RegId × Int)) : Prop where
  idle : t.seq = .idle
  done : t.done = true
  err : t.err = code
  errinfo : t.errinfo = info
  written : ∀ rv ∈ results, t.x rv.1 = rv.2
  kept : ∀ r : RegId, r ∉ results.map Prod.fst → t.regs[r] = s.regs[r]
  ie : t.ie = s.ie
  accerr : t.accerr = s.accerr
  cmdovr : t.cmdovr = s.cmdovr
  lastcmd : t.lastcmd = s.lastcmd
  rst : t.rst = s.rst
  params : t.params = s.params

/-- The schedule holds no access outside the aperture. -/
def State.NoStrayAccess (s : State) : Prop :=
  ∀ e ∈ s.schedule, match e with
    | .read addr => offsetOf s.params addr ≠ none
    | .write addr _ _ => offsetOf s.params addr ≠ none
    | _ => True

end Sys2Proof.Machine
end

