-- ==== Sys2Proof/Certificates/Slice0/Obligations.lean ====
section
/-! DEFINITION. The statements for the provers, file by file of spec/, after the terms they share. -/

namespace Sys2Proof.Claims

open Sys2Proof.Machine

/-! ### Terms read from the spec's tables, apart from the model's decoder and checks -/

/-- Three bits of a word as a register number: a letter group of R117. -/
def letters (w : Word) (lo : Nat) : RegId := (w.extractLsb' lo 3).toFin

/-- The bits that must be zero for an opcode: RES and the fields R115 marks 0, as a mask. -/
def mustBeZero (op : Nat) : Word :=
  if op = 1 then 0xFF000000
  else if op = 2 then 0xF0000000
  else if op = 3 then 0xFFF00000
  else if op = 4 then 0xF00F0000
  else 0xFFF00000

/-- The top bits of the register fields an opcode uses (R115): one of them is set exactly when a used
field holds 8 or more. -/
def registerTops (op : Nat) : Word :=
  if op = 1 then 0x00888800
  else if op = 2 then 0x08888800
  else if op = 3 then 0x00088800
  else if op = 4 then 0x00008800
  else 0x00088800

/-- R120's sub-code of an illegal word, none for a legal one. -/
def illegalSub (w : Word) : Option Nat :=
  let op := (w.extractLsb' 0 8).toNat
  if op < 1 ∨ 5 < op then some 1
  else if w &&& mustBeZero op ≠ 0 then some 2
  else if w &&& registerTops op ≠ 0 then some 3
  else if op = 2 ∧ (w.extractLsb' 8 4 = w.extractLsb' 12 4 ∨ w.extractLsb' 8 4 = w.extractLsb' 16 4 ∨
      w.extractLsb' 12 4 = w.extractLsb' 16 4) then some 4
  else none

/-- R223's table: the slot of the first operand outside its domain. -/
def failingSlot (s : State) : Instr → Option Nat
  | .modexp _ rbase rexp rmod =>
    if s.x rbase < 0 then some 2 else if s.x rexp < 0 then some 3
    else if s.x rmod ≤ 0 then some 4 else none
  | .extgcd _ _ _ ra rb => if s.x ra < 0 then some 4 else if s.x rb < 0 then some 5 else none
  | .modinv _ re rphi => if s.x re < 0 then some 2 else if s.x rphi ≤ 0 then some 3 else none
  | .mrtest _ _ _ => none
  | .mrround _ rn ra =>
    if s.x rn % 2 = 1 ∧ 3 ≤ s.x rn ∧ (s.x ra < 2 ∨ s.x rn - 1 < s.x ra) then some 3 else none

/-- What the rules give for the command in flight, from the latched operands: its code and the results
it writes (R143, R160, R172, R173, R192, R196). -/
def RightResult (job : Job) (code : ErrCode) (results : List (RegId × Int)) : Prop :=
  match job.cmd, job.work with
  | .modexp rd _ _ _, .power w =>
    code = .none ∧ results = [(rd, w.b ^ w.e.toNat % w.m)]
  | .extgcd rg rx ry _ _, .euclid w =>
    code = .none ∧
      results = [(rg, (extgcd w.a w.b).1), (rx, (extgcd w.a w.b).2.1), (ry, (extgcd w.a w.b).2.2)]
  | .modinv rd _ _, .euclid w =>
    if Int.gcd w.a w.b = 1 then code = .none ∧ results = [(rd, modinv w.a w.b)]
    else code = .notInvertible ∧ results = []
  | .mrtest rd _ _, .primality w =>
    ∃ prime, mr w.n w.rounds w.draws = some prime ∧ code = .none ∧
      results = [(rd, verdictInt prime)]
  | .mrround rd _ _, .primality w =>
    ∃ prime a, w.given = some a ∧ mr w.n 1 [a] = some prime ∧ code = .none ∧
      results = [(rd, verdictInt prime)]
  | _, _ => False

/-- The host's next action is a write of `w` to CMD, the block IDLE and rst released. -/
def Submits (s : State) (w : Word) (rest : List Event) : Prop :=
  s.rst = false ∧ s.seq = .idle ∧ s.schedule = .write (s.params.base + 0x10) w 0xF :: rest

/-- The witnesses an event delivers, in order: between two engine steps, or within one. -/
def witnessesOf : Event → List Int
  | .witness a => [a]
  | .engine _ answers => answers
  | _ => []

/-- The step resets the block: rst is asserted, held or released after being held, or the host writes
a word with bit 1 set to CTRL (R260, R261). -/
def Resets (s : State) : Prop :=
  s.rst = true ∨ (∃ rest, s.schedule = .rst true :: rest) ∨
    ∃ v rest, v.getLsbD 1 = true ∧ s.schedule = .write (s.params.base + 0x08) v 0xF :: rest

/-- Every piece of state that R62 lists has its reset value. -/
def AtResetValues (t : State) : Prop :=
  (∀ r : RegId, t.x r = 0 ∧ ∀ w, t.regWord r w = 0) ∧ t.seq = .idle ∧ t.witnessRequest = none ∧
    t.ie = false ∧ t.busy = false ∧ t.done = false ∧ t.accerr = false ∧ t.cmdovr = false ∧
    t.err = .none ∧ t.lastcmd = 0 ∧ t.errinfo = 0 ∧ t.irq = false ∧
    (t.memRead 0x08).1 = 0 ∧ (t.memRead 0x0C).1 = 0 ∧ (t.memRead 0x00).1 = 0x52534131 ∧
    (t.memRead 0x04).1 = BitVec.ofNat 32 (2 ^ 20 * 16 + 2 ^ 16 * 8 + t.params.wpr)

/-- The step performs a host write of the word `v`, all four bytes of it, at an offset of the aperture. -/
def Writes (s : State) (off : Nat) (v : Word) : Prop :=
  s.rst = false ∧ ∃ rest, s.schedule = .write (s.params.base + off) v 0xF :: rest

/-- The host writes 1 to a bit of STATUS (R45). -/
def ClearsStatusBit (s : State) (bit : Nat) : Prop :=
  ∃ v, v.getLsbD bit = true ∧ Writes s 0x0C v

/-- An offset that R79 reserves or R80 refuses. -/
def RefusedOffset (p : Params) (off : Nat) : Prop :=
  off % 4 ≠ 0 ∨ 0x0018 ≤ off ∧ off < 0x1000 ∨ 0x1000 + 32 * p.wpr ≤ off

/-- The next event is a host access inside the aperture that R74 or R77 to R80 refuses. -/
def RefusedAccess (s : State) : Prop :=
  s.rst = false ∧ ∃ off, off < 0x2000 ∧
    ((∃ rest, s.schedule = .read (s.params.base + off) :: rest ∧ RefusedOffset s.params off) ∨
     (∃ v strb rest, s.schedule = .write (s.params.base + off) v strb :: rest ∧
       (strb ≠ 0xF ∨ RefusedOffset s.params off ∨ off = 0x0000 ∨ off = 0x0004 ∨ off = 0x0014 ∨
         0x1000 ≤ off ∧ s.busy = true)))

/-- The step completes a command: the one in flight commits, or the word the host submits completes in its
accept step (R226). -/
def Completing (s t : State) : Prop :=
  t.seq = .idle ∧ t.done = true ∧ (s.busy = true ∨ ∃ w rest, Submits s w rest)

/-- DONE and BUSY do not both read 1. -/
def NotDoneWhileBusy (s : State) : Prop := ¬(s.done = true ∧ s.busy = true)

end Sys2Proof.Claims

open Sys2Proof Sys2Proof.Machine Sys2Proof.Claims

/-! ### 30_encoding.md -/

/-- The example words of spec/opcode_table.json, those of R132, and every row of the decode table of
95_test_vectors.md section 6 decode as listed. -/
def Obligations.ExampleWordsDecode : Prop :=
  decode 0x00210301 = .ok (.modexp 3 0 1 2) ∧
  decode 0x01043202 = .ok (.extgcd 2 3 4 0 1) ∧
  decode 0x00010503 = .ok (.modinv 5 0 1) ∧
  decode 0x00004504 = .ok (.mrtest 5 4 0) ∧
  decode 0x01004504 = .ok (.mrtest 5 4 16) ∧
  decode 0x00010205 = .ok (.mrround 2 0 1) ∧
  decode 0x00000000 = .error .opcode ∧
  decode 0x00000006 = .error .opcode ∧
  decode 0x000000FF = .error .opcode ∧
  decode 0x10000000 = .error .opcode ∧
  decode 0x10210301 = .error .reservedBits ∧
  decode 0x01210301 = .error .reservedBits ∧
  decode 0x00110503 = .error .reservedBits ∧
  decode 0x00010304 = .error .reservedBits ∧
  decode 0xF0290301 = .error .reservedBits ∧
  decode 0x00290301 = .error .registerRange ∧
  decode 0x00210801 = .error .registerRange ∧
  decode 0x08043202 = .error .registerRange ∧
  decode 0x01042202 = .error .duplicateDestination ∧
  decode 0x0FF00304 = .ok (.mrtest 3 0 255) ∧
  decode 0x00770701 = .ok (.modexp 7 0 7 7) ∧
  decode 0x00000004 = .ok (.mrtest 0 0 0) ∧
  decode 0x00003404 = .ok (.mrtest 4 3 0)

/-- Decoding the word of a well-formed command gives the command back. -/
def Obligations.DecodeEncodeRoundTrip : Prop :=
  ∀ i : Instr, i.wf = true → decode (encode i) = .ok i

/-- A word that decodes is the word of the command it decodes to, and that command is well formed: no
bit of a legal word is ignored (R121). -/
def Obligations.EncodeDecodeRoundTrip : Prop :=
  ∀ (w : Word) (i : Instr), decode w = .ok i → encode i = w ∧ i.wf = true

/-- R117: the match and mask values decide which command a word is, and the letter groups are its
operands. The spec marks the sentence as its own inference ([derived: from rule R111 to rule R116 and
rule R120]). -/
def Obligations.LegalWordsMatchPatterns : Prop :=
  ∀ w : Word,
    (w &&& 0xFF8888FF = 0x00000001 →
      decode w = .ok (.modexp (letters w 8) (letters w 12) (letters w 16) (letters w 20))) ∧
    (w &&& 0xF88888FF = 0x00000002 → letters w 8 ≠ letters w 12 → letters w 8 ≠ letters w 16 →
      letters w 12 ≠ letters w 16 →
      decode w = .ok (.extgcd (letters w 8) (letters w 12) (letters w 16) (letters w 20)
        (letters w 24))) ∧
    (w &&& 0xFFF888FF = 0x00000003 →
      decode w = .ok (.modinv (letters w 8) (letters w 12) (letters w 16))) ∧
    (w &&& 0xF00F88FF = 0x00000004 →
      decode w = .ok (.mrtest (letters w 8) (letters w 12) (w.extractLsb' 20 8))) ∧
    (w &&& 0xFFF888FF = 0x00000005 →
      decode w = .ok (.mrround (letters w 8) (letters w 12) (letters w 16))) ∧
    (∀ i, decode w = .ok i →
      match i with
      | .modexp _ _ _ _ => w &&& 0xFF8888FF = 0x00000001
      | .extgcd rg rx ry _ _ => w &&& 0xF88888FF = 0x00000002 ∧ rg ≠ rx ∧ rg ≠ ry ∧ rx ≠ ry
      | .modinv _ _ _ => w &&& 0xFFF888FF = 0x00000003
      | .mrtest _ _ _ => w &&& 0xF00F88FF = 0x00000004
      | .mrround _ _ _ => w &&& 0xFFF888FF = 0x00000005)

/-- R120: every word is legal, or illegal with the sub-code of the first check that fails. -/
def Obligations.IllegalWordsBySubcode : Prop :=
  ∀ w : Word,
    match decode w with
    | .error why => illegalSub w = some why.sub.toNat
    | .ok _ => illegalSub w = none

/-- R114: T8 is bits 27:20, zero-extended, 0 meaning 16; T8 = 0 and T8 = 0x10 are two words that start
the same work. -/
def Obligations.RoundCountOfImmediate : Prop :=
  (∀ (w : Word) rd rn t8, decode w = .ok (.mrtest rd rn t8) → t8 = w.extractLsb' 20 8) ∧
  (∀ t8 : BitVec 8, roundCount t8 = (if t8 = 0 then 16 else t8.toNat) ∧
    1 ≤ roundCount t8 ∧ roundCount t8 ≤ 255) ∧
  (∀ rd rn, encode (.mrtest rd rn 0) ≠ encode (.mrtest rd rn 0x10)) ∧
  (∀ rd rn (s : State), s.seq = .idle → ∃ work,
    exec (.mrtest rd rn 0) s = .next (s.latch (.mrtest rd rn 0) work) ∧
    exec (.mrtest rd rn 0x10) s = .next (s.latch (.mrtest rd rn 0x10) work))

/-- R130 and R132: the assembler puts each operand in its field, MRTEST without a round count is T8 = 0,
a register outside r0 to r7, a count outside 1 to 255 and EXTGCD destinations that are not distinct are
refused, and no illegal word is ever emitted. -/
def Obligations.AssemblerEmitsOnlyLegalWords : Prop :=
  (∀ rd rbase rexp rmod : RegId, assemble (.modexp rd rbase rexp rmod) =
    some (1#32 ||| BitVec.ofNat 32 rd <<< 8 ||| BitVec.ofNat 32 rbase <<< 12 |||
      BitVec.ofNat 32 rexp <<< 16 ||| BitVec.ofNat 32 rmod <<< 20)) ∧
  (∀ rg rx ry ra rb : RegId, assemble (.extgcd rg rx ry ra rb) =
    if rg = rx ∨ rg = ry ∨ rx = ry then none
    else some (2#32 ||| BitVec.ofNat 32 rg <<< 8 ||| BitVec.ofNat 32 rx <<< 12 |||
      BitVec.ofNat 32 ry <<< 16 ||| BitVec.ofNat 32 ra <<< 20 ||| BitVec.ofNat 32 rb <<< 24)) ∧
  (∀ rd re rphi : RegId, assemble (.modinv rd re rphi) =
    some (3#32 ||| BitVec.ofNat 32 rd <<< 8 ||| BitVec.ofNat 32 re <<< 12 |||
      BitVec.ofNat 32 rphi <<< 16)) ∧
  (∀ (rd rn : RegId) (t : Nat), assemble (.mrtest rd rn (some t)) =
    if t < 1 ∨ 255 < t then none
    else some (4#32 ||| BitVec.ofNat 32 rd <<< 8 ||| BitVec.ofNat 32 rn <<< 12 |||
      BitVec.ofNat 32 t <<< 20)) ∧
  (∀ rd rn : RegId, assemble (.mrtest rd rn none) =
    some (4#32 ||| BitVec.ofNat 32 rd <<< 8 ||| BitVec.ofNat 32 rn <<< 12)) ∧
  (∀ rd rn ra : RegId, assemble (.mrround rd rn ra) =
    some (5#32 ||| BitVec.ofNat 32 rd <<< 8 ||| BitVec.ofNat 32 rn <<< 12 |||
      BitVec.ofNat 32 ra <<< 16)) ∧
  (∀ a b c d e : Nat, (8 ≤ a ∨ 8 ≤ b ∨ 8 ≤ c ∨ 8 ≤ d → assemble (.modexp a b c d) = none) ∧
    (8 ≤ a ∨ 8 ≤ b ∨ 8 ≤ c ∨ 8 ≤ d ∨ 8 ≤ e → assemble (.extgcd a b c d e) = none) ∧
    (8 ≤ a ∨ 8 ≤ b ∨ 8 ≤ c → assemble (.modinv a b c) = none) ∧
    (8 ≤ a ∨ 8 ≤ b → ∀ t, assemble (.mrtest a b t) = none) ∧
    (8 ≤ a ∨ 8 ≤ b ∨ 8 ≤ c → assemble (.mrround a b c) = none)) ∧
  (∀ line w, assemble line = some w → ∃ i, decode w = .ok i)

/-! ### The step -/

/-- A step runs the decoded command: when the host's next action is a write of a legal word to CMD while
the block is IDLE, the step is `exec` of that command, after LASTCMD took the word and DONE, ERR and
ERRINFO were cleared (R46, R50). -/
def Obligations.StepRunsSubmittedCommand : Prop :=
  ∀ (s : State) (w : Word) (rest : List Event) (i : Instr), Submits s w rest → decode w = .ok i →
    step s = exec i { s with
      schedule := rest, rdata := none, lastcmd := w, done := false, err := .none, errinfo := 0 }

/-- A step runs the command in flight: the engine's turn, scheduled or once the schedule is exhausted, is
`exec` of the latched command; while IDLE it changes nothing but the model's own fields (R52, R53, R246).
That the engine goes on when the schedule is exhausted, at its present effort but never at none, is the
model's choice (log 3, log 4, log 15), and so is the form in which the entropy source answers within an
engine step (log 25). -/
def Obligations.StepRunsCommandInFlight : Prop :=
  ∀ (s : State), s.rst = false →
    (∀ n answers rest, s.schedule = .engine n answers :: rest →
      (∀ job, s.seq = .busy job → step s = exec job.cmd { s with
        schedule := rest, rdata := none, effort := n, answers := answers }) ∧
      (s.seq = .idle → step s = .next { s with
        schedule := rest, rdata := none, effort := n, answers := answers })) ∧
    (s.schedule = [] →
      (∀ job, s.seq = .busy job →
        step s = exec job.cmd { s with rdata := none, effort := max 1 s.effort, answers := [] }) ∧
      (s.seq = .idle →
        step s = .next { s with rdata := none, effort := max 1 s.effort, answers := [] }))

/-- The model stops in one case only: the next event is a host access outside BASE to BASE + 0x1FFF
while rst is released (the model's choice, log 10); every other step has a next state. -/
def Obligations.StepStopsOnlyOutsideAperture : Prop :=
  ∀ s : State,
    (∃ t, step s = .next t) ∧
      ¬(s.rst = false ∧ ∃ addr rest, (addr < s.params.base ∨ s.params.base + 0x2000 ≤ addr) ∧
        (s.schedule = .read addr :: rest ∨ ∃ v strb, s.schedule = .write addr v strb :: rest)) ∨
    step s = .fault .outsideAperture ∧
      s.rst = false ∧ ∃ addr rest, (addr < s.params.base ∨ s.params.base + 0x2000 ≤ addr) ∧
        (s.schedule = .read addr :: rest ∨ ∃ v strb, s.schedule = .write addr v strb :: rest)

/-! ### The accept step (10_state.md, 60_exceptions.md) -/

/-- R222: an illegal word completes in its accept step with ILLEGAL_COMMAND and its sub-code; LASTCMD
takes the word, and no register and nothing else changes. -/
def Obligations.IllegalWordCompletesAtAccept : Prop :=
  ∀ (s : State) (w : Word) (k : Nat), s.seq = .idle → illegalSub w = some k →
    writeCmd w s = .next { s with
      lastcmd := w, done := true, err := .illegalCommand, errinfo := BitVec.ofNat 32 (16 * k) }

/-- R223: the first operand outside its domain, in ascending slot order, completes the command in its
accept step with INVALID_ARGUMENT and its slot; LASTCMD takes the word, and no register and nothing else
changes. When every operand is in its domain, and for MRTEST always, the word is accepted without an error
and the block is BUSY. -/
def Obligations.InvalidArgumentCompletesAtAccept : Prop :=
  ∀ (s : State) (w : Word) (i : Instr), s.seq = .idle → decode w = .ok i →
    (∀ slot, failingSlot s i = some slot →
      writeCmd w s = .next { s with
        lastcmd := w, done := true, err := .invalidArgument, errinfo := BitVec.ofNat 32 slot }) ∧
    (failingSlot s i = none →
      ∃ t, writeCmd w s = .next t ∧ t.busy = true ∧ t = { s with
        lastcmd := w, done := false, err := .none, errinfo := 0, seq := t.seq })

/-- `exec` on an IDLE block with operands in the command's domain, which is the accept step after its first
line, LASTCMD ← w and DONE, ERR and ERRINFO cleared (R50; that `exec` begins there is the model's choice, log
11): the source operands are copied into the working state and seq becomes BUSY, and `exec` changes nothing
else (R51). The initial values of the loops' working state, and that a special n has its verdict in it from
the accept step on, are the model's choice (log 5). -/
def Obligations.AcceptLatchesOperands : Prop :=
  ∀ s : State, s.seq = .idle →
    (∀ rd rbase rexp rmod, 0 ≤ s.x rbase → 0 ≤ s.x rexp → 0 < s.x rmod →
      exec (.modexp rd rbase rexp rmod) s = .next { s with
        seq := .busy ⟨.modexp rd rbase rexp rmod, .power ⟨s.x rbase, s.x rexp, s.x rmod,
          1 % s.x rmod, s.x rbase % s.x rmod, s.x rexp⟩, false⟩ }) ∧
    (∀ rg rx ry ra rb, 0 ≤ s.x ra → 0 ≤ s.x rb →
      exec (.extgcd rg rx ry ra rb) s = .next { s with
        seq := .busy ⟨.extgcd rg rx ry ra rb, .euclid ⟨s.x ra, s.x rb, s.x ra, s.x rb,
          1, 0, 0, 1, 0⟩, false⟩ }) ∧
    (∀ rd re rphi, 0 ≤ s.x re → 0 < s.x rphi →
      exec (.modinv rd re rphi) s = .next { s with
        seq := .busy ⟨.modinv rd re rphi, .euclid ⟨s.x re, s.x rphi, s.x re, s.x rphi,
          1, 0, 0, 1, 0⟩, false⟩ }) ∧
    (∀ rd rn t8, ∃ phase,
      exec (.mrtest rd rn t8) s = .next { s with
        seq := .busy ⟨.mrtest rd rn t8, .primality ⟨s.x rn, if t8 = 0 then 16 else t8.toNat, none,
          s.x rn - 1, 0, 0, 0, [], phase⟩, false⟩ } ∧
      (phase = .factoring ↔ s.x rn % 2 = 1 ∧ 3 ≤ s.x rn) ∧
      (phase = .verdict true ↔ s.x rn = 2) ∧
      (phase = .verdict false ↔ s.x rn < 2 ∨ s.x rn % 2 = 0 ∧ 4 ≤ s.x rn)) ∧
    (∀ rd rn ra, (s.x rn % 2 = 1 → 3 ≤ s.x rn → 2 ≤ s.x ra ∧ s.x ra ≤ s.x rn - 1) → ∃ phase,
      exec (.mrround rd rn ra) s = .next { s with
        seq := .busy ⟨.mrround rd rn ra, .primality ⟨s.x rn, 1, some (s.x ra),
          s.x rn - 1, 0, 0, 0, [], phase⟩, false⟩ } ∧
      (phase = .factoring ↔ s.x rn % 2 = 1 ∧ 3 ≤ s.x rn) ∧
      (phase = .verdict true ↔ s.x rn = 2) ∧
      (phase = .verdict false ↔ s.x rn < 2 ∨ s.x rn % 2 = 0 ∧ 4 ≤ s.x rn))

/-! ### The commit step of each command

The premise `0 < s.effort` says that the engine makes progress in this step; `effort` is the model's own
field (log 4). -/

/-- MODEXP's commit writes b^e mod m to rd, sets NONE and DONE, returns to IDLE, and changes nothing
else (R53, R142, R143). The engine makes progress in the step (log 4). -/
def Obligations.ModexpCommitWritesPower : Prop :=
  ∀ (s : State) (rd rbase rexp rmod : RegId) (w : PowerWork),
    s.seq = .busy ⟨.modexp rd rbase rexp rmod, .power w, true⟩ → 0 < s.effort →
    w.Inv → Fits s.params w.m → w.rem = 0 →
    ∃ t, exec (.modexp rd rbase rexp rmod) s = .next t ∧
      Completes s t .none 0 [(rd, w.b ^ w.e.toNat % w.m)] ∧
      t.schedule = s.schedule ∧ t.rdata = s.rdata ∧ t.effort = s.effort ∧ t.answers = s.answers

/-- EXTGCD's commit writes R160's triple to rg, rx and ry in one step, sets NONE and DONE, returns to
IDLE, and changes nothing else (R53, R164). The engine makes progress in the step (log 4). -/
def Obligations.ExtgcdCommitWritesTriple : Prop :=
  ∀ (s : State) (rg rx ry ra rb : RegId) (w : EuclidWork),
    s.seq = .busy ⟨.extgcd rg rx ry ra rb, .euclid w, true⟩ → 0 < s.effort →
    rg ≠ rx → rg ≠ ry → rx ≠ ry →
    w.Inv → Fits s.params w.a → Fits s.params w.b → w.r1 = 0 →
    ∃ t, exec (.extgcd rg rx ry ra rb) s = .next t ∧
      Completes s t .none 0 [(rg, (extgcd w.a w.b).1), (rx, (extgcd w.a w.b).2.1),
        (ry, (extgcd w.a w.b).2.2)] ∧
      t.schedule = s.schedule ∧ t.rdata = s.rdata ∧ t.effort = s.effort ∧ t.answers = s.answers

/-- MODINV's commit: when gcd(e, φ) = 1 it writes the inverse of e in [0, φ) to rd and sets NONE; when
not, it sets NOT_INVERTIBLE with ERRINFO 0 and writes no register. Either way DONE is set, seq returns
to IDLE and nothing else changes (R53, R172, R173, R224). The engine makes progress in the step (log 4). -/
def Obligations.ModinvCommitWritesInverse : Prop :=
  ∀ (s : State) (rd re rphi : RegId) (w : EuclidWork),
    s.seq = .busy ⟨.modinv rd re rphi, .euclid w, true⟩ → 0 < s.effort →
    w.Inv → 0 < w.b → Fits s.params w.b → w.r1 = 0 →
    ∃ t, exec (.modinv rd re rphi) s = .next t ∧
      t.schedule = s.schedule ∧ t.rdata = s.rdata ∧ t.effort = s.effort ∧ t.answers = s.answers ∧
      (Int.gcd w.a w.b = 1 → ∃ d, 0 ≤ d ∧ d < w.b ∧ w.a * d % w.b = 1 % w.b ∧
        Completes s t .none 0 [(rd, d)]) ∧
      (Int.gcd w.a w.b ≠ 1 → Completes s t .notInvertible 0 [])

/-- MRTEST's commit writes the verdict of R192 on the witnesses drawn, 1 or 0, to rd, sets NONE and
DONE, returns to IDLE, and changes nothing else (R53, R196, R197). The engine makes progress in the step
(log 4). -/
def Obligations.MrtestCommitWritesVerdict : Prop :=
  ∀ (s : State) (rd rn : RegId) (t8 : BitVec 8) (w : MrWork) (prime : Bool),
    s.seq = .busy ⟨.mrtest rd rn t8, .primality w, true⟩ → 0 < s.effort →
    w.Inv → w.rounds = roundCount t8 → w.phase = .verdict prime →
    mr w.n (roundCount t8) w.draws = some prime ∧
    ∃ t, exec (.mrtest rd rn t8) s = .next t ∧
      Completes s t .none 0 [(rd, if prime then 1 else 0)] ∧
      t.schedule = s.schedule ∧ t.rdata = s.rdata ∧ t.effort = s.effort ∧ t.answers = s.answers

/-- MRROUND's commit writes the verdict of R190 on a special n, else of one round with the latched
witness, 1 or 0, to rd, sets NONE and DONE, returns to IDLE, and changes nothing else (R53, R196,
R200). The engine makes progress in the step (log 4). -/
def Obligations.MrroundCommitWritesVerdict : Prop :=
  ∀ (s : State) (rd rn ra : RegId) (w : MrWork) (a : Int) (prime : Bool),
    s.seq = .busy ⟨.mrround rd rn ra, .primality w, true⟩ → 0 < s.effort →
    w.Inv → w.given = some a → w.phase = .verdict prime →
    mr w.n 1 [a] = some prime ∧
    ∃ t, exec (.mrround rd rn ra) s = .next t ∧
      Completes s t .none 0 [(rd, if prime then 1 else 0)] ∧
      t.schedule = s.schedule ∧ t.rdata = s.rdata ∧ t.effort = s.effort ∧ t.answers = s.answers

/-! ### Whole command runs (R17, R277)

The host schedules nothing after the CMD write. That the engine then goes on, a number of loop iterations
in each step and never none, is the model's choice (log 3, log 4, log 15). `3 ≤ k` says that the run has
at least an accept, a compute and a commit step. -/

/-- A MODEXP submitted to an IDLE block with operands in its domain comes, after finitely many steps, to
DONE with b^e mod m in rd, LASTCMD the word, and every other register and flag as before. That the engine goes on
once the schedule is exhausted, and how far in each step, is the model's choice (log 3, log 4). -/
def Obligations.ModexpRunCompletes : Prop :=
  ∀ (s : State) (w : Word) (rd rbase rexp rmod : RegId),
    Submits s w [] → s.RegsSized → decode w = .ok (.modexp rd rbase rexp rmod) →
    0 ≤ s.x rbase → 0 ≤ s.x rexp → 0 < s.x rmod →
    ∃ k t, 3 ≤ k ∧ Host.Core.run Sys2Proof.core k s = .next t ∧
      Completes { s with lastcmd := w } t .none 0 [(rd, s.x rbase ^ (s.x rexp).toNat % s.x rmod)]

/-- An EXTGCD submitted to an IDLE block with operands in its domain comes, after finitely many steps, to
DONE with R160's triple in rg, rx and ry, which is gcd(a, b) and Bézout coefficients of it, every other
register and flag as before. That the engine goes on
once the schedule is exhausted, and how far in each step, is the model's choice (log 3, log 4). -/
def Obligations.ExtgcdRunCompletes : Prop :=
  ∀ (s : State) (w : Word) (rg rx ry ra rb : RegId),
    Submits s w [] → s.RegsSized → decode w = .ok (.extgcd rg rx ry ra rb) →
    0 ≤ s.x ra → 0 ≤ s.x rb →
    ∃ k t g x y, 3 ≤ k ∧ Host.Core.run Sys2Proof.core k s = .next t ∧
      Completes { s with lastcmd := w } t .none 0 [(rg, g), (rx, x), (ry, y)] ∧
      (g, x, y) = extgcd (s.x ra) (s.x rb) ∧
      g = Int.gcd (s.x ra) (s.x rb) ∧ s.x ra * x + s.x rb * y = g

/-- A MODINV submitted to an IDLE block with operands in its domain comes, after finitely many steps, to
DONE: with the inverse of e in [0, φ) in rd when gcd(e, φ) = 1, with NOT_INVERTIBLE and no register
written when not. That the engine goes on
once the schedule is exhausted, and how far in each step, is the model's choice (log 3, log 4). -/
def Obligations.ModinvRunCompletes : Prop :=
  ∀ (s : State) (w : Word) (rd re rphi : RegId),
    Submits s w [] → s.RegsSized → decode w = .ok (.modinv rd re rphi) →
    0 ≤ s.x re → 0 < s.x rphi →
    ∃ k t, 3 ≤ k ∧ Host.Core.run Sys2Proof.core k s = .next t ∧
      (Int.gcd (s.x re) (s.x rphi) = 1 → ∃ d, 0 ≤ d ∧ d < s.x rphi ∧
        s.x re * d % s.x rphi = 1 % s.x rphi ∧
        Completes { s with lastcmd := w } t .none 0 [(rd, d)]) ∧
      (Int.gcd (s.x re) (s.x rphi) ≠ 1 → Completes { s with lastcmd := w } t .notInvertible 0 [])

/-- An MRTEST submitted to an IDLE block, for every sequence of t witnesses, legal if n is odd and ≥ 3: some
interleaving of engine steps and those witnesses, in order, brings it to DONE with R192's verdict in rd.
It uses exactly the witnesses of the rounds it runs: fewer do not decide (R195). The form of the
interleaving, how far the engine goes in each step, and where an answer falls are the model's choice (log 3,
log 4, log 25). -/
def Obligations.MrtestRunCompletes : Prop :=
  ∀ (s : State) (w : Word) (rd rn : RegId) (t8 : BitVec 8) (witnesses : List Int),
    Submits s w [] → s.RegsSized → decode w = .ok (.mrtest rd rn t8) →
    witnesses.length = roundCount t8 →
    (s.x rn % 2 = 1 → 3 ≤ s.x rn → ∀ a ∈ witnesses, LegalWitness (s.x rn) a) →
    ∃ (prime : Bool) (events : List Event) (used : List Int) (k : Nat) (t : State),
      mr (s.x rn) (roundCount t8) witnesses = some prime ∧
      (∀ e ∈ events, (∃ n answers, e = .engine n answers) ∨ ∃ a, e = .witness a) ∧
      events.flatMap witnessesOf = used ∧ used <+: witnesses ∧
      mr (s.x rn) (roundCount t8) used = some prime ∧
      (∀ fewer, fewer <+: used → fewer ≠ used → mr (s.x rn) (roundCount t8) fewer = none) ∧
      3 ≤ k ∧ Host.Core.run Sys2Proof.core k { s with schedule := s.schedule ++ events } = .next t ∧
      Completes { s with lastcmd := w } t .none 0 [(rd, if prime then 1 else 0)]

/-- An MRROUND submitted to an IDLE block, its witness legal if n is odd and ≥ 3, comes, after finitely
many steps, to DONE with the verdict of R190 or of the one round in rd. That the engine goes on
once the schedule is exhausted, and how far in each step, is the model's choice (log 3, log 4). -/
def Obligations.MrroundRunCompletes : Prop :=
  ∀ (s : State) (w : Word) (rd rn ra : RegId),
    Submits s w [] → s.RegsSized → decode w = .ok (.mrround rd rn ra) →
    (s.x rn % 2 = 1 → 3 ≤ s.x rn → LegalWitness (s.x rn) (s.x ra)) →
    ∃ (prime : Bool) (k : Nat) (t : State), mr (s.x rn) 1 [s.x ra] = some prime ∧ 3 ≤ k ∧
      Host.Core.run Sys2Proof.core k s = .next t ∧
      Completes { s with lastcmd := w } t .none 0 [(rd, if prime then 1 else 0)]

/-! ### Invariants and whole-machine rules -/

/-- Every step keeps the invariant of a run. -/
def Obligations.InvariantKeptByEveryStep : Prop :=
  ∀ s t : State, s.Inv → step s = .next t → t.Inv

/-- The invariant holds at reset, for every legal instance of the block. -/
def Obligations.InvariantAtReset : Prop :=
  (∀ p : Params, (State.resetOf p).Inv) ∧ State.reset.Inv

/-- Whatever the interleaving and the number of engine steps, a command in flight that comes to DONE has
the code and exactly the results its rules give for the latched operands (R53, R143, R160, R172,
R192). -/
def Obligations.EveryCompletionIsRight : Prop :=
  ∀ (s t : State) (job : Job), s.Inv → s.seq = .busy job → step s = .next t → t.done = true →
    ∃ code results, RightResult job code results ∧ Completes s t code 0 results

/-- DONE = 1 and BUSY = 1 never hold together (R44). -/
def Obligations.DoneAndBusyNeverTogether : Prop :=
  (∀ p : Params, NotDoneWhileBusy (State.resetOf p)) ∧
  ∀ s t : State, NotDoneWhileBusy s → step s = .next t → NotDoneWhileBusy t

/-- A register changes in a step only by a host write to the register window while IDLE, by the commit of
a command that succeeds, for its destinations, or by a reset; the parameters never change (R31, R227). -/
def Obligations.RegistersChangeOnlyByTheirWriters : Prop :=
  ∀ s t : State, step s = .next t →
    t.params = s.params ∧
    ∀ r : RegId, t.regs[r] ≠ s.regs[r] →
      (s.seq = .idle ∧ s.rst = false ∧ ∃ w v rest, w < s.params.wpr ∧
        s.schedule = .write (s.params.base + (0x1000 + 4 * (r.val * s.params.wpr + w))) v 0xF :: rest) ∨
      (∃ job, s.seq = .busy job ∧ r ∈ dests job.cmd ∧ t.seq = .idle ∧ t.done = true ∧ t.err = .none) ∨
      Resets s

/-- LASTCMD: the accept step of any word, legal or not, sets it; a reset clears it; no other step changes
it, in particular no refused CMD write (R47). -/
def Obligations.LastcmdIsTheLastAcceptedWord : Prop :=
  ∀ s t : State, step s = .next t →
    (∀ w rest, Submits s w rest → t.lastcmd = w) ∧
    (Resets s → t.lastcmd = 0) ∧
    ((¬∃ w rest, Submits s w rest) → ¬Resets s → t.lastcmd = s.lastcmd)

/-- A command writes nothing but its destinations, DONE, ERR, ERRINFO and LASTCMD, and a register only at a
commit with the code NONE (R56). The accept step of any word writes LASTCMD and no register. `exec`, which
begins after that step's first line (the model's choice, log 11), leaves LASTCMD as that line wrote it, and
so does every engine step; on any code other than NONE it writes no register (R227). -/
def Obligations.CommandWritesNothingElse : Prop :=
  (∀ (w : Word) (s : State), s.seq = .idle →
    ∃ t, acceptWord w s = .next t ∧ t.lastcmd = w ∧ t.regs = s.regs ∧ t.ie = s.ie ∧
      t.accerr = s.accerr ∧ t.cmdovr = s.cmdovr ∧ t.rst = s.rst ∧ t.params = s.params ∧
      t.schedule = s.schedule ∧ t.rdata = s.rdata ∧ t.effort = s.effort ∧ t.answers = s.answers) ∧
  ∀ (i : Instr) (s : State), (∀ job, s.seq = .busy job → job.cmd = i) →
    ∃ t, exec i s = .next t ∧ t.ie = s.ie ∧ t.accerr = s.accerr ∧ t.cmdovr = s.cmdovr ∧
      t.lastcmd = s.lastcmd ∧ t.rst = s.rst ∧ t.params = s.params ∧ t.schedule = s.schedule ∧
      t.rdata = s.rdata ∧ t.effort = s.effort ∧ t.answers = s.answers ∧
      (∀ r : RegId, r ∉ dests i → t.regs[r] = s.regs[r]) ∧
      (t.seq ≠ .idle ∨ t.err ≠ .none → t.regs = s.regs)

/-- An engine step that is not the commit leaves the block BUSY and changes nothing the host can see; the
first engine step after the accept is never the commit (R8, R52). A step with effort 0, in which the engine
makes no progress, is the model's own (log 4). -/
def Obligations.ComputeStepIsInvisible : Prop :=
  ∀ (s : State) (job : Job), s.seq = .busy job →
    (job.stepped = false ∨ job.work.finished = false ∨ s.effort = 0) →
    ∃ t, exec job.cmd s = .next t ∧ t.busy = true ∧ SameToHost s t

/-- A pending witness request ends only by a legal answer of the entropy source, after which the command
is still BUSY, or by a reset (R58, R194). An answer within an engine step may be followed in the same step by
the next round's request, which is then pending. That an answer that is not legal changes nothing, and the
two places an answer can fall, are the model's choice (log 6, log 25). -/
def Obligations.WitnessRequestWaits : Prop :=
  ∀ (s t : State) (n : Int), s.witnessRequest = some n → step s = .next t →
    t.witnessRequest = some n ∧ t.busy = true ∨
    (∃ a e rest, s.schedule = e :: rest ∧ a ∈ witnessesOf e ∧ 2 ≤ a ∧ a ≤ n - 1 ∧
      t.witnessRequest = none ∧ t.busy = true ∧ t.regs = s.regs) ∨
    Resets s ∧ AtResetValues t

/-- While IDLE, no step but a host write or the rst input changes a register, DONE, ERR, ERRINFO or
LASTCMD, and the block stays IDLE (R91, R246, R271). -/
def Obligations.ResultsStayUntilWritten : Prop :=
  ∀ s t : State, s.seq = .idle → s.rst = false → step s = .next t →
    (∀ addr v strb rest, s.schedule ≠ .write addr v strb :: rest) →
    (∀ rest, s.schedule ≠ .rst true :: rest) →
    t.regs = s.regs ∧ t.seq = .idle ∧ t.done = s.done ∧ t.err = s.err ∧ t.errinfo = s.errinfo ∧
      t.lastcmd = s.lastcmd

/-! ### The host port (20_memory.md) -/

/-- R84: what each offset reads, and that only a refused read changes the state, by ACCERR. -/
def Obligations.ReadsReturnTheMap : Prop :=
  ∀ s : State,
    s.memRead 0x0000 = (0x52534131, s) ∧
    s.memRead 0x0004 = (BitVec.ofNat 32 (2 ^ 20 * 16 + 2 ^ 16 * 8 + s.params.wpr), s) ∧
    s.memRead 0x0008 = (BitVec.ofNat 32 s.ie.toNat, s) ∧
    s.memRead 0x000C = (BitVec.ofNat 32 (2 ^ 8 * s.err.code.toNat + 2 ^ 3 * s.cmdovr.toNat +
      2 ^ 2 * s.accerr.toNat + 2 * s.done.toNat + s.busy.toNat), s) ∧
    s.memRead 0x0010 = (s.lastcmd, s) ∧
    s.memRead 0x0014 = (s.errinfo, s) ∧
    (∀ (r : RegId) (w : Nat), w < s.params.wpr →
      s.memRead (0x1000 + 4 * (r.val * s.params.wpr + w)) =
        (BitVec.ofNat 32 (s.pattern r / 2 ^ (32 * w)), s)) ∧
    (∀ off, off % 4 ≠ 0 ∨ 0x0018 ≤ off ∧ off < 0x1000 ∨ 0x1000 + 32 * s.params.wpr ≤ off →
      s.memRead off = (0, { s with accerr := true }))

/-- R77 to R80: a write with a strobe other than 0b1111, to a read-only register, to a reserved offset or
to a misaligned one is ignored and sets ACCERR, in every state; a read of a reserved or a misaligned
offset returns 0 and sets ACCERR. -/
def Obligations.RefusedAccessesSetAccerr : Prop :=
  ∀ (s : State) (off : Nat) (v : Word) (strb : BitVec 4),
    (strb ≠ 0xF → memWrite off v strb s = .next { s with accerr := true }) ∧
    (off = 0x0000 ∨ off = 0x0004 ∨ off = 0x0014 ∨ off % 4 ≠ 0 ∨ 0x0018 ≤ off ∧ off < 0x1000 ∨
        0x1000 + 32 * s.params.wpr ≤ off →
      memWrite off v strb s = .next { s with accerr := true }) ∧
    (off % 4 ≠ 0 ∨ 0x0018 ≤ off ∧ off < 0x1000 ∨ 0x1000 + 32 * s.params.wpr ≤ off →
      s.memRead off = (0, { s with accerr := true }))

/-- R45: a write to STATUS clears DONE, ACCERR and CMDOVR where bits 1, 2 and 3 are set, and does nothing
else, in every state. -/
def Obligations.StatusWriteOneToClear : Prop :=
  ∀ (s : State) (v : Word), memWrite 0x000C v 0xF s = .next { s with
    done := if v.getLsbD 1 then false else s.done
    accerr := if v.getLsbD 2 then false else s.accerr
    cmdovr := if v.getLsbD 3 then false else s.cmdovr }

/-- R261: a write to CTRL with bit 1 set, in every state, puts every piece of state at its reset value; a
command in flight writes nothing, SRST reads 0 afterwards, and the parameters stay. -/
def Obligations.SoftResetClearsEverything : Prop :=
  ∀ (s : State) (v : Word), v.getLsbD 1 = true →
    ∃ t, memWrite 0x0008 v 0xF s = .next t ∧ AtResetValues t ∧ t.params = s.params ∧
      t.schedule = s.schedule

/-- A write to CTRL with bit 1 clear sets IE to bit 0 and nothing else, in every state (R43). -/
def Obligations.CtrlWriteSetsInterruptEnable : Prop :=
  ∀ (s : State) (v : Word), v.getLsbD 1 = false →
    memWrite 0x0008 v 0xF s = .next { s with ie := v.getLsbD 0 } ∧
    (State.memRead { s with ie := v.getLsbD 0 } 0x0008).1 = v &&& 1

/-- R260: in the step rst is asserted, and in every step while it is, every piece of state takes its
reset value and no host access is performed; in the step it is released the block is IDLE at those
values. -/
def Obligations.HardwareResetHoldsTheBlock : Prop :=
  ∀ s : State,
    (∀ rest, s.schedule = .rst true :: rest →
      ∃ t, step s = .next t ∧ t.rst = true ∧ AtResetValues t ∧ t.rdata = none) ∧
    (s.rst = true → (∀ rest, s.schedule ≠ .rst false :: rest) →
      ∃ t, step s = .next t ∧ t.rst = true ∧ AtResetValues t ∧ t.rdata = none) ∧
    (s.rst = true → ∀ rest, s.schedule = .rst false :: rest →
      ∃ t, step s = .next t ∧ t.rst = false ∧ AtResetValues t ∧ t.schedule = rest)

/-- R62: the values after reset, for every legal instance. -/
def Obligations.ResetValues : Prop :=
  (∀ p : Params, AtResetValues (State.resetOf p)) ∧ AtResetValues State.reset

/-- R72 and R74: a write of `v` to word w of Rr in the register window replaces exactly bits
[32w+31 : 32w] of its pattern while IDLE, every other bit, register and piece of state as before; while
BUSY it is ignored and sets ACCERR. -/
def Obligations.WindowWriteReplacesOneWord : Prop :=
  ∀ (s : State) (r : RegId) (w : Nat) (v : Word), w < s.params.wpr →
    (s.seq = .idle → s.RegsSized →
      ∃ t, memWrite (0x1000 + 4 * (r.val * s.params.wpr + w)) v 0xF s = .next t ∧
        (∀ j, (t.pattern r).testBit j =
          if 32 * w ≤ j ∧ j < 32 * w + 32 then v.getLsbD (j - 32 * w)
          else (s.pattern r).testBit j) ∧
        (∀ q : RegId, q ≠ r → t.regs[q] = s.regs[q]) ∧
        t = { s with regs := t.regs }) ∧
    (s.busy = true →
      memWrite (0x1000 + 4 * (r.val * s.params.wpr + w)) v 0xF s = .next { s with accerr := true })

/-- R75: a read of the register window is performed in every state, BUSY or not; it returns the word's
current value and changes nothing but the data returned. -/
def Obligations.WindowReadAtAnyTime : Prop :=
  ∀ (s : State) (r : RegId) (w : Nat) (rest : List Event), w < s.params.wpr → s.rst = false →
    s.schedule = .read (s.params.base + (0x1000 + 4 * (r.val * s.params.wpr + w))) :: rest →
    step s = .next { s with
      schedule := rest, rdata := some (BitVec.ofNat 32 (s.pattern r / 2 ^ (32 * w))) }

/-- R54: a CMD write while BUSY is refused: CMDOVR is set and nothing else changes. -/
def Obligations.CommandWhileBusyIsRefused : Prop :=
  ∀ (s : State) (w : Word) (job : Job), s.seq = .busy job →
    memWrite 0x0010 w 0xF s = .next { s with cmdovr := true }

/-- The WPR writes of `LDR rN, v` on an IDLE block leave x[N] = v for every v in range, and every other
register and piece of state as before (R73, R131). -/
def Obligations.LdrLoadsTheValue : Prop :=
  ∀ (s : State) (r : RegId) (v : Int) (rest : List Event),
    s.seq = .idle → s.rst = false → s.RegsSized → Fits s.params v →
    s.schedule = hostLdr s.params r v ++ rest →
    ∃ t, Host.Core.run Sys2Proof.core s.params.wpr s = .next t ∧ t.x r = v ∧
      (∀ q : RegId, q ≠ r → t.regs[q] = s.regs[q]) ∧
      t = { s with regs := t.regs, schedule := rest, rdata := none }

/-- irq is high exactly when bit 1 of STATUS and bit 0 of CTRL read 1; it rises and falls with them
(R230), whatever ACCERR, CMDOVR and the sequencer, with any pending entropy request in it, are (R231). -/
def Obligations.IrqFollowsDoneAndEnable : Prop :=
  ∀ s : State,
    (s.irq = true ↔
      (s.memRead 0x000C).1.getLsbD 1 = true ∧ (s.memRead 0x0008).1.getLsbD 0 = true) ∧
    ∀ (a c : Bool) (q : Machine.Seq), State.irq { s with accerr := a, cmdovr := c, seq := q } = s.irq

/-- A legal answer to the pending request begins the round with that witness; any other answer changes
nothing but the schedule (R194; the latter is the model's choice, log 6). This is an answer between two
engine steps; answers also fall within them (log 25). -/
def Obligations.WitnessBeginsTheRound : Prop :=
  ∀ (s : State) (a : Int) (rest : List Event), s.rst = false → s.schedule = .witness a :: rest →
    (∀ cmd w stepped, s.seq = .busy ⟨cmd, .primality w, stepped⟩ → w.phase = .awaiting →
      2 ≤ a → a ≤ w.n - 1 → step s = .next { s with
        schedule := rest, rdata := none
        seq := .busy ⟨cmd, .primality { w with
          draws := w.draws ++ [a]
          phase := .powering ⟨a, w.u, w.n, 1 % w.n, a % w.n, w.u⟩ }, stepped⟩ }) ∧
    (∀ n, s.witnessRequest = some n → a < 2 ∨ n - 1 < a →
      step s = .next { s with schedule := rest, rdata := none }) ∧
    (s.witnessRequest = none → step s = .next { s with schedule := rest, rdata := none })

/-! ### The algorithms (40_modexp.md, 41_extgcd.md, 42_miller_rabin.md) -/

/-- R143: the loop of R140 computes b^e mod m, in [0, m). -/
def Obligations.ModexpIsPowerMod : Prop :=
  ∀ b e m : Int, 0 ≤ b → 0 ≤ e → 0 < m →
    modexp b e m = b ^ e.toNat % m ∧ 0 ≤ modexp b e m ∧ modexp b e m < m

/-- R160: the recursion's two cases. -/
def Obligations.ExtgcdRecursion : Prop :=
  ∀ a b : Int, 0 ≤ a → 0 ≤ b →
    extgcd a b =
      if b = 0 then (a, 1, 0)
      else ((extgcd b (a % b)).1, (extgcd b (a % b)).2.2,
        (extgcd b (a % b)).2.1 - a / b * (extgcd b (a % b)).2.2)

/-- R161: the iterative form gives the recursion's triple. The spec marks the equality as its own inference
([derived: the spec author checked it by enumerating every a, b < 300; the general proof is from general
knowledge, not in source]). -/
def Obligations.ExtgcdIterativeIsRecursive : Prop :=
  ∀ a b : Int, 0 ≤ a → 0 ≤ b → extgcdIter a b = extgcd a b

/-- R163: the triple is (g, x, y) with a·x + b·y = g = gcd(a, b) ≥ 0, zero exactly for (0, 0); the
coefficients are bounded by the operands; a recursion deeper than b + 1 changes nothing. The spec marks the
bounds on the coefficients [from general knowledge, not in source]. -/
def Obligations.ExtgcdIsBezout : Prop :=
  ∀ a b : Int, 0 ≤ a → 0 ≤ b →
    a * (extgcd a b).2.1 + b * (extgcd a b).2.2 = (extgcd a b).1 ∧
    (extgcd a b).1 = Int.gcd a b ∧ 0 ≤ (extgcd a b).1 ∧
    ((extgcd a b).1 = 0 ↔ a = 0 ∧ b = 0) ∧
    |(extgcd a b).2.1| ≤ max b 1 ∧ |(extgcd a b).2.2| ≤ max a 1 ∧
    (b ≠ 0 → 0 ≤ a % b ∧ a % b < b) ∧
    ∀ depth, b.toNat + 1 ≤ depth → extgcdDepth depth a b = extgcd a b

/-- R170 and R174: for coprime e ≥ 0 and φ > 0 the coefficient x is at most φ in magnitude, the inverse is
its floor remainder in [0, φ), and e·d ≡ 1 (mod φ). The spec marks these as its own inferences ([derived:
from rule R163], and for R174 [derived: from rule R163 and rule R170]). -/
def Obligations.ModinvIsTheInverse : Prop :=
  ∀ e phi : Int, 0 ≤ e → 0 < phi → Int.gcd e phi = 1 →
    |(extgcd e phi).2.1| ≤ phi ∧ modinv e phi = (extgcd e phi).2.1 % phi ∧
    0 ≤ modinv e phi ∧ modinv e phi < phi ∧
    e * modinv e phi % phi = 1 % phi ∧
    (2 ≤ phi → e * modinv e phi % phi = 1)

/-- R9: every register value is in range, each result is within its bound, and every result of operands
that fit RW bits fits RW bits. The spec marks the bounds on x and y [from general knowledge, not in source]
and the others [derived: ...]. -/
def Obligations.ResultsFitTheRegisters : Prop :=
  (∀ s : State, s.RegsSized → ∀ r : RegId, Fits s.params (s.x r)) ∧
  (∀ b e m : Int, 0 ≤ b → 0 ≤ e → 0 < m → 0 ≤ modexp b e m ∧ modexp b e m < m) ∧
  (∀ a b : Int, 0 ≤ a → 0 ≤ b → (extgcd a b).1 ≤ max a b ∧
    |(extgcd a b).2.1| ≤ max b 1 ∧ |(extgcd a b).2.2| ≤ max a 1) ∧
  (∀ e phi : Int, 0 ≤ e → 0 < phi → 0 ≤ modinv e phi ∧ modinv e phi < phi) ∧
  (∀ prime, verdictInt prime = 0 ∨ verdictInt prime = 1) ∧
  (∀ (p : Params) (a b m : Int), Fits p a → Fits p b → Fits p m → 0 ≤ a → 0 ≤ b → 0 < m →
    Fits p (modexp a b m) ∧ Fits p (extgcd a b).1 ∧ Fits p (extgcd a b).2.1 ∧
    Fits p (extgcd a b).2.2 ∧ Fits p (modinv a m) ∧ ∀ prime, Fits p (verdictInt prime))

/-- R190: the special cases, and n − 1 = u · 2^k with u odd for odd n ≥ 3. -/
def Obligations.SpecialCasesAndFactor : Prop :=
  (∀ n : Int, special n =
    if n = 2 then some true else if n < 2 then some false
    else if n % 2 = 0 then some false else none) ∧
  (∀ n : Int, special n = none ↔ n % 2 = 1 ∧ 3 ≤ n) ∧
  (∀ n : Int, n % 2 = 1 → 3 ≤ n →
    n - 1 = (factor n).1 * 2 ^ (factor n).2 ∧ (factor n).1 % 2 = 1 ∧ 1 ≤ (factor n).1 ∧
      1 ≤ (factor n).2)

/-- R191: a round passes exactly when a^u ≡ 1, or a^(u·2^i) ≡ n − 1 for some i < k: v = n − 1 is tested on
the initial v and after each of up to k − 1 squarings. -/
def Obligations.RoundPassesExactlyWhen : Prop :=
  ∀ n a : Int, n % 2 = 1 → 3 ≤ n → LegalWitness n a →
    (mrRound n (factor n).1 (factor n).2 a = true ↔
      a ^ (factor n).1.toNat % n = 1 ∨
      ∃ i, i < (factor n).2 ∧ a ^ ((factor n).1.toNat * 2 ^ i) % n = n - 1)

/-- R192: a special n has its verdict with no witness; else the rounds run in order, the first that does
not pass decides composite, and all t passing decides prime. -/
def Obligations.RoundsShortCircuit : Prop :=
  (∀ (n : Int) (t : Nat) (ws : List Int) (v : Bool), special n = some v → mr n t ws = some v) ∧
  (∀ (n : Int) (t : Nat) (ws : List Int), special n = none → t ≤ ws.length →
    (mr n t ws = some true ↔
      ∀ j, j < t → mrRound n (factor n).1 (factor n).2 (ws.getD j 0) = true) ∧
    (mr n t ws = some false ↔
      ∃ j, j < t ∧ mrRound n (factor n).1 (factor n).2 (ws.getD j 0) = false) ∧
    ∀ j more, j < t → mrRound n (factor n).1 (factor n).2 (ws.getD j 0) = false →
      mr n t (ws.take (j + 1) ++ more) = some false)

/-- R198: a prime passes every witness; verdict 0 proves n not prime; the witness n − 1 always passes, so
verdict 1 is admitted for every odd n ≥ 3; an odd composite fails for some witness. -/
def Obligations.VerdictProperties : Prop :=
  (∀ (n : Nat) (t : Nat) (ws : List Int), n.Prime → t ≤ ws.length → (∀ a ∈ ws, LegalWitness n a) →
    mr n t ws = some true) ∧
  (∀ (n : Int) (t : Nat) (ws : List Int), (∀ a ∈ ws, LegalWitness n a) → mr n t ws = some false →
    ¬n.toNat.Prime) ∧
  (∀ (n : Int) (t : Nat), n % 2 = 1 → 3 ≤ n → LegalWitness n (n - 1) ∧
    mrRound n (factor n).1 (factor n).2 (n - 1) = true ∧
    mr n t (List.replicate t (n - 1)) = some true) ∧
  (∀ n : Nat, n % 2 = 1 → 3 ≤ n → ¬n.Prime → ∃ a, LegalWitness n a ∧
    mrRound n (factor n).1 (factor n).2 a = false ∧ mr n 1 [a] = some false)

/-! ### Host accesses in a step, the flags, and what can hold a command -/

/-- A host access in a step: when the next event is a read or a write inside the aperture and rst is
released, the step performs it at its offset from BASE, as one atomic step, and a read presents its word to
the host (R81, R84, R85, R90). That the word stands in `rdata` for one step is the model's choice (log 9). -/
def Obligations.StepPerformsHostAccess : Prop :=
  ∀ (s : State) (off : Nat) (rest : List Event), s.rst = false → off < 0x2000 →
    (s.schedule = .read (s.params.base + off) :: rest →
      step s = .next { (s.memRead off).2 with schedule := rest, rdata := some (s.memRead off).1 }) ∧
    (∀ v strb, s.schedule = .write (s.params.base + off) v strb :: rest →
      step s = memWrite off v strb { s with schedule := rest, rdata := none })

/-- R49 and R229: what sets and what clears each flag. ACCERR and CMDOVR are sticky: only a refused access
sets them, and only the host's write of 1 or a reset clears them. DONE, ERR and ERRINFO change only at an
accept, at a completion or by a reset, and DONE also by the host's write of 1. IE changes only by a write to
CTRL or a reset. -/
def Obligations.FlagsChangeOnlyByTheirCauses : Prop :=
  ∀ s t : State, step s = .next t →
    (t.accerr = true → s.accerr = false → RefusedAccess s) ∧
    (t.accerr = false → s.accerr = true → ClearsStatusBit s 2 ∨ Resets s) ∧
    (t.cmdovr = true → s.cmdovr = false → ∃ w, s.busy = true ∧ Writes s 0x10 w) ∧
    (t.cmdovr = false → s.cmdovr = true → ClearsStatusBit s 3 ∨ Resets s) ∧
    (t.done = true → s.done = false → Completing s t) ∧
    (t.done = false → s.done = true →
      ClearsStatusBit s 1 ∨ (∃ w rest, Submits s w rest) ∨ Resets s) ∧
    (t.err ≠ s.err ∨ t.errinfo ≠ s.errinfo →
      Completing s t ∨ (∃ w rest, Submits s w rest) ∨ Resets s) ∧
    (t.ie ≠ s.ie → (∃ v, v.getLsbD 1 = false ∧ v.getLsbD 0 = t.ie ∧ Writes s 0x08 v) ∨ Resets s)

/-- R58 and R277: in a state that meets the invariant of a run, once the schedule is exhausted, a command in
flight commits after finitely many steps, and the only one that does not is an MRTEST whose witness request
is pending. That the engine makes progress in each of these steps is the model's form of the spec's weak
fairness (log 3, log 15). -/
def Obligations.OnlyAWitnessRequestHoldsACommand : Prop :=
  ∀ (s : State) (job : Job), s.Inv → s.seq = .busy job → s.schedule = [] →
    ∃ k t, Host.Core.run Sys2Proof.core k s = .next t ∧
      (t.seq = .idle ∧ t.done = true ∨
        (∃ rd rn t8, job.cmd = .mrtest rd rn t8) ∧ t.busy = true ∧ ∃ n, t.witnessRequest = some n)

/-- R8: the number of engine steps from accept to commit is free, from 1 on, for every command. A command
submitted with its operands in its domain, and an MRTEST with any t witnesses, legal if n is odd and ≥ 3, can
take any number m ≥ 1 of compute steps and then commit, some sequence of engine events and of answers within
them giving exactly that run. For MRTEST it commits R192's verdict on those witnesses. The form of the
events is the model's choice (log 3, log 4, log 25). -/
def Obligations.EveryEngineStepCountIsReached : Prop :=
  ∀ (s : State) (w : Word) (i : Instr) (witnesses : List Int) (m : Nat),
    Submits s w [] → s.RegsSized → decode w = .ok i → failingSlot s i = none → 1 ≤ m →
    (∀ rd rn t8, i = .mrtest rd rn t8 → witnesses.length = roundCount t8 ∧
      (s.x rn % 2 = 1 → 3 ≤ s.x rn → ∀ a ∈ witnesses, LegalWitness (s.x rn) a)) →
    ∃ (events : List Event) (t u : State),
      events.length = m + 1 ∧ (∀ e ∈ events, ∃ n answers, e = .engine n answers) ∧
      events.flatMap witnessesOf = witnesses ∧
      Host.Core.run Sys2Proof.core (1 + m) { s with schedule := s.schedule ++ events } = .next t ∧
      t.busy = true ∧
      Host.Core.run Sys2Proof.core (1 + m + 1) { s with schedule := s.schedule ++ events } = .next u ∧
      u.seq = .idle ∧ u.done = true ∧
      (∀ rd rn t8, i = .mrtest rd rn t8 → ∃ prime,
        mr (s.x rn) (roundCount t8) witnesses = some prime ∧ u.x rd = verdictInt prime)
end

