-- ==== Sys2Proof/Laws/Apu.lean ====
section
/-! SUPPORT. The APU primitives as arithmetic. -/

namespace Sys2Proof.Machine

@[simp] theorem Apu.add_eq (a b : Int) : Apu.add a b = a + b := rfl
@[simp] theorem Apu.sub_eq (a b : Int) : Apu.sub a b = a - b := rfl
@[simp] theorem Apu.mul_eq (a b : Int) : Apu.mul a b = a * b := rfl
@[simp] theorem Apu.mod_eq (a b : Int) : Apu.mod a b = a % b := rfl
@[simp] theorem Apu.divmod_fst (a b : Int) : (Apu.divmod a b).1 = a / b := rfl
@[simp] theorem Apu.divmod_snd (a b : Int) : (Apu.divmod a b).2 = a % b := rfl
@[simp] theorem Apu.half_eq (a : Int) : Apu.half a = a / 2 := rfl
@[simp] theorem Apu.bit_zero (a : Int) : Apu.bit a 0 = a % 2 := by simp [Apu.bit]

theorem Apu.cmp_eq_zero (a b : Int) : Apu.cmp a b = 0 ↔ a = b := by
  unfold Apu.cmp; split <;> [skip; split] <;> omega

theorem Apu.cmp_le_zero (a b : Int) : Apu.cmp a b ≤ 0 ↔ a ≤ b := by
  unfold Apu.cmp; split <;> [skip; split] <;> omega

/-- MODEXP's loop has ended exactly when the remaining exponent is not positive (R140). -/
theorem PowerWork.finished_iff (w : PowerWork) : w.finished = true ↔ w.rem ≤ 0 := by
  simp [PowerWork.finished, Apu.cmp_le_zero]

/-- Euclid's loop has ended exactly when r1 = 0 (R161). -/
theorem EuclidWork.finished_iff (w : EuclidWork) : w.finished = true ↔ w.r1 = 0 := by
  simp [EuclidWork.finished, Apu.cmp_eq_zero]

/-- The verdict is known exactly in the verdict phase. -/
theorem MrWork.finished_iff (w : MrWork) : w.finished = true ↔ ∃ p, w.phase = .verdict p := by
  unfold MrWork.finished; split <;> simp_all

end Sys2Proof.Machine
end

