-- ==== Sys2Proof/Laws/Encoding.lean ====
section
/-! SUPPORT. A command word as the sum of its fields, and the fields read back. -/

namespace Sys2Proof

theorem toNat_append_add {n m : Nat} (x : BitVec n) (y : BitVec m) :
    (x ++ y).toNat = x.toNat * 2 ^ m + y.toNat := by
  rw [BitVec.toNat_append, ← Nat.shiftLeft_add_eq_or_of_lt y.isLt, Nat.shiftLeft_eq]

theorem encodeR5_toNat (op : BitVec 8) (fa fb fc fd fe : BitVec 4) :
    (encodeR5 op fa fb fc fd fe).toNat = op.toNat + 2 ^ 8 * fa.toNat + 2 ^ 12 * fb.toNat +
      2 ^ 16 * fc.toNat + 2 ^ 20 * fd.toNat + 2 ^ 24 * fe.toNat := by
  unfold encodeR5
  repeat rw [toNat_append_add]
  simp
  omega

theorem encodeRT_toNat (op : BitVec 8) (fa fb fc : BitVec 4) (t8 : BitVec 8) :
    (encodeRT op fa fb fc t8).toNat = op.toNat + 2 ^ 8 * fa.toNat + 2 ^ 12 * fb.toNat +
      2 ^ 16 * fc.toNat + 2 ^ 20 * t8.toNat := by
  unfold encodeRT
  repeat rw [toNat_append_add]
  simp
  omega

theorem RegId.field_toNat (r : RegId) : (RegId.field r).toNat = r.val := by
  simp [RegId.field]; omega

/-- A field of a word of format R5. -/
theorem get_encodeR5 (op : BitVec 8) (fa fb fc fd fe : BitVec 4) :
    Field.op.get (encodeR5 op fa fb fc fd fe) = op.toNat ∧
    Field.fa.get (encodeR5 op fa fb fc fd fe) = fa.toNat ∧
    Field.fb.get (encodeR5 op fa fb fc fd fe) = fb.toNat ∧
    Field.fc.get (encodeR5 op fa fb fc fd fe) = fc.toNat ∧
    Field.fd.get (encodeR5 op fa fb fc fd fe) = fd.toNat ∧
    Field.fe.get (encodeR5 op fa fb fc fd fe) = fe.toNat ∧
    Field.res.get (encodeR5 op fa fb fc fd fe) = 0 := by
  have := op.isLt; have := fa.isLt; have := fb.isLt; have := fc.isLt; have := fd.isLt
  have := fe.isLt
  simp only [Field.get, Field.lo, Field.width, encodeR5_toNat]
  omega

/-- A field of a word of format RT. -/
theorem get_encodeRT (op : BitVec 8) (fa fb fc : BitVec 4) (t8 : BitVec 8) :
    Field.op.get (encodeRT op fa fb fc t8) = op.toNat ∧
    Field.fa.get (encodeRT op fa fb fc t8) = fa.toNat ∧
    Field.fb.get (encodeRT op fa fb fc t8) = fb.toNat ∧
    Field.fc.get (encodeRT op fa fb fc t8) = fc.toNat ∧
    Field.t8.get (encodeRT op fa fb fc t8) = t8.toNat ∧
    Field.res.get (encodeRT op fa fb fc t8) = 0 := by
  have := op.isLt; have := fa.isLt; have := fb.isLt; have := fc.isLt; have := t8.isLt
  simp only [Field.get, Field.lo, Field.width, encodeRT_toNat]
  omega

/-- A word is the sum of its fields. -/
theorem toNat_eq_fields (w : Word) :
    w.toNat = Field.op.get w + 2 ^ 8 * Field.fa.get w + 2 ^ 12 * Field.fb.get w +
      2 ^ 16 * Field.fc.get w + 2 ^ 20 * Field.fd.get w + 2 ^ 24 * Field.fe.get w +
      2 ^ 28 * Field.res.get w ∧
    Field.t8.get w = Field.fd.get w + 2 ^ 4 * Field.fe.get w := by
  have := w.isLt
  simp only [Field.get, Field.lo, Field.width]
  omega

/-- A field below 8 is the number of the register it selects. -/
theorem Field.reg_val (f : Field) (w : Word) (h : f.get w < 8) : (f.reg w).val = f.get w := by
  simp [Field.reg, Fin.ofNat, Nat.mod_eq_of_lt h]

/-- The assigned opcodes (R116). -/
theorem opcodeOf_eq_some (n : Nat) (op : Opcode) :
    opcodeOf n = some op ↔ n = 1 ∧ op = .modexp ∨ n = 2 ∧ op = .extgcd ∨ n = 3 ∧ op = .modinv ∨
      n = 4 ∧ op = .mrtest ∨ n = 5 ∧ op = .mrround := by
  unfold opcodeOf
  repeat' split
  all_goals (simp_all; try tauto)

/-- What a legal word satisfies (R120). -/
theorem decode_eq_ok (w : Word) (i : Instr) :
    decode w = .ok i ↔ ∃ op, opcodeOf (Field.op.get w) = some op ∧
      (∀ f ∈ op.zeroFields, f.get w = 0) ∧ (∀ f ∈ op.regFields, f.get w < 8) ∧
      (op.build w).wf = true ∧ i = op.build w := by
  unfold decode
  cases h : opcodeOf (Field.op.get w) with
  | none => simp
  | some op =>
    simp only
    split
    · simp_all
    · split
      · rename_i h1 h2
        simp only [List.any_eq_true, decide_eq_true_eq] at h2
        obtain ⟨f, hf, h8⟩ := h2
        simp only [reduceCtorEq, Option.some.injEq, false_iff, not_exists, not_and]
        rintro op' rfl _ h3
        have := h3 f hf
        omega
      · split
        · simp_all
          tauto
        · simp_all

end Sys2Proof
end

