-- ==== Sys2Proof/Laws/State.lean ====
section
/-! SUPPORT. What each update of State leaves in each field. -/

namespace Sys2Proof.Machine

/-! ### refuseAccess -/

@[simp] theorem State.refuseAccess_regs (s : State) :
    s.refuseAccess.regs = s.regs := rfl

@[simp] theorem State.refuseAccess_seq (s : State) :
    s.refuseAccess.seq = s.seq := rfl

@[simp] theorem State.refuseAccess_ie (s : State) :
    s.refuseAccess.ie = s.ie := rfl

@[simp] theorem State.refuseAccess_done (s : State) :
    s.refuseAccess.done = s.done := rfl

@[simp] theorem State.refuseAccess_accerr (s : State) :
    s.refuseAccess.accerr = true := rfl

@[simp] theorem State.refuseAccess_cmdovr (s : State) :
    s.refuseAccess.cmdovr = s.cmdovr := rfl

@[simp] theorem State.refuseAccess_err (s : State) :
    s.refuseAccess.err = s.err := rfl

@[simp] theorem State.refuseAccess_errinfo (s : State) :
    s.refuseAccess.errinfo = s.errinfo := rfl

@[simp] theorem State.refuseAccess_lastcmd (s : State) :
    s.refuseAccess.lastcmd = s.lastcmd := rfl

@[simp] theorem State.refuseAccess_rst (s : State) :
    s.refuseAccess.rst = s.rst := rfl

@[simp] theorem State.refuseAccess_params (s : State) :
    s.refuseAccess.params = s.params := rfl

@[simp] theorem State.refuseAccess_rdata (s : State) :
    s.refuseAccess.rdata = s.rdata := rfl

@[simp] theorem State.refuseAccess_effort (s : State) :
    s.refuseAccess.effort = s.effort := rfl

@[simp] theorem State.refuseAccess_answers (s : State) :
    s.refuseAccess.answers = s.answers := rfl

@[simp] theorem State.refuseAccess_schedule (s : State) :
    s.refuseAccess.schedule = s.schedule := rfl

/-! ### refuseCommand -/

@[simp] theorem State.refuseCommand_regs (s : State) :
    s.refuseCommand.regs = s.regs := rfl

@[simp] theorem State.refuseCommand_seq (s : State) :
    s.refuseCommand.seq = s.seq := rfl

@[simp] theorem State.refuseCommand_ie (s : State) :
    s.refuseCommand.ie = s.ie := rfl

@[simp] theorem State.refuseCommand_done (s : State) :
    s.refuseCommand.done = s.done := rfl

@[simp] theorem State.refuseCommand_accerr (s : State) :
    s.refuseCommand.accerr = s.accerr := rfl

@[simp] theorem State.refuseCommand_cmdovr (s : State) :
    s.refuseCommand.cmdovr = true := rfl

@[simp] theorem State.refuseCommand_err (s : State) :
    s.refuseCommand.err = s.err := rfl

@[simp] theorem State.refuseCommand_errinfo (s : State) :
    s.refuseCommand.errinfo = s.errinfo := rfl

@[simp] theorem State.refuseCommand_lastcmd (s : State) :
    s.refuseCommand.lastcmd = s.lastcmd := rfl

@[simp] theorem State.refuseCommand_rst (s : State) :
    s.refuseCommand.rst = s.rst := rfl

@[simp] theorem State.refuseCommand_params (s : State) :
    s.refuseCommand.params = s.params := rfl

@[simp] theorem State.refuseCommand_rdata (s : State) :
    s.refuseCommand.rdata = s.rdata := rfl

@[simp] theorem State.refuseCommand_effort (s : State) :
    s.refuseCommand.effort = s.effort := rfl

@[simp] theorem State.refuseCommand_answers (s : State) :
    s.refuseCommand.answers = s.answers := rfl

@[simp] theorem State.refuseCommand_schedule (s : State) :
    s.refuseCommand.schedule = s.schedule := rfl

/-! ### beginCommand -/

@[simp] theorem State.beginCommand_regs (s : State) (w : Word) :
    (s.beginCommand w).regs = s.regs := rfl

@[simp] theorem State.beginCommand_seq (s : State) (w : Word) :
    (s.beginCommand w).seq = s.seq := rfl

@[simp] theorem State.beginCommand_ie (s : State) (w : Word) :
    (s.beginCommand w).ie = s.ie := rfl

@[simp] theorem State.beginCommand_done (s : State) (w : Word) :
    (s.beginCommand w).done = false := rfl

@[simp] theorem State.beginCommand_accerr (s : State) (w : Word) :
    (s.beginCommand w).accerr = s.accerr := rfl

@[simp] theorem State.beginCommand_cmdovr (s : State) (w : Word) :
    (s.beginCommand w).cmdovr = s.cmdovr := rfl

@[simp] theorem State.beginCommand_err (s : State) (w : Word) :
    (s.beginCommand w).err = .none := rfl

@[simp] theorem State.beginCommand_errinfo (s : State) (w : Word) :
    (s.beginCommand w).errinfo = 0 := rfl

@[simp] theorem State.beginCommand_lastcmd (s : State) (w : Word) :
    (s.beginCommand w).lastcmd = w := rfl

@[simp] theorem State.beginCommand_rst (s : State) (w : Word) :
    (s.beginCommand w).rst = s.rst := rfl

@[simp] theorem State.beginCommand_params (s : State) (w : Word) :
    (s.beginCommand w).params = s.params := rfl

@[simp] theorem State.beginCommand_rdata (s : State) (w : Word) :
    (s.beginCommand w).rdata = s.rdata := rfl

@[simp] theorem State.beginCommand_effort (s : State) (w : Word) :
    (s.beginCommand w).effort = s.effort := rfl

@[simp] theorem State.beginCommand_answers (s : State) (w : Word) :
    (s.beginCommand w).answers = s.answers := rfl

@[simp] theorem State.beginCommand_schedule (s : State) (w : Word) :
    (s.beginCommand w).schedule = s.schedule := rfl

/-! ### latch -/

@[simp] theorem State.latch_regs (s : State) (cmd : Instr) (work : Work) :
    (s.latch cmd work).regs = s.regs := rfl

@[simp] theorem State.latch_seq (s : State) (cmd : Instr) (work : Work) :
    (s.latch cmd work).seq = .busy ⟨cmd, work, false⟩ := rfl

@[simp] theorem State.latch_ie (s : State) (cmd : Instr) (work : Work) :
    (s.latch cmd work).ie = s.ie := rfl

@[simp] theorem State.latch_done (s : State) (cmd : Instr) (work : Work) :
    (s.latch cmd work).done = s.done := rfl

@[simp] theorem State.latch_accerr (s : State) (cmd : Instr) (work : Work) :
    (s.latch cmd work).accerr = s.accerr := rfl

@[simp] theorem State.latch_cmdovr (s : State) (cmd : Instr) (work : Work) :
    (s.latch cmd work).cmdovr = s.cmdovr := rfl

@[simp] theorem State.latch_err (s : State) (cmd : Instr) (work : Work) :
    (s.latch cmd work).err = s.err := rfl

@[simp] theorem State.latch_errinfo (s : State) (cmd : Instr) (work : Work) :
    (s.latch cmd work).errinfo = s.errinfo := rfl

@[simp] theorem State.latch_lastcmd (s : State) (cmd : Instr) (work : Work) :
    (s.latch cmd work).lastcmd = s.lastcmd := rfl

@[simp] theorem State.latch_rst (s : State) (cmd : Instr) (work : Work) :
    (s.latch cmd work).rst = s.rst := rfl

@[simp] theorem State.latch_params (s : State) (cmd : Instr) (work : Work) :
    (s.latch cmd work).params = s.params := rfl

@[simp] theorem State.latch_rdata (s : State) (cmd : Instr) (work : Work) :
    (s.latch cmd work).rdata = s.rdata := rfl

@[simp] theorem State.latch_effort (s : State) (cmd : Instr) (work : Work) :
    (s.latch cmd work).effort = s.effort := rfl

@[simp] theorem State.latch_answers (s : State) (cmd : Instr) (work : Work) :
    (s.latch cmd work).answers = s.answers := rfl

@[simp] theorem State.latch_schedule (s : State) (cmd : Instr) (work : Work) :
    (s.latch cmd work).schedule = s.schedule := rfl

/-! ### acknowledge -/

@[simp] theorem State.acknowledge_regs (s : State) :
    s.acknowledge.regs = s.regs := rfl

@[simp] theorem State.acknowledge_seq (s : State) :
    s.acknowledge.seq = s.seq := rfl

@[simp] theorem State.acknowledge_ie (s : State) :
    s.acknowledge.ie = s.ie := rfl

@[simp] theorem State.acknowledge_done (s : State) :
    s.acknowledge.done = false := rfl

@[simp] theorem State.acknowledge_accerr (s : State) :
    s.acknowledge.accerr = s.accerr := rfl

@[simp] theorem State.acknowledge_cmdovr (s : State) :
    s.acknowledge.cmdovr = s.cmdovr := rfl

@[simp] theorem State.acknowledge_err (s : State) :
    s.acknowledge.err = s.err := rfl

@[simp] theorem State.acknowledge_errinfo (s : State) :
    s.acknowledge.errinfo = s.errinfo := rfl

@[simp] theorem State.acknowledge_lastcmd (s : State) :
    s.acknowledge.lastcmd = s.lastcmd := rfl

@[simp] theorem State.acknowledge_rst (s : State) :
    s.acknowledge.rst = s.rst := rfl

@[simp] theorem State.acknowledge_params (s : State) :
    s.acknowledge.params = s.params := rfl

@[simp] theorem State.acknowledge_rdata (s : State) :
    s.acknowledge.rdata = s.rdata := rfl

@[simp] theorem State.acknowledge_effort (s : State) :
    s.acknowledge.effort = s.effort := rfl

@[simp] theorem State.acknowledge_answers (s : State) :
    s.acknowledge.answers = s.answers := rfl

@[simp] theorem State.acknowledge_schedule (s : State) :
    s.acknowledge.schedule = s.schedule := rfl

/-! ### setX -/

@[simp] theorem State.setX_regs (s : State) (r : RegId) (v : Int) :
    (s.setX r v).regs = s.regs.set r (natToWords s.params.wpr (patternOfInt s.params.rw v)) := rfl

@[simp] theorem State.setX_seq (s : State) (r : RegId) (v : Int) :
    (s.setX r v).seq = s.seq := rfl

@[simp] theorem State.setX_ie (s : State) (r : RegId) (v : Int) :
    (s.setX r v).ie = s.ie := rfl

@[simp] theorem State.setX_done (s : State) (r : RegId) (v : Int) :
    (s.setX r v).done = s.done := rfl

@[simp] theorem State.setX_accerr (s : State) (r : RegId) (v : Int) :
    (s.setX r v).accerr = s.accerr := rfl

@[simp] theorem State.setX_cmdovr (s : State) (r : RegId) (v : Int) :
    (s.setX r v).cmdovr = s.cmdovr := rfl

@[simp] theorem State.setX_err (s : State) (r : RegId) (v : Int) :
    (s.setX r v).err = s.err := rfl

@[simp] theorem State.setX_errinfo (s : State) (r : RegId) (v : Int) :
    (s.setX r v).errinfo = s.errinfo := rfl

@[simp] theorem State.setX_lastcmd (s : State) (r : RegId) (v : Int) :
    (s.setX r v).lastcmd = s.lastcmd := rfl

@[simp] theorem State.setX_rst (s : State) (r : RegId) (v : Int) :
    (s.setX r v).rst = s.rst := rfl

@[simp] theorem State.setX_params (s : State) (r : RegId) (v : Int) :
    (s.setX r v).params = s.params := rfl

@[simp] theorem State.setX_rdata (s : State) (r : RegId) (v : Int) :
    (s.setX r v).rdata = s.rdata := rfl

@[simp] theorem State.setX_effort (s : State) (r : RegId) (v : Int) :
    (s.setX r v).effort = s.effort := rfl

@[simp] theorem State.setX_answers (s : State) (r : RegId) (v : Int) :
    (s.setX r v).answers = s.answers := rfl

@[simp] theorem State.setX_schedule (s : State) (r : RegId) (v : Int) :
    (s.setX r v).schedule = s.schedule := rfl

/-! ### setRegWord -/

@[simp] theorem State.setRegWord_regs (s : State) (r : RegId) (w : Nat) (v : Word) :
    (s.setRegWord r w v).regs = s.regs.set r (s.regs[r].set w v) := rfl

@[simp] theorem State.setRegWord_seq (s : State) (r : RegId) (w : Nat) (v : Word) :
    (s.setRegWord r w v).seq = s.seq := rfl

@[simp] theorem State.setRegWord_ie (s : State) (r : RegId) (w : Nat) (v : Word) :
    (s.setRegWord r w v).ie = s.ie := rfl

@[simp] theorem State.setRegWord_done (s : State) (r : RegId) (w : Nat) (v : Word) :
    (s.setRegWord r w v).done = s.done := rfl

@[simp] theorem State.setRegWord_accerr (s : State) (r : RegId) (w : Nat) (v : Word) :
    (s.setRegWord r w v).accerr = s.accerr := rfl

@[simp] theorem State.setRegWord_cmdovr (s : State) (r : RegId) (w : Nat) (v : Word) :
    (s.setRegWord r w v).cmdovr = s.cmdovr := rfl

@[simp] theorem State.setRegWord_err (s : State) (r : RegId) (w : Nat) (v : Word) :
    (s.setRegWord r w v).err = s.err := rfl

@[simp] theorem State.setRegWord_errinfo (s : State) (r : RegId) (w : Nat) (v : Word) :
    (s.setRegWord r w v).errinfo = s.errinfo := rfl

@[simp] theorem State.setRegWord_lastcmd (s : State) (r : RegId) (w : Nat) (v : Word) :
    (s.setRegWord r w v).lastcmd = s.lastcmd := rfl

@[simp] theorem State.setRegWord_rst (s : State) (r : RegId) (w : Nat) (v : Word) :
    (s.setRegWord r w v).rst = s.rst := rfl

@[simp] theorem State.setRegWord_params (s : State) (r : RegId) (w : Nat) (v : Word) :
    (s.setRegWord r w v).params = s.params := rfl

@[simp] theorem State.setRegWord_rdata (s : State) (r : RegId) (w : Nat) (v : Word) :
    (s.setRegWord r w v).rdata = s.rdata := rfl

@[simp] theorem State.setRegWord_effort (s : State) (r : RegId) (w : Nat) (v : Word) :
    (s.setRegWord r w v).effort = s.effort := rfl

@[simp] theorem State.setRegWord_answers (s : State) (r : RegId) (w : Nat) (v : Word) :
    (s.setRegWord r w v).answers = s.answers := rfl

@[simp] theorem State.setRegWord_schedule (s : State) (r : RegId) (w : Nat) (v : Word) :
    (s.setRegWord r w v).schedule = s.schedule := rfl

/-! ### writeStatus -/

@[simp] theorem State.writeStatus_regs (s : State) (v : Word) :
    (s.writeStatus v).regs = s.regs := rfl

@[simp] theorem State.writeStatus_seq (s : State) (v : Word) :
    (s.writeStatus v).seq = s.seq := rfl

@[simp] theorem State.writeStatus_ie (s : State) (v : Word) :
    (s.writeStatus v).ie = s.ie := rfl

@[simp] theorem State.writeStatus_done (s : State) (v : Word) :
    (s.writeStatus v).done = (s.done && !v.getLsbD 1) := rfl

@[simp] theorem State.writeStatus_accerr (s : State) (v : Word) :
    (s.writeStatus v).accerr = (s.accerr && !v.getLsbD 2) := rfl

@[simp] theorem State.writeStatus_cmdovr (s : State) (v : Word) :
    (s.writeStatus v).cmdovr = (s.cmdovr && !v.getLsbD 3) := rfl

@[simp] theorem State.writeStatus_err (s : State) (v : Word) :
    (s.writeStatus v).err = s.err := rfl

@[simp] theorem State.writeStatus_errinfo (s : State) (v : Word) :
    (s.writeStatus v).errinfo = s.errinfo := rfl

@[simp] theorem State.writeStatus_lastcmd (s : State) (v : Word) :
    (s.writeStatus v).lastcmd = s.lastcmd := rfl

@[simp] theorem State.writeStatus_rst (s : State) (v : Word) :
    (s.writeStatus v).rst = s.rst := rfl

@[simp] theorem State.writeStatus_params (s : State) (v : Word) :
    (s.writeStatus v).params = s.params := rfl

@[simp] theorem State.writeStatus_rdata (s : State) (v : Word) :
    (s.writeStatus v).rdata = s.rdata := rfl

@[simp] theorem State.writeStatus_effort (s : State) (v : Word) :
    (s.writeStatus v).effort = s.effort := rfl

@[simp] theorem State.writeStatus_answers (s : State) (v : Word) :
    (s.writeStatus v).answers = s.answers := rfl

@[simp] theorem State.writeStatus_schedule (s : State) (v : Word) :
    (s.writeStatus v).schedule = s.schedule := rfl

/-! ### popped -/

@[simp] theorem State.popped_regs (s : State) :
    s.popped.regs = s.regs := rfl

@[simp] theorem State.popped_seq (s : State) :
    s.popped.seq = s.seq := rfl

@[simp] theorem State.popped_ie (s : State) :
    s.popped.ie = s.ie := rfl

@[simp] theorem State.popped_done (s : State) :
    s.popped.done = s.done := rfl

@[simp] theorem State.popped_accerr (s : State) :
    s.popped.accerr = s.accerr := rfl

@[simp] theorem State.popped_cmdovr (s : State) :
    s.popped.cmdovr = s.cmdovr := rfl

@[simp] theorem State.popped_err (s : State) :
    s.popped.err = s.err := rfl

@[simp] theorem State.popped_errinfo (s : State) :
    s.popped.errinfo = s.errinfo := rfl

@[simp] theorem State.popped_lastcmd (s : State) :
    s.popped.lastcmd = s.lastcmd := rfl

@[simp] theorem State.popped_rst (s : State) :
    s.popped.rst = s.rst := rfl

@[simp] theorem State.popped_params (s : State) :
    s.popped.params = s.params := rfl

@[simp] theorem State.popped_rdata (s : State) :
    s.popped.rdata = none := rfl

@[simp] theorem State.popped_effort (s : State) :
    s.popped.effort = s.effort := rfl

@[simp] theorem State.popped_answers (s : State) :
    s.popped.answers = s.answers := rfl

@[simp] theorem State.popped_schedule (s : State) :
    s.popped.schedule = s.schedule.tail := rfl

/-! ### reinit -/

@[simp] theorem State.reinit_regs (s : State) :
    s.reinit.regs = Vector.replicate 8 (List.replicate s.params.wpr 0) := rfl

@[simp] theorem State.reinit_seq (s : State) :
    s.reinit.seq = .idle := rfl

@[simp] theorem State.reinit_ie (s : State) :
    s.reinit.ie = false := rfl

@[simp] theorem State.reinit_done (s : State) :
    s.reinit.done = false := rfl

@[simp] theorem State.reinit_accerr (s : State) :
    s.reinit.accerr = false := rfl

@[simp] theorem State.reinit_cmdovr (s : State) :
    s.reinit.cmdovr = false := rfl

@[simp] theorem State.reinit_err (s : State) :
    s.reinit.err = .none := rfl

@[simp] theorem State.reinit_errinfo (s : State) :
    s.reinit.errinfo = 0 := rfl

@[simp] theorem State.reinit_lastcmd (s : State) :
    s.reinit.lastcmd = 0 := rfl

@[simp] theorem State.reinit_rst (s : State) :
    s.reinit.rst = s.rst := rfl

@[simp] theorem State.reinit_params (s : State) :
    s.reinit.params = s.params := rfl

@[simp] theorem State.reinit_rdata (s : State) :
    s.reinit.rdata = none := rfl

@[simp] theorem State.reinit_effort (s : State) :
    s.reinit.effort = s.effort := rfl

@[simp] theorem State.reinit_answers (s : State) :
    s.reinit.answers = s.answers := rfl

@[simp] theorem State.reinit_schedule (s : State) :
    s.reinit.schedule = s.schedule := rfl

/-! ### writeDests -/

@[simp] theorem State.writeDests_seq (s : State) (l : List (RegId × Int)) :
    (s.writeDests l).seq = s.seq := by
  induction l generalizing s with
  | nil => rfl
  | cons rv rest ih => exact (ih _).trans rfl

@[simp] theorem State.writeDests_ie (s : State) (l : List (RegId × Int)) :
    (s.writeDests l).ie = s.ie := by
  induction l generalizing s with
  | nil => rfl
  | cons rv rest ih => exact (ih _).trans rfl

@[simp] theorem State.writeDests_done (s : State) (l : List (RegId × Int)) :
    (s.writeDests l).done = s.done := by
  induction l generalizing s with
  | nil => rfl
  | cons rv rest ih => exact (ih _).trans rfl

@[simp] theorem State.writeDests_accerr (s : State) (l : List (RegId × Int)) :
    (s.writeDests l).accerr = s.accerr := by
  induction l generalizing s with
  | nil => rfl
  | cons rv rest ih => exact (ih _).trans rfl

@[simp] theorem State.writeDests_cmdovr (s : State) (l : List (RegId × Int)) :
    (s.writeDests l).cmdovr = s.cmdovr := by
  induction l generalizing s with
  | nil => rfl
  | cons rv rest ih => exact (ih _).trans rfl

@[simp] theorem State.writeDests_err (s : State) (l : List (RegId × Int)) :
    (s.writeDests l).err = s.err := by
  induction l generalizing s with
  | nil => rfl
  | cons rv rest ih => exact (ih _).trans rfl

@[simp] theorem State.writeDests_errinfo (s : State) (l : List (RegId × Int)) :
    (s.writeDests l).errinfo = s.errinfo := by
  induction l generalizing s with
  | nil => rfl
  | cons rv rest ih => exact (ih _).trans rfl

@[simp] theorem State.writeDests_lastcmd (s : State) (l : List (RegId × Int)) :
    (s.writeDests l).lastcmd = s.lastcmd := by
  induction l generalizing s with
  | nil => rfl
  | cons rv rest ih => exact (ih _).trans rfl

@[simp] theorem State.writeDests_rst (s : State) (l : List (RegId × Int)) :
    (s.writeDests l).rst = s.rst := by
  induction l generalizing s with
  | nil => rfl
  | cons rv rest ih => exact (ih _).trans rfl

@[simp] theorem State.writeDests_params (s : State) (l : List (RegId × Int)) :
    (s.writeDests l).params = s.params := by
  induction l generalizing s with
  | nil => rfl
  | cons rv rest ih => exact (ih _).trans rfl

@[simp] theorem State.writeDests_rdata (s : State) (l : List (RegId × Int)) :
    (s.writeDests l).rdata = s.rdata := by
  induction l generalizing s with
  | nil => rfl
  | cons rv rest ih => exact (ih _).trans rfl

@[simp] theorem State.writeDests_effort (s : State) (l : List (RegId × Int)) :
    (s.writeDests l).effort = s.effort := by
  induction l generalizing s with
  | nil => rfl
  | cons rv rest ih => exact (ih _).trans rfl

@[simp] theorem State.writeDests_answers (s : State) (l : List (RegId × Int)) :
    (s.writeDests l).answers = s.answers := by
  induction l generalizing s with
  | nil => rfl
  | cons rv rest ih => exact (ih _).trans rfl

@[simp] theorem State.writeDests_schedule (s : State) (l : List (RegId × Int)) :
    (s.writeDests l).schedule = s.schedule := by
  induction l generalizing s with
  | nil => rfl
  | cons rv rest ih => exact (ih _).trans rfl

/-! ### complete -/

@[simp] theorem State.complete_regs (s : State) (code : ErrCode) (slot : BitVec 3) (sub : BitVec 4)
    (l : List (RegId × Int)) :
    (s.complete code slot sub l).regs = if code = .none then (s.writeDests l).regs else s.regs := by
  unfold State.complete; split <;> rfl

@[simp] theorem State.complete_seq (s : State) (code : ErrCode) (slot : BitVec 3) (sub : BitVec 4)
    (l : List (RegId × Int)) :
    (s.complete code slot sub l).seq = .idle := rfl

@[simp] theorem State.complete_ie (s : State) (code : ErrCode) (slot : BitVec 3) (sub : BitVec 4)
    (l : List (RegId × Int)) :
    (s.complete code slot sub l).ie = s.ie := by
  unfold State.complete; split <;> simp

@[simp] theorem State.complete_done (s : State) (code : ErrCode) (slot : BitVec 3) (sub : BitVec 4)
    (l : List (RegId × Int)) :
    (s.complete code slot sub l).done = true := rfl

@[simp] theorem State.complete_accerr (s : State) (code : ErrCode) (slot : BitVec 3) (sub : BitVec 4)
    (l : List (RegId × Int)) :
    (s.complete code slot sub l).accerr = s.accerr := by
  unfold State.complete; split <;> simp

@[simp] theorem State.complete_cmdovr (s : State) (code : ErrCode) (slot : BitVec 3) (sub : BitVec 4)
    (l : List (RegId × Int)) :
    (s.complete code slot sub l).cmdovr = s.cmdovr := by
  unfold State.complete; split <;> simp

@[simp] theorem State.complete_err (s : State) (code : ErrCode) (slot : BitVec 3) (sub : BitVec 4)
    (l : List (RegId × Int)) :
    (s.complete code slot sub l).err = code := rfl

@[simp] theorem State.complete_errinfo (s : State) (code : ErrCode) (slot : BitVec 3) (sub : BitVec 4)
    (l : List (RegId × Int)) :
    (s.complete code slot sub l).errinfo = errinfoWord slot sub := rfl

@[simp] theorem State.complete_lastcmd (s : State) (code : ErrCode) (slot : BitVec 3) (sub : BitVec 4)
    (l : List (RegId × Int)) :
    (s.complete code slot sub l).lastcmd = s.lastcmd := by
  unfold State.complete; split <;> simp

@[simp] theorem State.complete_rst (s : State) (code : ErrCode) (slot : BitVec 3) (sub : BitVec 4)
    (l : List (RegId × Int)) :
    (s.complete code slot sub l).rst = s.rst := by
  unfold State.complete; split <;> simp

@[simp] theorem State.complete_params (s : State) (code : ErrCode) (slot : BitVec 3) (sub : BitVec 4)
    (l : List (RegId × Int)) :
    (s.complete code slot sub l).params = s.params := by
  unfold State.complete; split <;> simp

@[simp] theorem State.complete_rdata (s : State) (code : ErrCode) (slot : BitVec 3) (sub : BitVec 4)
    (l : List (RegId × Int)) :
    (s.complete code slot sub l).rdata = s.rdata := by
  unfold State.complete; split <;> simp

@[simp] theorem State.complete_effort (s : State) (code : ErrCode) (slot : BitVec 3) (sub : BitVec 4)
    (l : List (RegId × Int)) :
    (s.complete code slot sub l).effort = s.effort := by
  unfold State.complete; split <;> simp

@[simp] theorem State.complete_answers (s : State) (code : ErrCode) (slot : BitVec 3) (sub : BitVec 4)
    (l : List (RegId × Int)) :
    (s.complete code slot sub l).answers = s.answers := by
  unfold State.complete; split <;> simp

@[simp] theorem State.complete_schedule (s : State) (code : ErrCode) (slot : BitVec 3) (sub : BitVec 4)
    (l : List (RegId × Int)) :
    (s.complete code slot sub l).schedule = s.schedule := by
  unfold State.complete; split <;> simp

end Sys2Proof.Machine
end

