-- ==== Sys2Proof/Laws/Ops.lean ====
section
/-! SUPPORT. What each shared operation can do, once each, and that every command has a next state. -/

namespace Sys2Proof.Machine

/-- An accept step either completes with INVALID_ARGUMENT or latches the command. -/
theorem State.accept_cases (s : State) (failing : Option (BitVec 3)) (cmd : Instr) (work : Work) :
    (∃ slot, failing = some slot ∧ s.accept failing cmd work = s.raiseInvalid slot) ∨
    (failing = none ∧ s.accept failing cmd work = s.latch cmd work) := by
  cases failing with
  | none => exact .inr ⟨rfl, rfl⟩
  | some slot => exact .inl ⟨slot, rfl, rfl⟩

/-- An engine step either commits a finished job or is a compute step. -/
theorem State.engineStep_cases (s : State) (job : Job) (commit : Work → State) :
    (job.stepped = true ∧ job.work.finished = true ∧ 0 < s.effort ∧
      s.engineStep job commit = commit job.work) ∨
    (¬(job.stepped = true ∧ job.work.finished = true ∧ 0 < s.effort) ∧
      s.engineStep job commit =
        { s with seq := .busy { job with work := job.work.run s.effort s.answers, stepped := true } }) := by
  unfold State.engineStep
  split
  · rename_i h; exact .inl ⟨h.1, h.2.1, h.2.2, rfl⟩
  · rename_i h; exact .inr ⟨h, rfl⟩

/-- A command's step is its accept step, its engine step, or refused. -/
theorem State.runCommand_cases (s : State) (cmd : Instr) (accept : State)
    (commit : Work → State) :
    (s.seq = .idle ∧ s.runCommand cmd accept commit = accept) ∨
    (∃ job, s.seq = .busy job ∧ job.cmd = cmd ∧
      s.runCommand cmd accept commit = s.engineStep job commit) ∨
    (∃ job, s.seq = .busy job ∧ job.cmd ≠ cmd ∧
      s.runCommand cmd accept commit = s.refuseCommand) := by
  unfold State.runCommand
  cases hs : s.seq with
  | idle => exact .inl ⟨rfl, rfl⟩
  | busy job =>
    by_cases hc : job.cmd = cmd
    · exact .inr (.inl ⟨job, rfl, hc, by simp [hc]⟩)
    · exact .inr (.inr ⟨job, rfl, hc, by simp [hc]⟩)

/-- Every command has a next state, whatever the state and the operands. -/
theorem exec_next (i : Instr) (s : State) : ∃ t, exec i s = .next t := by
  cases i <;> exact ⟨_, rfl⟩

/-- A commit leaves the mode, the sticky flags, LASTCMD and the model's own fields alone (R56). -/
theorem State.commit_frame (s : State) (l : List (RegId × Int)) :
    (s.commit l).ie = s.ie ∧ (s.commit l).accerr = s.accerr ∧ (s.commit l).cmdovr = s.cmdovr ∧
    (s.commit l).lastcmd = s.lastcmd ∧ (s.commit l).rst = s.rst ∧
    (s.commit l).params = s.params ∧ (s.commit l).schedule = s.schedule := by
  simp [State.commit]

/-- An answer changes the working state only while it awaits one, and then begins the round (R194). -/
theorem Work.receive_cases (a : Int) (work : Work) :
    (∃ w, work = .primality w ∧ w.phase = .awaiting ∧ 2 ≤ a ∧ a ≤ w.n - 1 ∧
      work.receive a = .primality (w.beginRound a)) ∨
    work.receive a = work := by
  cases work with
  | primality w =>
    by_cases h : w.phase = .awaiting ∧ 2 ≤ a ∧ a ≤ w.n - 1
    · exact .inl ⟨w, rfl, h.1, h.2.1, h.2.2, by simp only [Work.receive, MrWork.receive, if_pos h]⟩
    · exact .inr (by simp only [Work.receive, MrWork.receive, if_neg h])
  | _ => exact .inr rfl

/-- A witness either begins the round that awaits it or changes nothing (R194). -/
theorem State.answerWitness_cases (s : State) (a : Int) :
    (∃ cmd w stepped, s.seq = .busy ⟨cmd, .primality w, stepped⟩ ∧ w.phase = .awaiting ∧
      2 ≤ a ∧ a ≤ w.n - 1 ∧
      s.answerWitness a = { s with seq := .busy ⟨cmd, .primality (w.beginRound a), stepped⟩ }) ∨
    s.answerWitness a = s := by
  unfold State.answerWitness
  split
  · exact .inr rfl
  · rename_i job hs
    rcases Work.receive_cases a job.work with ⟨w, hw, h1, h2, h3, h4⟩ | h
    · obtain ⟨cmd, work, stepped⟩ := job
      simp only at hw h4
      subst hw
      exact .inl ⟨cmd, w, stepped, hs, h1, h2, h3, by simp only [h4]⟩
    · exact .inr (by rw [h, ← hs])

/-- What is kept by a pass and by an answer is kept by a run of them, so by a compute step (R52). -/
theorem Work.run_induction {p : Work → Prop} (hi : ∀ w, p w → p w.iterate)
    (hr : ∀ w a, w.awaits = true → p w → p (w.receive a)) (n : Nat) (answers : List Int) (w : Work)
    (h : p w) : p (w.run n answers) := by
  induction n generalizing answers w with
  | zero => exact h
  | succ n ih =>
    cases answers with
    | nil => exact ih [] _ (hi w h)
    | cons a rest =>
      simp only [Work.run]
      split
      · exact ih rest _ (hr w a ‹_› h)
      · exact ih (a :: rest) _ (hi w h)

end Sys2Proof.Machine
end

