-- ==== Sys2Proof/Laws/Step.lean ====
section
/-! SUPPORT. What a step can do, once: the inversion lemmas of the host's turn and of a step. -/

namespace Sys2Proof.Machine

@[simp] theorem Outcome_next_inj (s t : State) :
    ((Host.Outcome.next s : Host.Outcome State Fault Refusal) = .next t) ↔ s = t := by
  constructor
  · intro h; injection h
  · rintro rfl; rfl

/-- What a write within the aperture can do (R85). -/
theorem memWrite_cases (off : Nat) (v : Word) (strb : BitVec 4) (s t : State)
    (h : memWrite off v strb s = .next t) :
    ((strb ≠ 0xF ∨ region s.params off = .misaligned ∨ region s.params off = .reserved ∨
        region s.params off = .id ∨ region s.params off = .cfg ∨ region s.params off = .errinfo) ∧
      t = s.refuseAccess) ∨
    (strb = 0xF ∧ region s.params off = .ctrl ∧ t = s.writeCtrl v) ∨
    (strb = 0xF ∧ region s.params off = .status ∧ t = s.writeStatus v) ∨
    (strb = 0xF ∧ region s.params off = .cmd ∧ writeCmd v s = .next t) ∨
    (∃ r w, strb = 0xF ∧ region s.params off = .window r w ∧ t = s.writeWindow r w v) := by
  unfold memWrite at h
  split at h
  · rename_i hs
    exact .inl ⟨.inl hs, by simpa using h.symm⟩
  · rename_i hs
    have hs : strb = 0xF := by simpa using hs
    split at h <;> first
      | exact .inl ⟨.inr (by tauto), by simpa using h.symm⟩
      | exact .inr (.inl ⟨hs, by assumption, by simpa using h.symm⟩)
      | exact .inr (.inr (.inl ⟨hs, by assumption, by simpa using h.symm⟩))
      | exact .inr (.inr (.inr (.inl ⟨hs, by assumption, h⟩)))
      | exact .inr (.inr (.inr (.inr ⟨_, _, hs, by assumption, by simpa using h.symm⟩)))

/-- What a word written to CMD can do (R46, R50, R54). -/
theorem writeCmd_cases (w : Word) (s t : State) (h : writeCmd w s = .next t) :
    (s.busy = true ∧ t = s.refuseCommand) ∨
    (s.busy = false ∧ ∃ why, decode w = .error why ∧ t = (s.beginCommand w).raiseIllegal why) ∨
    (s.busy = false ∧ ∃ i, decode w = .ok i ∧ exec i (s.beginCommand w) = .next t) := by
  unfold writeCmd at h
  split at h
  · rename_i hb; exact .inl ⟨hb, by simpa using h.symm⟩
  · rename_i hb
    have hb : s.busy = false := by simpa using hb
    unfold acceptWord at h
    split at h
    · rename_i why hd; exact .inr (.inl ⟨hb, why, hd, by simpa using h.symm⟩)
    · rename_i i hd; exact .inr (.inr ⟨hb, i, hd, h⟩)

/-- A read within the aperture returns the region's word and at most sets ACCERR (R84). -/
theorem State.memRead_cases (s : State) (off : Nat) :
    ((region s.params off = .reserved ∨ region s.params off = .misaligned) ∧
      s.memRead off = (0, s.refuseAccess)) ∨
    ((region s.params off ≠ .reserved ∧ region s.params off ≠ .misaligned) ∧
      s.memRead off = (s.regionWord (region s.params off), s)) := by
  unfold State.memRead
  split
  · rename_i h; exact .inl ⟨.inl h, rfl⟩
  · rename_i h; exact .inl ⟨.inr h, rfl⟩
  · rename_i h1 h2; exact .inr ⟨⟨h1, h2⟩, rfl⟩

/-- Everything a step that answers next can have been: a reset (or a step held in reset), a host
read, a host write, an engine step, or a witness. -/
theorem step_cases (s t : State) (h : step s = .next t) :
    (∃ b, t = { s.popped.reinit with rst := b } ∧
      (s.rst = true ∨ ∃ rest, s.schedule = .rst true :: rest)) ∨
    (s.rst = false ∧ ∃ rest, s.schedule = .rst false :: rest ∧ t = s.popped) ∨
    (s.rst = false ∧ ∃ addr rest off, s.schedule = .read addr :: rest ∧
      offsetOf s.params addr = some off ∧
      t = { (s.popped.memRead off).2 with rdata := some (s.popped.memRead off).1 }) ∨
    (s.rst = false ∧ ∃ addr v strb rest off, s.schedule = .write addr v strb :: rest ∧
      offsetOf s.params addr = some off ∧ memWrite off v strb s.popped = .next t) ∨
    (s.rst = false ∧ ∃ n l, ((s.schedule = [] ∧ n = max 1 s.effort ∧ l = []) ∨
        ∃ rest, s.schedule = .engine n l :: rest) ∧
      engineTurn { s.popped with effort := n, answers := l } = .next t) ∨
    (s.rst = false ∧ ∃ a rest, s.schedule = .witness a :: rest ∧ t = s.popped.answerWitness a) := by
  unfold step at h
  cases hs : s.schedule with
  | nil =>
    rw [hs] at h
    by_cases hr : s.rst = true
    · refine .inl ⟨true, ?_, .inl hr⟩
      simp only [turnAlone, State.popped_rst, hr, if_true, Outcome_next_inj] at h
      rw [← h]; simp [State.reinit, hr]
    · have hr : s.rst = false := by simpa using hr
      simp only [turnAlone, State.popped_rst, hr] at h
      exact .inr (.inr (.inr (.inr (.inl ⟨hr, max 1 s.effort, [], .inl ⟨rfl, rfl, rfl⟩, by simpa [hr] using h⟩))))
  | cons e rest =>
    rw [hs] at h
    simp only at h
    by_cases hr : s.rst = true
    · have hheld : s.popped.reinit = { s.popped.reinit with rst := true } := by
        simp [State.reinit, hr]
      cases e with
      | rst level =>
        refine .inl ⟨level, ?_, .inl hr⟩
        simp only [turn, Outcome_next_inj, rstTurn, State.popped_rst, hr, if_true] at h
        rw [← h]
        cases level <;> rfl
      | _ =>
        refine .inl ⟨true, ?_, .inl hr⟩
        simp only [turn, State.popped_rst, hr, if_true, Outcome_next_inj] at h
        rw [← h]; exact hheld
    · have hr : s.rst = false := by simpa using hr
      cases e with
      | rst level =>
        simp only [turn, Outcome_next_inj, rstTurn, State.popped_rst, hr] at h
        cases level with
        | true => exact .inl ⟨true, by simpa using h.symm, .inr ⟨rest, rfl⟩⟩
        | false => exact .inr (.inl ⟨hr, rest, rfl, by simpa using h.symm⟩)
      | read addr =>
        simp only [turn, State.popped_rst, hr, hostRead, State.popped_params] at h
        cases ho : offsetOf s.params addr with
        | none => simp [ho] at h
        | some off =>
          simp only [ho] at h
          exact .inr (.inr (.inl ⟨hr, addr, rest, off, rfl, ho, by simpa using h.symm⟩))
      | write addr v strb =>
        simp only [turn, State.popped_rst, hr, hostWrite, State.popped_params] at h
        cases ho : offsetOf s.params addr with
        | none => simp [ho] at h
        | some off =>
          simp only [ho] at h
          exact .inr (.inr (.inr (.inl ⟨hr, addr, v, strb, rest, off, rfl, ho, by simpa using h⟩)))
      | engine n l =>
        simp only [turn, State.popped_rst, hr] at h
        exact .inr (.inr (.inr (.inr (.inl ⟨hr, n, l, .inr ⟨rest, rfl⟩, by simpa [hr] using h⟩))))
      | witness a =>
        simp only [turn, State.popped_rst, hr] at h
        exact .inr (.inr (.inr (.inr (.inr ⟨hr, a, rest, rfl, by simpa using h.symm⟩))))

end Sys2Proof.Machine
end

