-- ==== Sys2Proof/Laws/Words.lean ====
section
/-! SUPPORT. Operand registers as words, patterns and integers: the round trips. -/

namespace Sys2Proof.Machine

/-! ### Words and patterns -/

@[simp] theorem length_natToWords (k n : Nat) : (natToWords k n).length = k := by
  induction k generalizing n with
  | zero => rfl
  | succ k ih => simp [natToWords, ih]

theorem wordsToNat_lt (ws : List Word) : wordsToNat ws < 2 ^ (32 * ws.length) := by
  induction ws with
  | nil => simp [wordsToNat]
  | cons w ws ih =>
    have hw := w.isLt
    have hp : 2 ^ (32 * (ws.length + 1)) = 2 ^ 32 * 2 ^ (32 * ws.length) := by
      rw [← Nat.pow_add]; congr 1; ring
    simp only [wordsToNat, List.length_cons, hp]
    omega

theorem wordsToNat_natToWords (k n : Nat) :
    wordsToNat (natToWords k n) = n % 2 ^ (32 * k) := by
  induction k generalizing n with
  | zero => simp [natToWords, wordsToNat, Nat.mod_one]
  | succ k ih =>
    have hp : 2 ^ (32 * (k + 1)) = 2 ^ 32 * 2 ^ (32 * k) := by
      rw [← Nat.pow_add]; congr 1; ring
    simp only [natToWords, wordsToNat, ih, hp, BitVec.toNat_ofNat]
    rw [Nat.mod_mul]

theorem natToWords_wordsToNat (ws : List Word) :
    natToWords ws.length (wordsToNat ws) = ws := by
  induction ws with
  | nil => rfl
  | cons w ws ih =>
    have hw := w.isLt
    simp only [wordsToNat, List.length_cons, natToWords]
    congr 1
    · apply BitVec.eq_of_toNat_eq
      simp only [BitVec.toNat_ofNat]
      omega
    · rw [show (w.toNat + 2 ^ 32 * wordsToNat ws) / 2 ^ 32 = wordsToNat ws by omega, ih]

/-- Word `w` of a list is bits [32w+31 : 32w] of its pattern (R72). -/
theorem getD_eq_pattern_bits (ws : List Word) (w : Nat) :
    ws.getD w 0 = BitVec.ofNat 32 (wordsToNat ws / 2 ^ (32 * w)) := by
  induction ws generalizing w with
  | nil => simp [wordsToNat]
  | cons v ws ih =>
    have hv := v.isLt
    cases w with
    | zero =>
      rw [List.getD_cons_zero, Nat.mul_zero, pow_zero, Nat.div_one, wordsToNat, BitVec.ofNat_add,
        BitVec.ofNat_toNat, BitVec.setWidth_eq]
      have : BitVec.ofNat 32 (2 ^ 32 * wordsToNat ws) = 0 := by
        apply BitVec.eq_of_toNat_eq
        rw [BitVec.toNat_ofNat, Nat.mul_mod_right]
        rfl
      rw [this]
      exact (BitVec.add_zero v).symm
    | succ w =>
      have hp : 2 ^ (32 * (w + 1)) = 2 ^ 32 * 2 ^ (32 * w) := by
        rw [← Nat.pow_add]; congr 1; ring
      rw [List.getD_cons_succ, ih, wordsToNat, hp, ← Nat.div_div_eq_div_mul,
        Nat.add_mul_div_left _ _ (by positivity), Nat.div_eq_of_lt hv, Nat.zero_add]

/-! ### Patterns and integers (R11) -/

theorem patternOfInt_lt (rw : Nat) (v : Int) : patternOfInt rw v < 2 ^ rw := by
  have hpos : (0 : Int) < ((2 ^ rw : Nat) : Int) := by positivity
  have h1 := Int.emod_nonneg v hpos.ne'
  have h2 := Int.emod_lt_of_pos v hpos
  unfold patternOfInt
  omega

/-- `int_RW` reads back what `pat_RW` writes, for a value in range. -/
theorem intOfPattern_patternOfInt (p : Params) (v : Int) (h : Fits p v) :
    intOfPattern p.rw (patternOfInt p.rw v) = v := by
  obtain ⟨hlo, hhi⟩ := h
  have hrw : p.rw = (p.rw - 1) + 1 := by have := p.wpr_ge; simp only [Params.rw]; omega
  have hp : 2 ^ p.rw = 2 * 2 ^ (p.rw - 1) := by
    conv_lhs => rw [hrw, pow_succ]
    ring
  generalize hN : 2 ^ (p.rw - 1) = N at *
  have hNpos : 0 < N := by rw [← hN]; positivity
  have hlt := patternOfInt_lt p.rw v
  unfold intOfPattern
  rw [hN]
  rcases lt_or_ge v 0 with hv | hv
  · have he : patternOfInt p.rw v = (v + 2 * N).toNat := by
      unfold patternOfInt
      rw [hp, ← Int.add_emod_right, Int.emod_eq_of_lt] <;> push_cast <;> omega
    have hd : patternOfInt p.rw v / N = 1 := by
      rw [he]; exact Nat.div_eq_of_lt_le (by omega) (by omega)
    rw [hd, if_pos rfl, he, hp]
    push_cast
    omega
  · have he : patternOfInt p.rw v = v.toNat := by
      unfold patternOfInt
      rw [hp, Int.emod_eq_of_lt] <;> push_cast <;> omega
    have hd : patternOfInt p.rw v / N = 0 := by
      rw [he]; exact Nat.div_eq_of_lt (by omega)
    rw [hd, if_neg (by omega), he]
    omega

/-- `int_RW` of an RW-bit pattern is in range. -/
theorem fits_intOfPattern (p : Params) (n : Nat) (h : n < 2 ^ p.rw) :
    Fits p (intOfPattern p.rw n) := by
  have hrw : p.rw = (p.rw - 1) + 1 := by have := p.wpr_ge; simp only [Params.rw]; omega
  have hp : 2 ^ p.rw = 2 * 2 ^ (p.rw - 1) := by
    conv_lhs => rw [hrw, pow_succ]
    ring
  rw [hp] at h
  unfold Fits intOfPattern
  rw [hp]
  generalize 2 ^ (p.rw - 1) = N at *
  have hN : 0 < N := by omega
  have hm := Nat.div_add_mod n N
  have hl := Nat.mod_lt n hN
  have hd : n / N < 2 := by rw [Nat.div_lt_iff_lt_mul hN]; omega
  generalize n / N = d at hm hd
  obtain rfl | rfl : d = 0 ∨ d = 1 := by omega
  · rw [if_neg (by decide)]; omega
  · rw [if_pos rfl]; push_cast; omega

/-! ### Operand registers -/

theorem State.x_setX_same (s : State) (r : RegId) (v : Int) (h : Fits s.params v) :
    (s.setX r v).x r = v := by
  have hlt := patternOfInt_lt s.params.rw v
  have : wordsToNat (natToWords s.params.wpr (patternOfInt s.params.rw v))
      = patternOfInt s.params.rw v := by
    rw [wordsToNat_natToWords, Nat.mod_eq_of_lt hlt]
  simp only [State.x, State.pattern, State.setX, Fin.getElem_fin, Vector.getElem_set_self, this]
  exact intOfPattern_patternOfInt s.params v h

theorem State.regs_setX_ne (s : State) (r q : RegId) (v : Int) (h : q ≠ r) :
    (s.setX r v).regs[q] = s.regs[q] := by
  simp only [State.setX, Fin.getElem_fin]
  exact Vector.getElem_set_ne _ _ (fun e => h (Fin.ext e.symm))

theorem State.regs_setRegWord_ne (s : State) (r q : RegId) (w : Nat) (v : Word) (h : q ≠ r) :
    (s.setRegWord r w v).regs[q] = s.regs[q] := by
  simp only [State.setRegWord, Fin.getElem_fin]
  exact Vector.getElem_set_ne _ _ (fun e => h (Fin.ext e.symm))

/-- `x[q]` depends on nothing but Rq and the width. -/
theorem State.x_congr (s t : State) (q : RegId) (hp : t.params = s.params)
    (hq : t.regs[q] = s.regs[q]) : t.x q = s.x q := by
  simp only [State.x, State.pattern, hp, hq]

theorem State.fits_x (s : State) (h : s.RegsSized) (r : RegId) : Fits s.params (s.x r) := by
  apply fits_intOfPattern
  have := wordsToNat_lt s.regs[r]
  rwa [h r] at this

theorem State.regsSized_setX (s : State) (h : s.RegsSized) (r : RegId) (v : Int) :
    (s.setX r v).RegsSized := by
  intro q
  by_cases hq : q = r
  · subst hq
    simp [State.setX]
  · rw [State.regs_setX_ne _ _ _ _ hq]
    exact h q

theorem State.regsSized_setRegWord (s : State) (h : s.RegsSized) (r : RegId) (w : Nat) (v : Word) :
    (s.setRegWord r w v).RegsSized := by
  intro q
  by_cases hq : q = r
  · subst hq
    simpa [State.setRegWord] using h q
  · rw [State.regs_setRegWord_ne _ _ _ _ _ hq]
    exact h q

theorem State.regsSized_writeDests (s : State) (h : s.RegsSized) (l : List (RegId × Int)) :
    (s.writeDests l).RegsSized := by
  induction l generalizing s with
  | nil => exact h
  | cons rv rest ih => exact ih _ (s.regsSized_setX h rv.1 rv.2)

/-- A register that is no destination keeps its words. -/
theorem State.writeDests_regs_ne (s : State) (l : List (RegId × Int)) (q : RegId)
    (h : q ∉ l.map Prod.fst) : (s.writeDests l).regs[q] = s.regs[q] := by
  induction l generalizing s with
  | nil => rfl
  | cons rv rest ih =>
    simp only [List.map_cons, List.mem_cons, not_or] at h
    rw [State.writeDests, ih _ h.2, State.regs_setX_ne _ _ _ _ h.1]

/-- A destination named once holds its result, if the result is in range. -/
theorem State.writeDests_x (s : State) (l : List (RegId × Int)) (hn : (l.map Prod.fst).Nodup)
    (rv : RegId × Int) (hm : rv ∈ l) (hf : Fits s.params rv.2) :
    (s.writeDests l).x rv.1 = rv.2 := by
  induction l generalizing s with
  | nil => cases hm
  | cons qv rest ih =>
    simp only [List.map_cons, List.nodup_cons] at hn
    rcases List.mem_cons.mp hm with rfl | hr
    · rw [← State.x_setX_same s rv.1 rv.2 hf]
      exact State.x_congr _ _ _ (by simp [State.writeDests])
        (State.writeDests_regs_ne _ _ _ hn.1)
    · exact ih (s.setX qv.1 qv.2) hn.2 hr hf

end Sys2Proof.Machine
end

