-- ==== Sys2Proof/Laws/Exec.lean ====
section
/-! SUPPORT. What a command's step can do, once for all five commands: the inversion lemma of `exec`. -/

namespace Sys2Proof.Machine

/-- What a commit can do: nothing when the working state is not the command's, NOT_INVERTIBLE, or every
destination written and the status NONE (R53). -/
def CommitShape (i : Instr) (s t : State) : Prop :=
  t = s ∨ t = s.raiseNotInvertible ∨ ∃ l, l.map Prod.fst = dests i ∧ t = s.commit l

theorem commitModexp_shape (rd rbase rexp rmod : RegId) (s : State) (w : Work) :
    CommitShape (.modexp rd rbase rexp rmod) s (commitModexp rd s w) := by
  cases w with
  | power w => exact .inr (.inr ⟨_, rfl, rfl⟩)
  | _ => exact .inl rfl

theorem commitExtgcd_shape (rg rx ry ra rb : RegId) (s : State) (w : Work) :
    CommitShape (.extgcd rg rx ry ra rb) s (commitExtgcd rg rx ry s w) := by
  cases w with
  | euclid w => exact .inr (.inr ⟨_, rfl, rfl⟩)
  | _ => exact .inl rfl

theorem commitModinv_shape (rd re rphi : RegId) (s : State) (w : Work) :
    CommitShape (.modinv rd re rphi) s (commitModinv rd s w) := by
  cases w with
  | euclid w =>
    simp only [commitModinv]
    split
    · exact .inr (.inl rfl)
    · exact .inr (.inr ⟨_, rfl, rfl⟩)
  | _ => exact .inl rfl

theorem commitVerdict_shape (i : Instr) (rd : RegId) (hi : dests i = [rd]) (s : State) (w : Work) :
    CommitShape i s (commitVerdict rd s w) := by
  cases w with
  | primality w =>
    simp only [commitVerdict]
    split
    · exact .inr (.inr ⟨[(rd, _)], hi.symm, rfl⟩)
    · exact .inl rfl
  | _ => exact .inl rfl

/-- The accept step with a check that names slots 2 to 5 only (R223). -/
theorem State.accept_shape (s : State) (failing : Option (BitVec 3)) (cmd : Instr) (work : Work)
    (hslot : ∀ slot, failing = some slot → 2 ≤ slot ∧ slot ≤ 5) :
    (∃ slot : BitVec 3, 2 ≤ slot ∧ slot ≤ 5 ∧ s.accept failing cmd work = s.raiseInvalid slot) ∨
    s.accept failing cmd work = s.latch cmd work := by
  rcases s.accept_cases failing cmd work with ⟨slot, hf, h⟩ | ⟨-, h⟩
  · exact .inl ⟨slot, (hslot slot hf).1, (hslot slot hf).2, h⟩
  · exact .inr h

/-- Everything `exec` can do: while IDLE an operand check fails or the command is latched; in flight it
commits or computes; while another command is in flight it is refused (R50 to R54). -/
theorem exec_cases (i : Instr) (s t : State) (h : exec i s = .next t) :
    (s.seq = .idle ∧ ((∃ slot : BitVec 3, 2 ≤ slot ∧ slot ≤ 5 ∧ t = s.raiseInvalid slot) ∨
      ∃ work, t = s.latch i work)) ∨
    (∃ job, s.seq = .busy job ∧ job.cmd = i ∧
      ((job.stepped = true ∧ job.work.finished = true ∧ 0 < s.effort ∧ CommitShape i s t) ∨
       (¬(job.stepped = true ∧ job.work.finished = true ∧ 0 < s.effort) ∧
        t = { s with seq := .busy { job with work := job.work.run s.effort s.answers, stepped := true } }))) ∨
    (∃ job, s.seq = .busy job ∧ job.cmd ≠ i ∧ t = s.refuseCommand) := by
  have key : ∀ (failing : Option (BitVec 3)) (work : Work) (commit : Work → State),
      (∀ slot, failing = some slot → 2 ≤ slot ∧ slot ≤ 5) → (∀ w, CommitShape i s (commit w)) →
      t = s.runCommand i (s.accept failing i work) commit →
      (s.seq = .idle ∧ ((∃ slot : BitVec 3, 2 ≤ slot ∧ slot ≤ 5 ∧ t = s.raiseInvalid slot) ∨
        ∃ work, t = s.latch i work)) ∨
      (∃ job, s.seq = .busy job ∧ job.cmd = i ∧
        ((job.stepped = true ∧ job.work.finished = true ∧ 0 < s.effort ∧ CommitShape i s t) ∨
         (¬(job.stepped = true ∧ job.work.finished = true ∧ 0 < s.effort) ∧
          t = { s with seq := .busy { job with work := job.work.run s.effort s.answers, stepped := true } }))) ∨
      (∃ job, s.seq = .busy job ∧ job.cmd ≠ i ∧ t = s.refuseCommand) := by
    intro failing work commit hslot hcommit ht
    rcases s.runCommand_cases i (s.accept failing i work) commit with
      ⟨hi, hr⟩ | ⟨job, hj, hc, hr⟩ | ⟨job, hj, hc, hr⟩
    · refine .inl ⟨hi, ?_⟩
      rw [hr] at ht
      rcases s.accept_shape failing i work hslot with ⟨slot, h1, h2, h3⟩ | h3
      · exact .inl ⟨slot, h1, h2, ht.trans h3⟩
      · exact .inr ⟨work, ht.trans h3⟩
    · refine .inr (.inl ⟨job, hj, hc, ?_⟩)
      rw [hr] at ht
      rcases s.engineStep_cases job commit with ⟨h1, h2, h3, h4⟩ | ⟨h1, h2⟩
      · exact .inl ⟨h1, h2, h3, by rw [ht, h4]; exact hcommit _⟩
      · exact .inr ⟨h1, ht.trans h2⟩
    · exact .inr (.inr ⟨job, hj, hc, ht.trans hr⟩)
  cases i with
  | modexp rd rbase rexp rmod =>
    refine key _ _ _ ?_ (commitModexp_shape rd rbase rexp rmod s) ((Outcome_next_inj _ _).1 h).symm
    intro slot hf
    unfold checkModexp at hf
    repeat' split at hf
    all_goals first | (injection hf with hf; subst hf; decide) | cases hf
  | extgcd rg rx ry ra rb =>
    refine key _ _ _ ?_ (commitExtgcd_shape rg rx ry ra rb s) ((Outcome_next_inj _ _).1 h).symm
    intro slot hf
    unfold checkExtgcd at hf
    repeat' split at hf
    all_goals first | (injection hf with hf; subst hf; decide) | cases hf
  | modinv rd re rphi =>
    refine key _ _ _ ?_ (commitModinv_shape rd re rphi s) ((Outcome_next_inj _ _).1 h).symm
    intro slot hf
    unfold checkModinv at hf
    repeat' split at hf
    all_goals first | (injection hf with hf; subst hf; decide) | cases hf
  | mrtest rd rn t8 =>
    refine key _ _ _ ?_ (commitVerdict_shape (.mrtest rd rn t8) rd rfl s) ((Outcome_next_inj _ _).1 h).symm
    intro slot hf
    cases hf
  | mrround rd rn ra =>
    refine key _ _ _ ?_ (commitVerdict_shape (.mrround rd rn ra) rd rfl s) ((Outcome_next_inj _ _).1 h).symm
    intro slot hf
    unfold checkMrround at hf
    repeat' split at hf
    all_goals first | (injection hf with hf; subst hf; decide) | cases hf

/-- BUSY reads 1 exactly while a command is in flight (R33). -/
theorem State.busy_iff (s : State) : s.busy = true ↔ ∃ job, s.seq = .busy job := by
  unfold State.busy; cases s.seq <;> simp

theorem State.not_busy_iff (s : State) : s.busy = false ↔ s.seq = .idle := by
  unfold State.busy; cases s.seq <;> simp

/-- A commit writes no register but the destinations (R227). -/
theorem CommitShape.regs_ne {i : Instr} {s t : State} (h : CommitShape i s t) (r : RegId)
    (hr : r ∉ dests i) : t.regs[r] = s.regs[r] := by
  rcases h with rfl | rfl | ⟨l, hl, rfl⟩
  · rfl
  · rfl
  · exact State.writeDests_regs_ne s l r (hl ▸ hr)

/-- What the engine's turn can do: nothing while IDLE, a commit, or a compute step (R52, R53, R246). -/
theorem engineTurn_cases (s t : State) (h : engineTurn s = .next t) :
    (s.seq = .idle ∧ t = s) ∨
    ∃ job, s.seq = .busy job ∧
      ((job.stepped = true ∧ job.work.finished = true ∧ 0 < s.effort ∧ CommitShape job.cmd s t) ∨
       (¬(job.stepped = true ∧ job.work.finished = true ∧ 0 < s.effort) ∧
        t = { s with seq := .busy { job with work := job.work.run s.effort s.answers, stepped := true } })) := by
  unfold engineTurn at h
  cases hb : s.seq with
  | idle => rw [hb] at h; exact .inl ⟨rfl, ((Outcome_next_inj _ _).1 h).symm⟩
  | busy job =>
    rw [hb] at h
    refine .inr ⟨job, rfl, ?_⟩
    rcases exec_cases _ s t h with ⟨hi, -⟩ | ⟨job', hb', -, h⟩ | ⟨job', hb', hc, -⟩
    · rw [hi] at hb; cases hb
    · rw [hb] at hb'; injection hb' with e; subst e; exact h
    · rw [hb] at hb'; injection hb' with e; subst e; exact absurd rfl hc

/-- What a word written to CMD can do: it is refused while BUSY; while IDLE it completes with an error
code, or its command is latched (R50, R54). -/
theorem writeCmd_shape (w : Word) (s t : State) (h : writeCmd w s = .next t) :
    (s.busy = true ∧ t = s.refuseCommand) ∨
    (s.seq = .idle ∧
      ((∃ code slot sub, code ≠ .none ∧ t = (s.beginCommand w).complete code slot sub []) ∨
       ∃ i work, decode w = .ok i ∧ t = (s.beginCommand w).latch i work)) := by
  rcases writeCmd_cases _ _ _ h with h | ⟨hb, why, -, rfl⟩ | ⟨hb, i, hd, he⟩
  · exact .inl h
  · exact .inr ⟨s.not_busy_iff.1 hb, .inl ⟨_, _, _, by decide, rfl⟩⟩
  · rw [State.not_busy_iff] at hb
    refine .inr ⟨hb, ?_⟩
    rcases exec_cases _ _ _ he with ⟨-, ⟨slot, -, -, rfl⟩ | ⟨work, rfl⟩⟩ | ⟨job, h, -⟩ | ⟨job, h, -⟩
    · exact .inl ⟨_, _, _, by decide, rfl⟩
    · exact .inr ⟨_, _, hd, rfl⟩
    · rw [State.beginCommand_seq, hb] at h; cases h
    · rw [State.beginCommand_seq, hb] at h; cases h

end Sys2Proof.Machine
end

