-- ==== Sys2Proof/Laws/HostPort.lean ====
section
/-! SUPPORT. The aperture map: which offsets are what, both ways. -/

namespace Sys2Proof.Machine

/-- An offset of the aperture is found at BASE + offset (R70). -/
theorem offsetOf_base_add (p : Params) (off : Nat) (h : off < 0x2000) :
    offsetOf p (p.base + off) = some off := by
  unfold offsetOf Config.apertureBytes
  rw [if_pos (by omega)]
  simp

theorem offsetOf_eq_some (p : Params) (addr off : Nat) :
    offsetOf p addr = some off ↔ addr = p.base + off ∧ off < 0x2000 := by
  unfold offsetOf Config.apertureBytes
  split
  · simp only [Option.some.injEq]; omega
  · simp only [reduceCtorEq, false_iff]; omega

theorem offsetOf_eq_none (p : Params) (addr : Nat) :
    offsetOf p addr = none ↔ addr < p.base ∨ p.base + 0x2000 ≤ addr := by
  unfold offsetOf Config.apertureBytes
  split
  · simp only [reduceCtorEq, false_iff]; omega
  · simp only [true_iff]; omega

/-- The window's offsets lie in the aperture, aligned, above the control registers (R71, R72). -/
theorem windowOffset_bounds (p : Params) (r : RegId) (w : Nat) (h : w < p.wpr) :
    0x1000 ≤ windowOffset p r w ∧ windowOffset p r w < 0x1000 + 32 * p.wpr ∧
      windowOffset p r w < 0x2000 ∧ windowOffset p r w % 4 = 0 := by
  have hr := r.isLt
  have hle := p.wpr_le
  have hmul : r.val * p.wpr + w < 8 * p.wpr := by
    have : (r.val + 1) * p.wpr ≤ 8 * p.wpr := Nat.mul_le_mul_right _ (by omega)
    rw [Nat.add_mul] at this
    omega
  unfold windowOffset
  omega

/-- R72's offset addresses word `w` of Rr. -/
theorem region_windowOffset (p : Params) (r : RegId) (w : Nat) (h : w < p.wpr) :
    region p (windowOffset p r w) = .window r w := by
  obtain ⟨hlo, hhi, _, hal⟩ := windowOffset_bounds p r w h
  have hdiv : (windowOffset p r w - 0x1000) / 4 = r.val * p.wpr + w := by
    unfold windowOffset; omega
  have hpos : 0 < p.wpr := by omega
  unfold region
  rw [if_neg (by omega), if_neg (by omega), if_neg (by omega), if_neg (by omega),
    if_neg (by omega), if_neg (by omega), if_neg (by omega), if_pos ⟨hlo, hhi⟩, hdiv]
  have h1 : (r.val * p.wpr + w) / p.wpr = r.val := by
    rw [Nat.mul_comm, Nat.mul_add_div hpos, Nat.div_eq_of_lt h, Nat.add_zero]
  have h2 : (r.val * p.wpr + w) % p.wpr = w := by
    rw [Nat.mul_comm, Nat.mul_add_mod, Nat.mod_eq_of_lt h]
  rw [h1, h2]
  congr 1
  apply Fin.ext
  simp [Fin.ofNat, Nat.mod_eq_of_lt r.isLt]

/-- Only R72's offsets address the window. -/
theorem region_eq_window (p : Params) (off : Nat) (r : RegId) (w : Nat)
    (h : region p off = .window r w) : w < p.wpr ∧ off = windowOffset p r w := by
  have hpos : 0 < p.wpr := by have := p.wpr_ge; omega
  unfold region at h
  repeat' split at h
  all_goals first
    | cases h; done
    | skip
  rename_i hal _ _ _ _ _ _ hwin
  simp only [Region.window.injEq] at h
  obtain ⟨rfl, rfl⟩ := h
  refine ⟨Nat.mod_lt _ hpos, ?_⟩
  have hlt : (off - 0x1000) / 4 / p.wpr < 8 := by
    rw [Nat.div_lt_iff_lt_mul hpos]; omega
  have hdm := Nat.div_add_mod ((off - 0x1000) / 4) p.wpr
  simp only [windowOffset, Fin.ofNat, Nat.mod_eq_of_lt hlt]
  rw [Nat.mul_comm p.wpr] at hdm
  rw [hdm]
  omega

/-- The offsets R79 reserves and R80 refuses are the two refusing regions, and no others. -/
theorem region_refused (p : Params) (off : Nat) :
    (region p off = .reserved ∨ region p off = .misaligned) ↔
      (off % 4 ≠ 0 ∨ 0x0018 ≤ off ∧ off < 0x1000 ∨ 0x1000 + 32 * p.wpr ≤ off) := by
  unfold region
  repeat' split
  all_goals simp only [reduceCtorEq, or_false, or_true, true_iff, false_iff, or_self]
  all_goals omega

/-- The offsets of R78 are the three read-only registers, and no others. -/
theorem region_readonly (p : Params) (off : Nat) :
    (region p off = .id ∨ region p off = .cfg ∨ region p off = .errinfo) ↔
      (off = 0x0000 ∨ off = 0x0004 ∨ off = 0x0014) := by
  unfold region
  repeat' split
  all_goals simp only [reduceCtorEq, or_false, or_true, true_iff, false_iff, or_self]
  all_goals omega

/-- Only offset 0x0010 is CMD. -/
theorem region_eq_cmd (p : Params) (off : Nat) : region p off = .cmd ↔ off = 0x0010 := by
  unfold region
  repeat' split
  all_goals simp only [reduceCtorEq, true_iff, false_iff]
  all_goals omega

/-- Only offset 0x0008 is CTRL. -/
theorem region_eq_ctrl (p : Params) (off : Nat) : region p off = .ctrl ↔ off = 0x0008 := by
  unfold region
  repeat' split
  all_goals simp only [reduceCtorEq, true_iff, false_iff]
  all_goals omega

/-- Only offset 0x000C is STATUS. -/
theorem region_eq_status (p : Params) (off : Nat) : region p off = .status ↔ off = 0x000C := by
  unfold region
  repeat' split
  all_goals simp only [reduceCtorEq, true_iff, false_iff]
  all_goals omega

end Sys2Proof.Machine
end

