-- ==== Sys2Proof/Laws/PerInstr.lean ====
section
/-! SUPPORT. The statements made per command, for the host's case split. -/

namespace Sys2Proof

/-- Bit 3 of a register field is 0 (R113). -/
theorem RegId.field_and_top (r : RegId) : RegId.field r &&& 8#4 = 0#4 := by
  revert r; decide

/-- A word of format R5 under a mask, field by field. -/
theorem encodeR5_and (op mo : BitVec 8) (fa fb fc fd fe ma mb mc md me mr : BitVec 4) :
    encodeR5 op fa fb fc fd fe &&& (mr ++ me ++ md ++ mc ++ mb ++ ma ++ mo) =
      encodeR5 (op &&& mo) (fa &&& ma) (fb &&& mb) (fc &&& mc) (fd &&& md) (fe &&& me) := by
  repeat rw [encodeR5]
  have h : ∀ x : BitVec 4, 0#4 &&& x = 0#4 := by decide
  conv_rhs => rw [← h mr]
  iterate 6 rw [← BitVec.and_append]

/-- A word of format RT under a mask, field by field. -/
theorem encodeRT_and (op mo t8 mt : BitVec 8) (fa fb fc ma mb mc mr : BitVec 4) :
    encodeRT op fa fb fc t8 &&& (mr ++ mt ++ mc ++ mb ++ ma ++ mo) =
      encodeRT (op &&& mo) (fa &&& ma) (fb &&& mb) (fc &&& mc) (t8 &&& mt) := by
  repeat rw [encodeRT]
  have h : ∀ x : BitVec 4, 0#4 &&& x = 0#4 := by decide
  conv_rhs => rw [← h mr]
  iterate 5 rw [← BitVec.and_append]

end Sys2Proof

namespace Sys2Proof.Laws.EncodingPattern

/-- R117: the word of a command matches its row's match value under its row's mask. -/
def Statement (i : Instr) : Prop := encode i &&& i.opcode.maskWord = i.opcode.matchWord

theorem modexp (rd rbase rexp rmod : RegId) : Statement (.modexp rd rbase rexp rmod) := by
  have hm : Opcode.modexp.maskWord = 0xF#4 ++ 0xF#4 ++ 8#4 ++ 8#4 ++ 8#4 ++ 8#4 ++ 0xFF#8 := rfl
  simp only [Statement, Instr.opcode, encode, hm, encodeR5_and, RegId.field_and_top]
  rfl

theorem extgcd (rg rx ry ra rb : RegId) : Statement (.extgcd rg rx ry ra rb) := by
  have hm : Opcode.extgcd.maskWord = 0xF#4 ++ 8#4 ++ 8#4 ++ 8#4 ++ 8#4 ++ 8#4 ++ 0xFF#8 := rfl
  simp only [Statement, Instr.opcode, encode, hm, encodeR5_and, RegId.field_and_top]
  rfl

theorem modinv (rd re rphi : RegId) : Statement (.modinv rd re rphi) := by
  have hm : Opcode.modinv.maskWord = 0xF#4 ++ 0xF#4 ++ 0xF#4 ++ 8#4 ++ 8#4 ++ 8#4 ++ 0xFF#8 := rfl
  simp only [Statement, Instr.opcode, encode, hm, encodeR5_and, RegId.field_and_top]
  rfl

theorem mrtest (rd rn : RegId) (t8 : BitVec 8) : Statement (.mrtest rd rn t8) := by
  have hm : Opcode.mrtest.maskWord = 0xF#4 ++ 0#8 ++ 0xF#4 ++ 8#4 ++ 8#4 ++ 0xFF#8 := rfl
  simp only [Statement, Instr.opcode, encode, hm, encodeRT_and, RegId.field_and_top,
    BitVec.and_zero]
  rfl

theorem mrround (rd rn ra : RegId) : Statement (.mrround rd rn ra) := by
  have hm : Opcode.mrround.maskWord = 0xF#4 ++ 0xF#4 ++ 0xF#4 ++ 8#4 ++ 8#4 ++ 8#4 ++ 0xFF#8 := rfl
  simp only [Statement, Instr.opcode, encode, hm, encodeR5_and, RegId.field_and_top]
  rfl

end Sys2Proof.Laws.EncodingPattern
end

