-- ==== Sys2Proof/Tests/Slice0.lean ====
section
/-! SUPPORT. Tests against the vectors of 95_test_vectors.md, and for each obligation with hypotheses a
witness that meets them. -/

namespace Sys2Proof.Tests

open Sys2Proof.Machine Sys2Proof.Claims

-- One theorem at a time: each `decide +kernel` waiting in a thread of its own would need too many threads.
set_option Elab.async false

/-! ### Small states -/

/-- The reset machine with these register values. -/
def withRegs (values : List (RegId × Int)) : State := State.reset.writeDests values

/-- The machine with these registers, in flight on `cmd`. -/
def inFlight (values : List (RegId × Int)) (cmd : Instr) (work : Work) (stepped : Bool) : State :=
  { withRegs values with lastcmd := encode cmd, seq := .busy ⟨cmd, work, stepped⟩ }

/-- The machine with these registers, about to take this event. -/
def about (values : List (RegId × Int)) (e : Event) : State :=
  { withRegs values with schedule := [e] }

/-- A host write to an offset of the default aperture. -/
def wr (off : Nat) (v : Word) : Event := .write off v 0xF

/-- The next state, or the reset state where there is none. -/
def after : Host.Outcome State Fault Refusal → State
  | .next t => t
  | .fault _ => State.reset
  | .refused _ => State.reset

/-! ### WellFormed refuses what R120 refuses -/

theorem test_wf_refuses_rg_rx : (Instr.extgcd 2 2 4 0 1).wf = false := by decide
theorem test_wf_refuses_rg_ry : (Instr.extgcd 2 3 2 0 1).wf = false := by decide
theorem test_wf_refuses_rx_ry : (Instr.extgcd 2 3 3 0 1).wf = false := by decide

/-! ### Decoding: words written out from R117's patterns -/

theorem test_decode_modexp :
    decode 0b00000000001000010000001100000001#32 = .ok (.modexp 3 0 1 2) := by decide
theorem test_decode_extgcd :
    decode 0b00000001000001000011001000000010#32 = .ok (.extgcd 2 3 4 0 1) := by decide
theorem test_decode_modinv :
    decode 0b00000000000000010000010100000011#32 = .ok (.modinv 5 0 1) := by decide
theorem test_decode_mrtest :
    decode 0b00001111111100000000001100000100#32 = .ok (.mrtest 3 0 255) := by decide
theorem test_decode_mrround :
    decode 0b00000000000000010000001000000101#32 = .ok (.mrround 2 0 1) := by decide

/-- 95_test_vectors.md section 6: the order of the checks. -/
theorem test_decode_illegal :
    decode 0x10000000 = .error .opcode ∧ decode 0x10210301 = .error .reservedBits ∧
    decode 0xF0290301 = .error .reservedBits ∧ decode 0x00010304 = .error .reservedBits ∧
    decode 0x08043202 = .error .registerRange ∧ decode 0x01042202 = .error .duplicateDestination := by
  decide

/-! ### One step of each command (95_test_vectors.md sections 2 to 5) -/

theorem test_modexp_commit : (after (exec (.modexp 3 0 1 2)
    (inFlight [] (.modexp 3 0 1 2) (Work.run 4 [] (Work.power (PowerWork.init 4 13 497))) true))).x 3
      = 445 := by decide +kernel

theorem test_modexp_slot_order :
    (after (exec (.modexp 3 0 1 2) (withRegs [(0, -1), (1, -1)]))).errinfo = 2 := by decide +kernel

theorem test_extgcd_commit :
    let t := after (exec (.extgcd 2 3 4 0 1) (inFlight [] (.extgcd 2 3 4 0 1)
      (Work.run 5 [] (Work.euclid (EuclidWork.init 240 46))) true))
    t.x 2 = 2 ∧ t.regs[3] = [0xFFFFFFF7, 0xFFFFFFFF, 0xFFFFFFFF, 0xFFFFFFFF] ∧ t.x 4 = 47 := by
  decide +kernel

theorem test_modinv_commit : (after (exec (.modinv 5 0 1) (inFlight [] (.modinv 5 0 1)
    (Work.run 9 [] (Work.euclid (EuclidWork.init 79 3337))) true))).x 5 = 2281 := by decide +kernel

theorem test_modinv_not_invertible :
    let t := after (exec (.modinv 5 0 1) (inFlight [(5, 7)] (.modinv 5 0 1)
      (Work.run 9 [] (Work.euclid (EuclidWork.init 4 8))) true))
    t.x 5 = 7 ∧ t.statusWord = 0x00000302 ∧ t.errinfo = 0 := by decide +kernel

/-- The first halving of n - 1 = 340 = 85 * 2^2, and the request that follows the second. -/
theorem test_mrtest_requests_witness : (after (exec (.mrtest 3 0 0) { inFlight [] (.mrtest 3 0 0)
    (.primality (MrWork.init 341 16 none)) false with effort := 3 })).witnessRequest
      = some 341 := by decide +kernel

/-- R8: an MRTEST may take one compute step. 341 fails on the witness 2: 2^85 mod 341 = 32 and
32^2 mod 341 = 1 (R191). -/
theorem test_mrtest_in_one_compute_step :
    let t := after (exec (.mrtest 3 0 1) { inFlight [] (.mrtest 3 0 1)
      (.primality (MrWork.init 341 1 none)) false with effort := 16, answers := [2] })
    t.busy = true ∧ (after (exec (.mrtest 3 0 1) t)).done = true ∧
      (after (exec (.mrtest 3 0 1) t)).x 3 = 0 := by decide +kernel

/-- 7 is a strong liar for 25: 7^3 mod 25 = 18 and 18^2 mod 25 = 24. -/
theorem test_mrround_liar : (after (exec (.mrround 2 0 1) (inFlight [] (.mrround 2 0 1)
    (Work.run 12 [] (Work.primality (MrWork.init 25 1 (some 7)))) true))).x 2 = 1 := by decide +kernel

theorem test_mrround_fails : (after (exec (.mrround 2 0 1) (inFlight [(2, 5)] (.mrround 2 0 1)
    (Work.run 16 [] (Work.primality (MrWork.init 341 1 (some 2)))) true))).x 2 = 0 := by decide +kernel

/-! ### One step of the host and of reset (95_test_vectors.md section 6 and program P4) -/

theorem test_read_cfg : (after (step (about [] (.read 0x0004)))).rdata = some 0x01080004 := by
  decide +kernel

theorem test_read_beyond_window :
    let t := after (step (about [] (.read 0x1080)))
    t.rdata = some 0 ∧ t.statusWord = 0x00000004 := by decide +kernel

theorem test_write_word_one : (after (step (about [] (wr 0x1004 1)))).x 0 = 2 ^ 32 := by
  decide +kernel

theorem test_illegal_word_status :
    let t := after (step (about [] (wr 0x0010 0)))
    t.statusWord = 0x00000102 ∧ t.errinfo = 0x00000010 ∧ t.lastcmd = 0 := by decide +kernel

theorem test_soft_reset_wins_over_ie :
    (after (step (about [(0, 5)] (wr 0x0008 3)))).ie = false := by decide +kernel

/-- R277: with the schedule exhausted the engine makes progress whatever its last effort was. -/
theorem test_tail_makes_progress : (after (step { inFlight [] (.modexp 3 0 1 2)
    (Work.run 4 [] (Work.power (PowerWork.init 4 13 497))) true with effort := 0 })).x 3 = 445 := by
  decide +kernel

/-! ### Witnesses of the obligations' hypotheses

One theorem per obligation, named after it. The working states are those of the spec's own traces:
4^13 mod 497 (95_test_vectors.md section 2), extgcd(240, 46) and the inverse of 5 mod 14 (41_extgcd.md). -/

/-- The next action of the default machine with these registers is a write of `w` to CMD. -/
def submitting (values : List (RegId × Int)) (w : Word) : State := about values (wr 0x10 w)

theorem submitting_submits (values : List (RegId × Int)) (w : Word) :
    Submits (submitting values w) w [] := by
  have h : ∀ (s : State) (l : List (RegId × Int)),
      (s.writeDests l).rst = s.rst ∧ (s.writeDests l).seq = s.seq ∧
        (s.writeDests l).params = s.params := by
    intro s l
    induction l generalizing s with
    | nil => exact ⟨rfl, rfl, rfl⟩
    | cons v rest ih => exact ih (s.setX v.1 v.2)
  obtain ⟨h1, h2, h3⟩ := h State.reset values
  refine ⟨h1, h2, ?_⟩
  show [wr 0x10 w] = [Event.write ((State.reset.writeDests values).params.base + 0x10) w 0xF]
  rw [h3]
  rfl

/-! The statements about encoding. -/

theorem witness_DecodeEncodeRoundTrip :
    (Instr.modexp 7 7 7 7).wf = true ∧ (Instr.extgcd 5 6 7 7 7).wf = true ∧
    (Instr.modinv 0 0 0).wf = true ∧ (Instr.mrtest 0 7 255).wf = true ∧
    (Instr.mrround 7 0 7).wf = true := by decide

theorem witness_EncodeDecodeRoundTrip : decode 0x0FF00304 = .ok (.mrtest 3 0 255) := by decide

/-- Each clause: all register fields at 7, T8 at 0 and at 255. -/
theorem witness_LegalWordsMatchPatterns :
    (0x00777701#32 &&& 0xFF8888FF = 0x00000001) ∧
    (0x07776502#32 &&& 0xF88888FF = 0x00000002 ∧ letters 0x07776502 8 ≠ letters 0x07776502 12 ∧
      letters 0x07776502 8 ≠ letters 0x07776502 16 ∧
      letters 0x07776502 12 ≠ letters 0x07776502 16) ∧
    (0x00077703#32 &&& 0xFFF888FF = 0x00000003) ∧
    (0x00000004#32 &&& 0xF00F88FF = 0x00000004) ∧ (0x0FF07704#32 &&& 0xF00F88FF = 0x00000004) ∧
    (0x00077705#32 &&& 0xFFF888FF = 0x00000005) ∧
    decode 0x00777701 = .ok (.modexp 7 7 7 7) := by decide

/-- Each sub-code and a legal word. -/
theorem witness_IllegalWordsBySubcode :
    illegalSub 0x00000006 = some 1 ∧ illegalSub 0x10000000 = some 1 ∧
    illegalSub 0xF0290301 = some 2 ∧ illegalSub 0x00290301 = some 3 ∧
    illegalSub 0x08043202 = some 3 ∧ illegalSub 0x01042202 = some 4 ∧
    illegalSub 0x0FF00304 = none := by decide

theorem witness_RoundCountOfImmediate :
    decode 0x00000304 = .ok (.mrtest 3 0 0) ∧ State.reset.seq = .idle := by decide

theorem witness_AssemblerEmitsOnlyLegalWords :
    8 ≤ 8 ∧ assemble (.modexp 7 0 7 7) = some 0x00770701 ∧
    assemble (.mrtest 3 0 (some 255)) = some 0x0FF00304 ∧
    assemble (.mrtest 3 0 (some 256)) = none := by decide

/-! The statements about one step. -/

theorem witness_StepRunsSubmittedCommand :
    Submits (submitting [] 0x00210301) 0x00210301 [] ∧
      decode 0x00210301 = .ok (.modexp 3 0 1 2) := ⟨submitting_submits _ _, by decide⟩

/-- Each clause: an engine event and an exhausted schedule, BUSY and IDLE. -/
theorem witness_StepRunsCommandInFlight :
    let busy := inFlight [] (.modexp 3 0 1 2) (.power (PowerWork.init 4 13 497)) false
    busy.rst = false ∧ busy.schedule = [] ∧ busy.seq ≠ .idle ∧
    ({ busy with schedule := [.engine 0 []] }).seq ≠ .idle ∧
    (about [] (.engine 1 [])).rst = false ∧ (about [] (.engine 1 [])).seq = .idle ∧
    State.reset.schedule = [] ∧ State.reset.seq = .idle := by decide +kernel

/-- An access just below the aperture's end, and one just beyond it. -/
theorem witness_StepStopsOnlyOutsideAperture :
    (∃ t, step (about [] (.read 0x1FFF)) = .next t) ∧
    step (about [] (.read 0x2000)) = .fault .outsideAperture ∧
    step (about [] (.write 0x2000 0 0)) = .fault .outsideAperture := ⟨⟨_, rfl⟩, rfl, rfl⟩

theorem witness_IllegalWordCompletesAtAccept :
    State.reset.seq = .idle ∧ illegalSub 0 = some 1 ∧ illegalSub 0x10210301 = some 2 ∧
    illegalSub 0x00210801 = some 3 ∧ illegalSub 0x01042202 = some 4 := by decide

/-- Each check of each command, at the first value outside its domain. -/
theorem witness_InvalidArgumentCompletesAtAccept :
    State.reset.seq = .idle ∧ decode 0x00210301 = .ok (.modexp 3 0 1 2) ∧
    failingSlot (withRegs [(0, -1), (2, 1)]) (.modexp 3 0 1 2) = some 2 ∧
    failingSlot (withRegs [(1, -1), (2, 1)]) (.modexp 3 0 1 2) = some 3 ∧
    failingSlot State.reset (.modexp 3 0 1 2) = some 4 ∧
    failingSlot (withRegs [(0, -1)]) (.extgcd 2 3 4 0 1) = some 4 ∧
    failingSlot (withRegs [(1, -1)]) (.extgcd 2 3 4 0 1) = some 5 ∧
    failingSlot (withRegs [(0, -1), (1, 1)]) (.modinv 5 0 1) = some 2 ∧
    failingSlot State.reset (.modinv 5 0 1) = some 3 ∧
    failingSlot (withRegs [(0, 3), (1, 1)]) (.mrround 2 0 1) = some 3 ∧
    failingSlot (withRegs [(0, 3), (1, 3)]) (.mrround 2 0 1) = some 3 ∧
    failingSlot (withRegs [(2, 1)]) (.modexp 3 0 1 2) = none ∧
    failingSlot (withRegs [(0, 3), (1, 2)]) (.mrround 2 0 1) = none := by decide +kernel

/-- Each command at the boundary of its operands' domain, and each phase a test can begin in. -/
theorem witness_AcceptLatchesOperands :
    let s := withRegs [(2, 1), (3, 3), (4, 2)]
    s.seq = .idle ∧ (0 ≤ s.x 0 ∧ 0 ≤ s.x 1 ∧ 0 < s.x 2) ∧ (s.x 3 % 2 = 1 ∧ 3 ≤ s.x 3) ∧
    s.x 4 = 2 ∧ s.x 0 < 2 ∧ (2 ≤ s.x 4 ∧ s.x 4 ≤ s.x 3 - 1) := by decide +kernel

/-! The commits. The working states are those of the traces, at their ends. -/

/-- 4^13 mod 497 at the end of R140's loop. -/
def powerEnd : PowerWork := ⟨4, 13, 497, 445, 151, 0⟩

theorem powerEnd_inv : powerEnd.Inv := by
  constructor <;> decide +kernel

/-- extgcd(240, 46) at the end of R161's loop. -/
def euclidEnd : EuclidWork := (EuclidWork.init 240 46).run 5

theorem euclidEnd_inv : euclidEnd.Inv := by
  constructor <;> decide +kernel

/-- MODINV of 5 mod 14, at the end of R161's loop. -/
def inverseEnd : EuclidWork := (EuclidWork.init 5 14).run 4

theorem inverseEnd_inv : inverseEnd.Inv := by
  constructor <;> decide +kernel

/-- MODINV of 4 mod 8, which is not invertible. -/
def notInvertibleEnd : EuclidWork := (EuclidWork.init 4 8).run 3

theorem notInvertibleEnd_inv : notInvertibleEnd.Inv := by
  constructor <;> decide +kernel

/-- The test of n = 9 with the witness 8, a liar, after its one round. -/
def liarEnd (given : Option Int) : MrWork := ⟨9, 1, given, 1, 3, 8, 0, [8], .verdict true⟩

theorem liarEnd_inv (given : Option Int) (h : given = none ∨ given = some 8) :
    (liarEnd given).Inv where
  rounds_pos := Nat.le_refl 1
  draws_legal := by simp [liarEnd, LegalWitness]
  draws_le := by simp [liarEnd]
  given_one := by
    intro a ha
    rcases h with rfl | rfl
    · cases ha
    · injection ha with ha
      subst ha
      exact ⟨rfl, .inr rfl, fun _ => ⟨by decide, by decide⟩⟩
  special_verdict := by
    intro p hp
    have : special 9 = none := by decide +kernel
    exact absurd (this.symm.trans hp) (by simp)
  phase_ok := by
    intro _
    refine ⟨rfl, ?_⟩
    intro a ha
    have : a = 8 := by simpa [liarEnd] using ha
    subst this
    show mrRound 9 (factor 9).1 (factor 9).2 8 = true
    decide +kernel

theorem witness_ModexpCommitWritesPower :
    let s := inFlight [] (.modexp 3 0 1 2) (.power powerEnd) true
    s.seq = .busy ⟨.modexp 3 0 1 2, .power powerEnd, true⟩ ∧ 0 < s.effort ∧ powerEnd.Inv ∧
      Fits s.params powerEnd.m ∧ powerEnd.rem = 0 :=
  ⟨rfl, by decide +kernel, powerEnd_inv, ⟨by decide +kernel, by decide +kernel⟩, rfl⟩

theorem witness_ExtgcdCommitWritesTriple :
    let s := inFlight [] (.extgcd 2 3 4 0 1) (.euclid euclidEnd) true
    s.seq = .busy ⟨.extgcd 2 3 4 0 1, .euclid euclidEnd, true⟩ ∧ 0 < s.effort ∧
      ((2 : RegId) ≠ 3 ∧ (2 : RegId) ≠ 4 ∧ (3 : RegId) ≠ 4) ∧ euclidEnd.Inv ∧
      Fits s.params euclidEnd.a ∧ Fits s.params euclidEnd.b ∧ euclidEnd.r1 = 0 :=
  ⟨rfl, by decide +kernel, by decide, euclidEnd_inv, ⟨by decide +kernel, by decide +kernel⟩,
    ⟨by decide +kernel, by decide +kernel⟩, by decide +kernel⟩

/-- Both clauses: an invertible operand and one that is not. -/
theorem witness_ModinvCommitWritesInverse :
    let s := inFlight [] (.modinv 5 0 1) (.euclid inverseEnd) true
    let t := inFlight [] (.modinv 5 0 1) (.euclid notInvertibleEnd) true
    (s.seq = .busy ⟨.modinv 5 0 1, .euclid inverseEnd, true⟩ ∧ 0 < s.effort ∧ inverseEnd.Inv ∧
      0 < inverseEnd.b ∧ Fits s.params inverseEnd.b ∧ inverseEnd.r1 = 0 ∧
      Int.gcd inverseEnd.a inverseEnd.b = 1) ∧
    (t.seq = .busy ⟨.modinv 5 0 1, .euclid notInvertibleEnd, true⟩ ∧ 0 < t.effort ∧
      notInvertibleEnd.Inv ∧ 0 < notInvertibleEnd.b ∧ Fits t.params notInvertibleEnd.b ∧
      notInvertibleEnd.r1 = 0 ∧ Int.gcd notInvertibleEnd.a notInvertibleEnd.b ≠ 1) :=
  ⟨⟨rfl, by decide +kernel, inverseEnd_inv, by decide +kernel,
      ⟨by decide +kernel, by decide +kernel⟩, by decide +kernel, by decide +kernel⟩,
    ⟨rfl, by decide +kernel, notInvertibleEnd_inv, by decide +kernel,
      ⟨by decide +kernel, by decide +kernel⟩, by decide +kernel, by decide +kernel⟩⟩

theorem witness_MrtestCommitWritesVerdict :
    let s := inFlight [] (.mrtest 3 0 1) (.primality (liarEnd none)) true
    s.seq = .busy ⟨.mrtest 3 0 1, .primality (liarEnd none), true⟩ ∧ 0 < s.effort ∧
      (liarEnd none).Inv ∧ (liarEnd none).rounds = roundCount 1 ∧
      (liarEnd none).phase = .verdict true :=
  ⟨rfl, by decide +kernel, liarEnd_inv _ (.inl rfl), rfl, rfl⟩

theorem witness_MrroundCommitWritesVerdict :
    let s := inFlight [] (.mrround 2 0 1) (.primality (liarEnd (some 8))) true
    s.seq = .busy ⟨.mrround 2 0 1, .primality (liarEnd (some 8)), true⟩ ∧ 0 < s.effort ∧
      (liarEnd (some 8)).Inv ∧ (liarEnd (some 8)).given = some 8 ∧
      (liarEnd (some 8)).phase = .verdict true :=
  ⟨rfl, by decide +kernel, liarEnd_inv _ (.inr rfl), rfl, rfl⟩

/-! The whole runs. -/

theorem withRegs_sized (values : List (RegId × Int)) : (withRegs values).RegsSized :=
  State.regsSized_writeDests _ (by intro r; simp [State.reset, State.resetOf]) values

theorem submitting_sized (values : List (RegId × Int)) (w : Word) :
    (submitting values w).RegsSized := withRegs_sized values

theorem witness_ModexpRunCompletes :
    let s := submitting [(2, 1)] 0x00210301
    Submits s 0x00210301 [] ∧ s.RegsSized ∧
      decode 0x00210301 = .ok (.modexp 3 0 1 2) ∧ 0 ≤ s.x 0 ∧ 0 ≤ s.x 1 ∧ 0 < s.x 2 :=
  ⟨submitting_submits _ _, submitting_sized _ _, by decide, by decide +kernel,
    by decide +kernel, by decide +kernel⟩

theorem witness_ExtgcdRunCompletes :
    let s := submitting [(0, 240), (1, 46)] 0x01043202
    Submits s 0x01043202 [] ∧ s.RegsSized ∧
      decode 0x01043202 = .ok (.extgcd 2 3 4 0 1) ∧ 0 ≤ s.x 0 ∧ 0 ≤ s.x 1 :=
  ⟨submitting_submits _ _, submitting_sized _ _, by decide, by decide +kernel,
    by decide +kernel⟩

/-- Both clauses. -/
theorem witness_ModinvRunCompletes :
    let s := submitting [(0, 5), (1, 14)] 0x00010503
    let t := submitting [(0, 4), (1, 8)] 0x00010503
    (Submits s 0x00010503 [] ∧ s.RegsSized ∧ 0 ≤ s.x 0 ∧ 0 < s.x 1 ∧
      Int.gcd (s.x 0) (s.x 1) = 1) ∧
    (Submits t 0x00010503 [] ∧ t.RegsSized ∧ 0 ≤ t.x 0 ∧ 0 < t.x 1 ∧
      Int.gcd (t.x 0) (t.x 1) ≠ 1) ∧
    decode 0x00010503 = .ok (.modinv 5 0 1) :=
  ⟨⟨submitting_submits _ _, submitting_sized _ _, by decide +kernel,
      by decide +kernel, by decide +kernel⟩,
    ⟨submitting_submits _ _, submitting_sized _ _, by decide +kernel,
      by decide +kernel, by decide +kernel⟩, by decide⟩

/-- An odd n with the witnesses 8 and 2, and the special n = 2, whose witnesses need not be legal. -/
theorem witness_MrtestRunCompletes :
    let s := submitting [(0, 9)] 0x00200304
    let t := submitting [(0, 2)] 0x00200304
    (Submits s 0x00200304 [] ∧ s.RegsSized ∧ ∀ a ∈ [8, 2], LegalWitness (s.x 0) a) ∧
    (Submits t 0x00200304 [] ∧ t.RegsSized ∧ t.x 0 % 2 ≠ 1) ∧
    decode 0x00200304 = .ok (.mrtest 3 0 2) ∧ [8, 2].length = roundCount 2 := by
  have h : (submitting [(0, 9)] 0x00200304).x 0 = 9 := by decide +kernel
  refine ⟨⟨submitting_submits _ _, submitting_sized _ _, ?_⟩,
    ⟨submitting_submits _ _, submitting_sized _ _, by decide +kernel⟩,
    by decide, rfl⟩
  rw [h]
  simp [LegalWitness]

theorem witness_MrroundRunCompletes :
    let s := submitting [(0, 3), (1, 2)] 0x00010205
    Submits s 0x00010205 [] ∧ s.RegsSized ∧
      decode 0x00010205 = .ok (.mrround 2 0 1) ∧ LegalWitness (s.x 0) (s.x 1) :=
  ⟨submitting_submits _ _, submitting_sized _ _, by decide,
    ⟨by decide +kernel, by decide +kernel⟩⟩

/-! The invariants and the whole-machine rules. -/

/-- In flight on the trace of 4^13 mod 497, its result known. -/
def committing : State := inFlight [(0, 4), (1, 13), (2, 497)] (.modexp 3 0 1 2) (.power powerEnd) true

theorem committing_inv : committing.Inv where
  regs_sized := withRegs_sized _
  errinfo_agrees := rfl
  busy_clean := fun _ => ⟨rfl, rfl⟩
  busy_job := by
    intro job h
    injection h with h
    subst h
    exact ⟨by decide, powerEnd_inv, ⟨by decide +kernel, by decide +kernel⟩,
      ⟨by decide +kernel, by decide +kernel⟩, ⟨by decide +kernel, by decide +kernel⟩⟩
  rst_held := by
    intro h
    exact absurd h (by decide +kernel)

theorem witness_InvariantKeptByEveryStep : committing.Inv ∧ ∃ t, step committing = .next t :=
  ⟨committing_inv, _, rfl⟩

theorem witness_EveryCompletionIsRight :
    committing.Inv ∧ committing.seq = .busy ⟨.modexp 3 0 1 2, .power powerEnd, true⟩ ∧
      ∃ t, step committing = .next t ∧ t.done = true := ⟨committing_inv, rfl, _, rfl, rfl⟩

theorem witness_DoneAndBusyNeverTogether :
    NotDoneWhileBusy committing ∧ ∃ t, step committing = .next t :=
  ⟨by rintro ⟨h, -⟩; exact absurd h (by decide), _, rfl⟩

/-- Each way a register changes. -/
theorem witness_RegistersChangeOnlyByTheirWriters :
    (∃ t, step (about [] (wr 0x1000 5)) = .next t ∧ t.regs[0] ≠ (about [] (wr 0x1000 5)).regs[0]) ∧
    (∃ t, step committing = .next t ∧ t.regs[3] ≠ committing.regs[3]) ∧
    (∃ t, step (about [(0, 5)] (.rst true)) = .next t ∧
      t.regs[0] ≠ (about [(0, 5)] (.rst true)).regs[0]) ∧
    (∃ t, step (about [(0, 5)] (wr 0x0008 2)) = .next t ∧
      t.regs[0] ≠ (about [(0, 5)] (wr 0x0008 2)).regs[0]) :=
  ⟨⟨_, rfl, by decide +kernel⟩, ⟨_, rfl, by decide +kernel⟩, ⟨_, rfl, by decide +kernel⟩,
    ⟨_, rfl, by decide +kernel⟩⟩

/-- Each clause: a submitted word, a reset, and neither (a CMD write refused while BUSY). -/
theorem witness_LastcmdIsTheLastAcceptedWord :
    (Submits (submitting [] 0) 0 [] ∧ ∃ t, step (submitting [] 0) = .next t) ∧
    (Resets (about [] (wr 0x0008 2)) ∧ ∃ t, step (about [] (wr 0x0008 2)) = .next t) ∧
    (let s := { committing with schedule := [wr 0x10 0x00210301] }
     (¬∃ w rest, Submits s w rest) ∧ ¬Resets s ∧ ∃ t, step s = .next t) := by
  refine ⟨⟨submitting_submits _ _, _, rfl⟩,
    ⟨.inr (.inr ⟨2, [], by decide, rfl⟩), _, rfl⟩, ?_, ?_, _, rfl⟩
  · rintro ⟨w, rest, -, h, -⟩
    cases h
  · rintro (h | ⟨rest, h⟩ | ⟨v, rest, -, h⟩)
    · exact absurd h (by decide +kernel)
    · injection h with h; cases h
    · injection h with h
      injection h with h
      exact absurd h (by decide +kernel)

/-- The accept step of a word; IDLE, and in flight on the command. -/
theorem witness_CommandWritesNothingElse :
    State.reset.seq = .idle ∧
    (∀ job, State.reset.seq = .busy job → job.cmd = .modexp 3 0 1 2) ∧
    (∀ job, committing.seq = .busy job → job.cmd = .modexp 3 0 1 2) := by
  refine ⟨rfl, ?_, ?_⟩
  · intro job h; cases h
  · intro job h; injection h with h; subst h; rfl

/-- Each of the three grounds. -/
theorem witness_ComputeStepIsInvisible :
    let fresh : Job := ⟨.modexp 3 0 1 2, .power powerEnd, false⟩
    let running : Job := ⟨.modexp 3 0 1 2, .power (PowerWork.init 4 13 497), true⟩
    ({ committing with seq := .busy fresh }).seq = .busy fresh ∧ fresh.stepped = false ∧
    ({ committing with seq := .busy running }).seq = .busy running ∧
      running.work.finished = false ∧
    ({ committing with effort := 0 }).effort = 0 := by decide +kernel

/-- MRTEST of 65537 waiting for its first witness (program P4). -/
def waiting (e : Event) : State :=
  { inFlight [(0, 65537)] (.mrtest 1 0 0)
      (.primality ⟨65537, 16, none, 1, 16, 0, 0, [], .awaiting⟩) true with schedule := [e] }

/-- Each alternative: still waiting, answered at 2 and at n - 1, between steps and within one, reset. -/
theorem witness_WitnessRequestWaits :
    (∀ e, (waiting e).witnessRequest = some 65537) ∧
    (∃ t, step (waiting (.engine 9 [])) = .next t) ∧ (∃ t, step (waiting (.witness 2)) = .next t) ∧
    (∃ t, step (waiting (.witness 65536)) = .next t) ∧
    (∃ t, step (waiting (.engine 1 [2])) = .next t ∧ t.witnessRequest = none) ∧
    (∃ t, step (waiting (wr 0x0008 2)) = .next t) :=
  ⟨fun _ => rfl, ⟨_, rfl⟩, ⟨_, rfl⟩, ⟨_, rfl⟩, ⟨_, rfl, rfl⟩, ⟨_, rfl⟩⟩

theorem witness_ResultsStayUntilWritten :
    let s := about [] (.read 0x1000)
    s.seq = .idle ∧ s.rst = false ∧ (∃ t, step s = .next t) ∧
      (∀ addr v strb rest, s.schedule ≠ .write addr v strb :: rest) ∧
      (∀ rest, s.schedule ≠ .rst true :: rest) := by
  refine ⟨rfl, rfl, ⟨_, rfl⟩, ?_, ?_⟩
  · intro addr v strb rest h; injection h with h; cases h
  · intro rest h; injection h with h; cases h

/-! The host port. -/

/-- The window's first and last word, and the first and last offset of each refused range. -/
theorem witness_ReadsReturnTheMap :
    0 < State.reset.params.wpr ∧ 3 < State.reset.params.wpr ∧
    (0x0002 % 4 ≠ 0) ∧ (0x0018 ≤ 0x0018 ∧ 0x0018 < 0x1000) ∧ (0x0018 ≤ 0x0FFC ∧ 0x0FFC < 0x1000) ∧
    0x1000 + 32 * State.reset.params.wpr ≤ 0x1080 := by decide

theorem witness_RefusedAccessesSetAccerr :
    (0x1#4 ≠ 0xF) ∧ (0x0001 % 4 ≠ 0) ∧ (0x0018 ≤ 0x0018 ∧ 0x0018 < 0x1000) ∧
    0x1000 + 32 * State.reset.params.wpr ≤ 0x1FFC := by decide

theorem witness_SoftResetClearsEverything : (0x3#32).getLsbD 1 = true := by decide

theorem witness_CtrlWriteSetsInterruptEnable :
    (0x1#32).getLsbD 1 = false ∧ (0xFFFFFFFC#32).getLsbD 1 = false := by decide

theorem witness_HardwareResetHoldsTheBlock :
    (about [] (.rst true)).schedule = [.rst true] ∧
    (let s := { about [] (.read 0) with rst := true }
     s.rst = true ∧ ∀ rest, s.schedule ≠ .rst false :: rest) ∧
    (let s := { about [] (.rst false) with rst := true }
     s.rst = true ∧ s.schedule = [.rst false]) := by
  refine ⟨rfl, ⟨rfl, ?_⟩, rfl, rfl⟩
  intro rest h; injection h with h; cases h

/-- Both clauses, at the first and the last word. -/
theorem witness_WindowWriteReplacesOneWord :
    (0 < State.reset.params.wpr ∧ 3 < State.reset.params.wpr) ∧
    State.reset.seq = .idle ∧ State.reset.RegsSized ∧ committing.busy = true :=
  ⟨by decide, rfl, withRegs_sized [], rfl⟩

theorem witness_WindowReadAtAnyTime :
    let s := { committing with schedule := [.read 0x107C] }
    3 < s.params.wpr ∧ s.rst = false ∧
      s.schedule = [.read (s.params.base + (0x1000 + 4 * (7 * s.params.wpr + 3)))] := by
  decide +kernel

theorem witness_CommandWhileBusyIsRefused :
    committing.seq = .busy ⟨.modexp 3 0 1 2, .power powerEnd, true⟩ := rfl

/-- The most negative and the most positive value. -/
theorem witness_LdrLoadsTheValue :
    let s := { State.reset with schedule := hostLdr Params.default 7 (-2 ^ 127) }
    s.seq = .idle ∧ s.rst = false ∧ s.RegsSized ∧ Fits s.params (-2 ^ 127) ∧
      Fits s.params (2 ^ 127 - 1) ∧ s.schedule = hostLdr s.params 7 (-2 ^ 127) ++ [] :=
  ⟨rfl, rfl, withRegs_sized [], ⟨by decide +kernel, by decide +kernel⟩,
    ⟨by decide +kernel, by decide +kernel⟩, by simp; rfl⟩

/-- Each clause: a legal answer at 2 and at n - 1, an answer at 1 and at n, no request. -/
theorem witness_WitnessBeginsTheRound :
    (∀ a, (waiting (.witness a)).rst = false ∧ (waiting (.witness a)).schedule = [.witness a] ∧
      (waiting (.witness a)).seq = .busy ⟨.mrtest 1 0 0,
        .primality ⟨65537, 16, none, 1, 16, 0, 0, [], .awaiting⟩, true⟩) ∧
    ((2 : Int) ≤ 2 ∧ (65536 : Int) ≤ 65537 - 1) ∧ ((1 : Int) < 2 ∧ (65537 : Int) - 1 < 65537) ∧
    (about [] (.witness 2)).witnessRequest = none :=
  ⟨fun _ => ⟨rfl, rfl, rfl⟩, by decide, by decide, rfl⟩

/-- The first and the last offset of the aperture, read and written. -/
theorem witness_StepPerformsHostAccess :
    (about [] (.read 0)).rst = false ∧ 0 < 0x2000 ∧ 0x1FFF < 0x2000 ∧
    (about [] (.read 0)).schedule = [.read ((about [] (.read 0)).params.base + 0)] ∧
    (about [] (.write 0x1FFF 5 1)).schedule =
      [.write ((about [] (.write 0x1FFF 5 1)).params.base + 0x1FFF) 5 1] := by decide +kernel

/-- A reset machine with every flag set, about to take this event. -/
def flagged (e : Event) : State :=
  { about [] e with
    accerr := true, cmdovr := true, done := true, err := .notInvertible, ie := true }

/-- Each clause: each flag set, each flag cleared, the code changed, IE changed. -/
theorem witness_FlagsChangeOnlyByTheirCauses :
    (∃ t, step (about [] (.read 0x0002)) = .next t ∧ t.accerr = true ∧
      (about [] (.read 0x0002)).accerr = false) ∧
    (∃ t, step (flagged (wr 0x000C 4)) = .next t ∧ t.accerr = false) ∧
    (∃ t, step (waiting (wr 0x0010 0)) = .next t ∧ t.cmdovr = true ∧
      (waiting (wr 0x0010 0)).cmdovr = false) ∧
    (∃ t, step (flagged (wr 0x000C 8)) = .next t ∧ t.cmdovr = false) ∧
    (∃ t, step committing = .next t ∧ t.done = true ∧ committing.done = false) ∧
    (∃ t, step (flagged (wr 0x000C 2)) = .next t ∧ t.done = false) ∧
    (∃ t, step (flagged (wr 0x0010 0)) = .next t ∧ t.err ≠ (flagged (wr 0x0010 0)).err) ∧
    (∃ t, step (flagged (wr 0x0008 0)) = .next t ∧ t.ie ≠ (flagged (wr 0x0008 0)).ie) :=
  ⟨⟨_, rfl, rfl, rfl⟩, ⟨_, rfl, rfl⟩, ⟨_, rfl, rfl, rfl⟩, ⟨_, rfl, rfl⟩, ⟨_, rfl, rfl, rfl⟩,
    ⟨_, rfl, rfl⟩, ⟨_, rfl, by decide +kernel⟩, ⟨_, rfl, by decide +kernel⟩⟩

/-- A command that commits. -/
theorem witness_OnlyAWitnessRequestHoldsACommand :
    committing.Inv ∧ committing.seq = .busy ⟨.modexp 3 0 1 2, .power powerEnd, true⟩ ∧
      committing.schedule = [] := ⟨committing_inv, rfl, rfl⟩

/-- An MRTEST on an odd n whose one compute step takes both answers, and a special n. -/
theorem witness_EveryEngineStepCountIsReached :
    let s := submitting [(0, 9)] 0x00200304
    let t := submitting [(0, 2)] 0x00200304
    (Submits s 0x00200304 [] ∧ s.RegsSized ∧ failingSlot s (.mrtest 3 0 2) = none ∧
      ∀ a ∈ [8, 2], LegalWitness (s.x 0) a) ∧
    (Submits t 0x00200304 [] ∧ t.RegsSized ∧ failingSlot t (.mrtest 3 0 2) = none ∧ t.x 0 % 2 ≠ 1) ∧
    decode 0x00200304 = .ok (.mrtest 3 0 2) ∧ [8, 2].length = roundCount 2 ∧ 1 ≤ 1 := by
  have h : (submitting [(0, 9)] 0x00200304).x 0 = 9 := by decide +kernel
  refine ⟨⟨submitting_submits _ _, submitting_sized _ _, rfl, ?_⟩,
    ⟨submitting_submits _ _, submitting_sized _ _, rfl, by decide +kernel⟩, by decide, rfl, by decide⟩
  rw [h]
  simp [LegalWitness]

/-! The algorithms. -/

theorem witness_ModexpIsPowerMod : (0 : Int) ≤ 0 ∧ (0 : Int) < 1 := by decide
theorem witness_ExtgcdRecursion : (0 : Int) ≤ 0 ∧ (0 : Int) ≤ 240 ∧ (0 : Int) ≤ 46 := by decide
theorem witness_ExtgcdIterativeIsRecursive : (0 : Int) ≤ 7 ∧ (0 : Int) ≤ 0 := by decide

theorem witness_ExtgcdIsBezout :
    (0 : Int) ≤ 240 ∧ (0 : Int) ≤ 46 ∧ (46 : Int) ≠ 0 ∧ (46 : Int).toNat + 1 ≤ 47 := by decide

theorem witness_ModinvIsTheInverse :
    ((0 : Int) ≤ 0 ∧ (0 : Int) < 1 ∧ Int.gcd 0 1 = 1) ∧
    ((0 : Int) ≤ 5 ∧ (2 : Int) ≤ 14 ∧ Int.gcd 5 14 = 1) := by decide +kernel

theorem witness_ResultsFitTheRegisters :
    State.reset.RegsSized ∧ (Fits Params.default 0 ∧ Fits Params.default 1) ∧
    Fits Params.default (2 ^ 127 - 1) :=
  ⟨withRegs_sized [], ⟨⟨by decide +kernel, by decide +kernel⟩, by decide +kernel, by decide +kernel⟩,
    by decide +kernel, by decide +kernel⟩

theorem witness_SpecialCasesAndFactor : (3 : Int) % 2 = 1 ∧ (3 : Int) ≤ 3 := by decide

/-- The least n, at both ends of the witness range. -/
theorem witness_RoundPassesExactlyWhen :
    (3 : Int) % 2 = 1 ∧ (3 : Int) ≤ 3 ∧ LegalWitness 3 2 ∧ LegalWitness 9 8 ∧ LegalWitness 9 2 :=
  ⟨by decide, by decide, ⟨by decide, by decide⟩, ⟨by decide, by decide⟩, by decide, by decide⟩

/-- A special n; an n whose second round fails, after a first that passes. -/
theorem witness_RoundsShortCircuit :
    special 2 = some true ∧ special 9 = none ∧ 2 ≤ [(8 : Int), 2].length ∧ 1 < 2 ∧
    mrRound 9 (factor 9).1 (factor 9).2 ([(8 : Int), 2].getD 1 0) = false ∧
    mrRound 9 (factor 9).1 (factor 9).2 8 = true := by decide +kernel

/-- Each clause: a prime with a legal witness, a verdict 0, an odd n at 3, an odd composite. -/
theorem witness_VerdictProperties :
    (Nat.Prime 3 ∧ 1 ≤ [(2 : Int)].length ∧ LegalWitness (3 : Nat) 2) ∧
    (LegalWitness 9 2 ∧ mr 9 1 [2] = some false) ∧
    ((3 : Int) % 2 = 1 ∧ (3 : Int) ≤ 3) ∧ (9 % 2 = 1 ∧ 3 ≤ 9 ∧ ¬Nat.Prime 9) :=
  ⟨⟨by norm_num, by decide, by decide, by decide⟩, ⟨⟨by decide, by decide⟩, by decide +kernel⟩,
    by decide, by decide, by decide, by norm_num⟩

end Sys2Proof.Tests
end

namespace Sys2Proof.Machine

/-! ## The loops of the algorithms, for the runs of whole commands

Each loop keeps an invariant, is the identity once it has ended, and ends. -/

/-! ### Square and multiply (R140, R143) -/

theorem PowerWork.iterate_of_finished {w : PowerWork} (h : w.finished = true) : w.iterate = w :=
  if_pos h

/-- What a pass of a loop that has not ended leaves (R140). -/
theorem PowerWork.iterate_of_pos {w : PowerWork} (h : 0 < w.rem) :
    w.iterate = { w with
      result := if w.rem % 2 = 1 then w.result * w.base % w.m else w.result
      base := w.base * w.base % w.m
      rem := w.rem / 2 } := by
  have hf : ¬w.finished = true := by rw [PowerWork.finished_iff]; omega
  simp [PowerWork.iterate, hf]

theorem PowerWork.inv_init {b e m : Int} (hb : 0 ≤ b) (he : 0 ≤ e) (hm : 0 < m) :
    (PowerWork.init b e m).Inv where
  b_nonneg := hb
  e_nonneg := he
  m_pos := hm
  result_nonneg := Int.emod_nonneg _ hm.ne'
  result_lt := Int.emod_lt_of_pos _ hm
  base_nonneg := Int.emod_nonneg _ hm.ne'
  base_lt := Int.emod_lt_of_pos _ hm
  rem_nonneg := he
  power := by
    have h := (Int.mod_modEq 1 m).mul ((Int.mod_modEq b m).pow e.toNat)
    rwa [one_mul] at h

/-- R143: a pass turns result · base^rem into the same value mod m, the exponent halved. -/
theorem PowerWork.power_of_half (result base rem m : Int) (h : 0 ≤ rem) :
    (if rem % 2 = 1 then result * base % m else result) * (base * base % m) ^ (rem / 2).toNat
      ≡ result * base ^ rem.toNat [ZMOD m] := by
  have hsq : (base * base % m) ^ (rem / 2).toNat ≡ (base * base) ^ (rem / 2).toNat [ZMOD m] :=
    (Int.mod_modEq _ _).pow _
  rcases Int.emod_two_eq_zero_or_one rem with h0 | h1
  · have hn : rem.toNat = 2 * (rem / 2).toNat := by omega
    rw [if_neg (by omega), hn, pow_mul, sq]
    exact (Int.ModEq.refl _).mul hsq
  · have hn : rem.toNat = 2 * (rem / 2).toNat + 1 := by omega
    rw [if_pos h1, hn, pow_succ', pow_mul, sq, ← mul_assoc]
    exact (Int.mod_modEq _ _).mul hsq

theorem PowerWork.Inv.iterate {w : PowerWork} (h : w.Inv) : w.iterate.Inv := by
  by_cases hf : w.finished = true
  · rwa [PowerWork.iterate_of_finished hf]
  · have hpos : 0 < w.rem := by rw [PowerWork.finished_iff] at hf; omega
    have hm := h.m_pos
    rw [PowerWork.iterate_of_pos hpos]
    exact {
      b_nonneg := h.b_nonneg
      e_nonneg := h.e_nonneg
      m_pos := hm
      result_nonneg := by
        dsimp only; split
        · exact Int.emod_nonneg _ hm.ne'
        · exact h.result_nonneg
      result_lt := by
        dsimp only; split
        · exact Int.emod_lt_of_pos _ hm
        · exact h.result_lt
      base_nonneg := Int.emod_nonneg _ hm.ne'
      base_lt := Int.emod_lt_of_pos _ hm
      rem_nonneg := by dsimp only; omega
      power := (PowerWork.power_of_half _ _ _ _ h.rem_nonneg).trans h.power }

theorem PowerWork.Inv.run {w : PowerWork} (h : w.Inv) (n : Nat) : (PowerWork.run n w).Inv := by
  induction n generalizing w with
  | zero => exact h
  | succ n ih => exact ih h.iterate

/-- The latched operands stay through the loop. -/
theorem PowerWork.run_operands (n : Nat) (w : PowerWork) :
    (PowerWork.run n w).b = w.b ∧ (PowerWork.run n w).e = w.e ∧ (PowerWork.run n w).m = w.m := by
  induction n generalizing w with
  | zero => exact ⟨rfl, rfl, rfl⟩
  | succ n ih =>
    obtain ⟨hb, he, hm⟩ := ih w.iterate
    have hi : w.iterate.b = w.b ∧ w.iterate.e = w.e ∧ w.iterate.m = w.m := by
      unfold PowerWork.iterate; split <;> exact ⟨rfl, rfl, rfl⟩
    exact ⟨hb.trans hi.1, he.trans hi.2.1, hm.trans hi.2.2⟩

/-- A loop whose exponent is below 2^n has ended after n passes (R144). -/
theorem PowerWork.run_finished (n : Nat) (w : PowerWork) (h : w.rem < 2 ^ n) :
    (PowerWork.run n w).finished = true := by
  induction n generalizing w with
  | zero => rw [PowerWork.run, PowerWork.finished_iff]; omega
  | succ n ih =>
    refine ih _ ?_
    by_cases hf : w.finished = true
    · rw [PowerWork.iterate_of_finished hf]
      rw [PowerWork.finished_iff] at hf
      have : (0 : Int) < 2 ^ n := by positivity
      omega
    · have hpos : 0 < w.rem := by rw [PowerWork.finished_iff] at hf; omega
      rw [PowerWork.iterate_of_pos hpos]
      dsimp only
      rw [pow_succ] at h
      omega

/-- BITLEN is enough bits (R13, R14). -/
theorem Apu.lt_two_pow_bitlen (a : Int) : a < 2 ^ Apu.bitlen a := by
  unfold Apu.bitlen
  split
  · omega
  · have h := Nat.lt_log2_self (n := a.toNat)
    have hc : ((a.toNat : Nat) : Int) < ((2 ^ (a.toNat.log2 + 1) : Nat) : Int) := by exact_mod_cast h
    push_cast at hc
    omega

/-- At the loop's end the result is b^e mod m (R143). -/
theorem PowerWork.Inv.result_eq {w : PowerWork} (h : w.Inv) (hf : w.finished = true) :
    w.result = w.b ^ w.e.toNat % w.m := by
  have hr : w.rem = 0 := le_antisymm (w.finished_iff.1 hf) h.rem_nonneg
  have hp := h.power
  rwa [hr, Int.toNat_zero, pow_zero, mul_one, Int.emod_eq_of_lt h.result_nonneg h.result_lt] at hp

/-- R143: the loop of R140 computes b^e mod m. -/
theorem modexp_eq_pow_mod {b e m : Int} (hb : 0 ≤ b) (he : 0 ≤ e) (hm : 0 < m) :
    modexp b e m = b ^ e.toNat % m := by
  have h := ((PowerWork.inv_init hb he hm).run (Apu.bitlen e)).result_eq
    (PowerWork.run_finished _ _ (Apu.lt_two_pow_bitlen e))
  obtain ⟨hb', he', hm'⟩ := PowerWork.run_operands (Apu.bitlen e) (PowerWork.init b e m)
  rwa [hb', he', hm'] at h

/-! ### Extended Euclid (R160, R161, R163) -/

/-- R160's recursion with a divisor of 0. -/
@[simp] theorem extgcdDepth_zero_right (depth : Nat) (a : Int) :
    extgcdDepth depth a 0 = (a, 1, 0) := by
  cases depth <;> simp [extgcdDepth, Apu.cmp_eq_zero]

/-- R160's recursion with a divisor other than 0. -/
theorem extgcdDepth_succ (depth : Nat) (a : Int) {b : Int} (hb : b ≠ 0) :
    extgcdDepth (depth + 1) a b =
      ((extgcdDepth depth b (a % b)).1, (extgcdDepth depth b (a % b)).2.2,
        (extgcdDepth depth b (a % b)).2.1 - a / b * (extgcdDepth depth b (a % b)).2.2) := by
  simp [extgcdDepth, Apu.cmp_eq_zero, hb]

/-- R163: a recursion deeper than b changes nothing, since the remainders decrease. -/
theorem extgcdDepth_eq_of_lt (d d' : Nat) (a b : Int) (hb : 0 ≤ b) (hd : b < d) (hd' : b < d') :
    extgcdDepth d a b = extgcdDepth d' a b := by
  induction d generalizing d' a b with
  | zero => omega
  | succ d ih =>
    cases d' with
    | zero => omega
    | succ d' =>
      by_cases h0 : b = 0
      · simp [h0]
      · have hlo := Int.emod_nonneg a h0
        have hhi := Int.emod_lt_of_pos a (by omega : 0 < b)
        rw [extgcdDepth_succ d a h0, extgcdDepth_succ d' a h0,
          ih d' b (a % b) hlo (by omega) (by omega)]

@[simp] theorem extgcd_zero_right (a : Int) : extgcd a 0 = (a, 1, 0) := extgcdDepth_zero_right _ a

/-- R160's recursion, its depth no longer in sight. -/
theorem extgcd_of_pos (a : Int) {b : Int} (hb : 0 < b) :
    extgcd a b = ((extgcd b (a % b)).1, (extgcd b (a % b)).2.2,
      (extgcd b (a % b)).2.1 - a / b * (extgcd b (a % b)).2.2) := by
  have hlo := Int.emod_nonneg a hb.ne'
  have hhi := Int.emod_lt_of_pos a hb
  have hd : extgcdDepth b.toNat b (a % b) = extgcd b (a % b) :=
    extgcdDepth_eq_of_lt _ _ _ _ hlo (by omega) (by omega)
  rw [extgcd, extgcdDepth_succ _ _ hb.ne', hd]

/-- The induction along R160's recursion: down the remainders to a divisor of 0. -/
theorem euclid_induction {P : (a b : Int) → 0 ≤ a → 0 ≤ b → Prop}
    (zero : ∀ a (ha : 0 ≤ a), P a 0 ha le_rfl)
    (step : ∀ a b (ha : 0 ≤ a) (hb : 0 < b),
      P b (a % b) hb.le (Int.emod_nonneg a hb.ne') → P a b ha hb.le)
    (a b : Int) (ha : 0 ≤ a) (hb : 0 ≤ b) : P a b ha hb := by
  rcases hb.eq_or_lt with rfl | hpos
  · exact zero a ha
  · have hhi := Int.emod_lt_of_pos a hpos
    exact step a b ha hpos (euclid_induction zero step b (a % b) hb (Int.emod_nonneg a hpos.ne'))
termination_by b.toNat
decreasing_by omega

/-- R163: the first component is the gcd. -/
theorem extgcd_fst_eq_gcd {a b : Int} (ha : 0 ≤ a) (hb : 0 ≤ b) :
    (extgcd a b).1 = Int.gcd a b := by
  induction a, b, ha, hb using euclid_induction with
  | zero a ha => simp [abs_of_nonneg ha]
  | step a b ha hb ih => rw [extgcd_of_pos a hb, ih, Int.gcd_comm b, Int.gcd_emod]

/-- R163: Bézout's identity. -/
theorem extgcd_bezout {a b : Int} (ha : 0 ≤ a) (hb : 0 ≤ b) :
    a * (extgcd a b).2.1 + b * (extgcd a b).2.2 = (extgcd a b).1 := by
  induction a, b, ha, hb using euclid_induction with
  | zero a ha => simp
  | step a b ha hb ih =>
    rw [extgcd_of_pos a hb]
    linear_combination ih - (extgcd b (a % b)).2.2 * Int.mul_ediv_add_emod a b

/-- R163: each coefficient is bounded by the other operand. -/
theorem extgcd_coeff_bounds {a b : Int} (ha : 0 ≤ a) (hb : 0 ≤ b) :
    |(extgcd a b).2.1| ≤ max b 1 ∧ |(extgcd a b).2.2| ≤ max a 1 := by
  induction a, b, ha, hb using euclid_induction with
  | zero a ha => simp
  | step a b ha hb ih =>
    obtain ⟨hx, hy⟩ := ih
    have hlo := Int.emod_nonneg a hb.ne'
    have hdm := Int.mul_ediv_add_emod a b
    have hq : 0 ≤ a / b := Int.ediv_nonneg ha hb.le
    rw [extgcd_of_pos a hb]
    dsimp only
    refine ⟨hy, ?_⟩
    by_cases hr : a % b = 0
    · rw [hr, extgcd_zero_right]
      simp
    · have habs : |a / b * (extgcd b (a % b)).2.2| = a / b * |(extgcd b (a % b)).2.2| := by
        rw [abs_mul, abs_of_nonneg hq]
      calc |(extgcd b (a % b)).2.1 - a / b * (extgcd b (a % b)).2.2|
          ≤ |(extgcd b (a % b)).2.1| + a / b * |(extgcd b (a % b)).2.2| := habs ▸ abs_sub _ _
        _ ≤ a % b + a / b * b := by
            rw [max_eq_left (by omega)] at hx hy
            exact add_le_add hx (mul_le_mul_of_nonneg_left hy hq)
        _ = a := by rw [mul_comm]; omega
        _ ≤ max a 1 := le_max_left _ _

theorem EuclidWork.iterate_of_finished {w : EuclidWork} (h : w.finished = true) : w.iterate = w :=
  if_pos h

/-- What a pass of a loop that has not ended leaves (R161). -/
theorem EuclidWork.iterate_of_ne {w : EuclidWork} (h : w.r1 ≠ 0) :
    w.iterate = { w with
      r0 := w.r1, r1 := w.r0 % w.r1
      s0 := w.s1, s1 := w.s0 - w.r0 / w.r1 * w.s1
      t0 := w.t1, t1 := w.t0 - w.r0 / w.r1 * w.t1
      q := w.r0 / w.r1 } := by
  have hf : ¬w.finished = true := by rwa [EuclidWork.finished_iff]
  simp [EuclidWork.iterate, hf]

theorem EuclidWork.inv_init {a b : Int} (ha : 0 ≤ a) (hb : 0 ≤ b) : (EuclidWork.init a b).Inv where
  a_nonneg := ha
  b_nonneg := hb
  r0_nonneg := ha
  r1_nonneg := hb
  triple := by simp [EuclidWork.init]

theorem EuclidWork.Inv.iterate {w : EuclidWork} (h : w.Inv) : w.iterate.Inv := by
  by_cases h0 : w.r1 = 0
  · rwa [EuclidWork.iterate_of_finished (w.finished_iff.2 h0)]
  · have hpos : 0 < w.r1 := lt_of_le_of_ne h.r1_nonneg (Ne.symm h0)
    have ht := h.triple
    rw [extgcd_of_pos w.r0 hpos] at ht
    rw [EuclidWork.iterate_of_ne h0]
    exact {
      a_nonneg := h.a_nonneg
      b_nonneg := h.b_nonneg
      r0_nonneg := h.r1_nonneg
      r1_nonneg := Int.emod_nonneg _ h0
      triple := by
        dsimp only at ht ⊢
        rw [ht]
        ext1
        · rfl
        · ext1 <;> dsimp only <;> ring }

theorem EuclidWork.Inv.run {w : EuclidWork} (h : w.Inv) (n : Nat) : (EuclidWork.run n w).Inv := by
  induction n generalizing w with
  | zero => exact h
  | succ n ih => exact ih h.iterate

/-- The latched operands stay through the loop. -/
theorem EuclidWork.run_operands (n : Nat) (w : EuclidWork) :
    (EuclidWork.run n w).a = w.a ∧ (EuclidWork.run n w).b = w.b := by
  induction n generalizing w with
  | zero => exact ⟨rfl, rfl⟩
  | succ n ih =>
    obtain ⟨ha, hb⟩ := ih w.iterate
    have hi : w.iterate.a = w.a ∧ w.iterate.b = w.b := by
      unfold EuclidWork.iterate; split <;> exact ⟨rfl, rfl⟩
    exact ⟨ha.trans hi.1, hb.trans hi.2⟩

/-- The remainders decrease, so a loop with r1 ≤ n has ended after n passes (R277). -/
theorem EuclidWork.run_finished (n : Nat) (w : EuclidWork) (h0 : 0 ≤ w.r1) (h : w.r1 ≤ n) :
    (EuclidWork.run n w).finished = true := by
  induction n generalizing w with
  | zero => rw [EuclidWork.run, EuclidWork.finished_iff]; omega
  | succ n ih =>
    by_cases hz : w.r1 = 0
    · have hw : w.iterate = w := EuclidWork.iterate_of_finished (w.finished_iff.2 hz)
      rw [EuclidWork.run, hw]
      exact ih w h0 (by omega)
    · have hlt := Int.emod_lt_of_pos w.r0 (by omega : 0 < w.r1)
      have hlo := Int.emod_nonneg w.r0 hz
      rw [EuclidWork.run, EuclidWork.iterate_of_ne hz]
      exact ih _ hlo (by dsimp only; omega)

/-- At the loop's end the working state holds R160's triple. -/
theorem EuclidWork.Inv.triple_of_finished {w : EuclidWork} (h : w.Inv) (hf : w.finished = true) :
    (w.r0, w.s0, w.t0) = extgcd w.a w.b := by
  have ht := h.triple
  rw [w.finished_iff.1 hf, extgcd_zero_right] at ht
  simpa using ht.symm

/-- A loop that has ended on (a, b), having begun there, holds R160's triple for them. -/
theorem EuclidWork.run_init_triple {a b : Int} (ha : 0 ≤ a) (hb : 0 ≤ b) {n : Nat}
    (hf : (EuclidWork.run n (EuclidWork.init a b)).finished = true) :
    ((EuclidWork.run n (EuclidWork.init a b)).r0, (EuclidWork.run n (EuclidWork.init a b)).s0,
      (EuclidWork.run n (EuclidWork.init a b)).t0) = extgcd a b := by
  have h := ((EuclidWork.inv_init ha hb).run n).triple_of_finished hf
  obtain ⟨ha', hb'⟩ := EuclidWork.run_operands n (EuclidWork.init a b)
  rwa [ha', hb'] at h

/-! ### The inverse (R170, R172, R174) -/

/-- The normalised coefficient is the coefficient's floor remainder (R170). -/
theorem normaliseInverse_eq (x phi : Int) : normaliseInverse x phi = x % phi := by
  unfold normaliseInverse
  split <;> simp

/-- The normalised coefficient lies in [0, φ) (R170). -/
theorem modinv_bounds (e : Int) {phi : Int} (h : 0 < phi) :
    0 ≤ modinv e phi ∧ modinv e phi < phi := by
  rw [modinv, normaliseInverse_eq]
  exact ⟨Int.emod_nonneg _ h.ne', Int.emod_lt_of_pos _ h⟩

/-- R174: for coprime operands it is the inverse. -/
theorem mul_modinv_mod {e phi : Int} (he : 0 ≤ e) (hphi : 0 < phi) (hg : Int.gcd e phi = 1) :
    e * modinv e phi % phi = 1 % phi := by
  have hb := extgcd_bezout he hphi.le
  rw [extgcd_fst_eq_gcd he hphi.le, hg] at hb
  rw [modinv, normaliseInverse_eq]
  have hx : e * ((extgcd e phi).2.1 % phi) ≡ e * (extgcd e phi).2.1 [ZMOD phi] :=
    (Int.ModEq.refl e).mul (Int.mod_modEq _ _)
  have h1 : e * (extgcd e phi).2.1 ≡ 1 [ZMOD phi] := by
    rw [← eq_sub_iff_add_eq] at hb
    rw [hb, Int.modEq_comm, Int.modEq_iff_dvd]
    exact ⟨-(extgcd e phi).2.2, by push_cast; ring⟩
  exact hx.trans h1

end Sys2Proof.Machine

/-! ## R9: results fit the registers -/

namespace Sys2Proof.Machine

/-- A register is at least 64 bits wide (R8), so 1 is far from its bound. -/
theorem two_le_half_range (p : Params) : 2 ≤ 2 ^ (p.rw - 1) := by
  have hw := p.wpr_ge
  calc 2 = 2 ^ 1 := rfl
    _ ≤ 2 ^ (p.rw - 1) := Nat.pow_le_pow_right (by omega) (by simp only [Params.rw]; omega)

/-- A value no larger in magnitude than an operand that fits, or than 1, fits. -/
theorem fits_of_abs_le {p : Params} {c v : Int} (hc : Fits p c) (h : |v| ≤ max c 1) : Fits p v := by
  have h2 := two_le_half_range p
  obtain ⟨-, hhi⟩ := hc
  rw [abs_le] at h
  unfold Fits
  generalize 2 ^ (p.rw - 1) = N at *
  omega

theorem fits_of_nonneg_of_lt {p : Params} {m v : Int} (hm : Fits p m) (h0 : 0 ≤ v) (h : v < m) :
    Fits p v :=
  fits_of_abs_le hm (by rw [abs_of_nonneg h0]; omega)

theorem fits_verdictInt (p : Params) (prime : Bool) : Fits p (verdictInt prime) := by
  have h2 := two_le_half_range p
  unfold Fits
  generalize 2 ^ (p.rw - 1) = N at *
  cases prime <;> simp [verdictInt] <;> omega

theorem modexp_bounds {b e m : Int} (hb : 0 ≤ b) (he : 0 ≤ e) (hm : 0 < m) :
    0 ≤ modexp b e m ∧ modexp b e m < m := by
  rw [modexp_eq_pow_mod hb he hm]
  exact ⟨Int.emod_nonneg _ hm.ne', Int.emod_lt_of_pos _ hm⟩

theorem extgcd_fst_bounds {a b : Int} (ha : 0 ≤ a) (hb : 0 ≤ b) :
    0 ≤ (extgcd a b).1 ∧ (extgcd a b).1 ≤ max a b := by
  rw [extgcd_fst_eq_gcd ha hb]
  refine ⟨Int.natCast_nonneg _, ?_⟩
  rcases hb.eq_or_lt with rfl | hpos
  · rw [Int.gcd_zero_right]; omega
  · exact (Int.le_of_dvd hpos (Int.gcd_dvd_right a b)).trans (le_max_right a b)

/-- Each component of R160's triple fits where the operands do (R9). -/
theorem fits_extgcd {p : Params} {a b : Int} (ha : 0 ≤ a) (hb : 0 ≤ b) (hfa : Fits p a)
    (hfb : Fits p b) :
    Fits p (extgcd a b).1 ∧ Fits p (extgcd a b).2.1 ∧ Fits p (extgcd a b).2.2 := by
  obtain ⟨hx, hy⟩ := extgcd_coeff_bounds ha hb
  obtain ⟨h0, hg⟩ := extgcd_fst_bounds ha hb
  refine ⟨?_, fits_of_abs_le hfb hx, fits_of_abs_le hfa hy⟩
  rcases max_choice a b with hm | hm <;> rw [hm] at hg
  · exact fits_of_abs_le hfa (by rw [abs_of_nonneg h0]; omega)
  · exact fits_of_abs_le hfb (by rw [abs_of_nonneg h0]; omega)

/-- Settles O52: the registers hold values in range, each result is within its bound, and a bound by an
operand, or by 1, is a bound by the register. -/
theorem resultsFitTheRegisters : Obligations.ResultsFitTheRegisters := by
  refine ⟨fun s hs r => s.fits_x hs r, fun b e m => modexp_bounds, fun a b ha hb => ?_,
    fun e phi _ => modinv_bounds e, fun prime => ?_, fun p a b m hfa hfb hfm ha hb hm => ?_⟩
  · exact ⟨(extgcd_fst_bounds ha hb).2, extgcd_coeff_bounds ha hb⟩
  · cases prime
    · exact .inl rfl
    · exact .inr rfl
  · obtain ⟨hp0, hpm⟩ := modexp_bounds ha hb hm
    obtain ⟨hg, hx, hy⟩ := fits_extgcd ha hb hfa hfb
    obtain ⟨hi0, him⟩ := modinv_bounds a hm
    exact ⟨fits_of_nonneg_of_lt hfm hp0 hpm, hg, hx, hy, fits_of_nonneg_of_lt hfm hi0 him,
      fits_verdictInt p⟩

end Sys2Proof.Machine

/-! ## A command from its accept step to its commit -/

namespace Sys2Proof.Machine

open Sys2Proof.Claims

/-! ### A command's own part of a step -/

/-- The commit of a command, the part of its engine step that is its own (R53). -/
def commitOf : Instr → State → Work → State
  | .modexp rd _ _ _, s => commitModexp rd s
  | .extgcd rg rx ry _ _, s => commitExtgcd rg rx ry s
  | .modinv rd _ _, s => commitModinv rd s
  | .mrtest rd _ _, s => commitVerdict rd s
  | .mrround rd _ _, s => commitVerdict rd s

/-- The working state a command latches (R51). -/
def initialWork (s : State) : Instr → Work
  | .modexp _ rbase rexp rmod => .power (PowerWork.init (s.x rbase) (s.x rexp) (s.x rmod))
  | .extgcd _ _ _ ra rb => .euclid (EuclidWork.init (s.x ra) (s.x rb))
  | .modinv _ re rphi => .euclid (EuclidWork.init (s.x re) (s.x rphi))
  | .mrtest _ rn t8 => .primality (MrWork.init (s.x rn) (roundCount t8) none)
  | .mrround _ rn ra => .primality (MrWork.init (s.x rn) 1 (some (s.x ra)))

/-- `exec` of the command in flight is its engine step (R52, R53). -/
theorem exec_of_busy {s : State} {job : Job} (h : s.seq = .busy job) :
    exec job.cmd s = .next (s.engineStep job (commitOf job.cmd s)) := by
  have hrun : ∀ accept commit,
      s.runCommand job.cmd accept commit = s.engineStep job commit := by
    simp [State.runCommand, h]
  obtain ⟨cmd, work, stepped⟩ := job
  cases cmd <;> exact congrArg _ (hrun _ _)

/-- An n is special unless it is odd and at least 3 (R190). -/
theorem special_eq_none_iff (n : Int) : special n = none ↔ n % 2 = 1 ∧ 3 ≤ n := by
  unfold special
  rw [Apu.bit_zero]
  repeat' split
  all_goals simp only [reduceCtorEq, false_iff, true_iff]
  all_goals omega

/-- The operand check of a command (R142, R164, R173, R200). -/
def operandCheck (s : State) : Instr → Option (BitVec 3)
  | .modexp _ rbase rexp rmod => checkModexp (s.x rbase) (s.x rexp) (s.x rmod)
  | .extgcd _ _ _ ra rb => checkExtgcd (s.x ra) (s.x rb)
  | .modinv _ re rphi => checkModinv (s.x re) (s.x rphi)
  | .mrtest _ _ _ => none
  | .mrround _ rn ra => checkMrround (s.x rn) (s.x ra)

/-- The operand check names the slot of R223's table. -/
theorem failingSlot_eq (s : State) (i : Instr) :
    failingSlot s i = (operandCheck s i).map BitVec.toNat := by
  cases i with
  | modexp => simp only [failingSlot, operandCheck, checkModexp]; split_ifs <;> rfl
  | extgcd => simp only [failingSlot, operandCheck, checkExtgcd]; split_ifs <;> rfl
  | modinv => simp only [failingSlot, operandCheck, checkModinv]; split_ifs <;> rfl
  | mrtest => rfl
  | mrround =>
    simp only [failingSlot, operandCheck, checkMrround, special_eq_none_iff, and_assoc]
    split_ifs <;> rfl

/-- `exec` while IDLE is the accept step after its first line (R50). -/
theorem exec_of_idle {s : State} (h : s.seq = .idle) (i : Instr) :
    exec i s = .next (s.accept (operandCheck s i) i (initialWork s i)) := by
  have hrun : ∀ accept commit, s.runCommand i accept commit = accept := by
    simp [State.runCommand, h]
  cases i <;> exact congrArg _ (hrun _ _)

/-- `exec` of a command with its operands in its domain, while IDLE, latches it (R50, R51). -/
theorem exec_latches {s : State} {i : Instr} (h : s.seq = .idle) (hf : failingSlot s i = none) :
    exec i s = .next (s.latch i (initialWork s i)) := by
  rw [failingSlot_eq, Option.map_eq_none_iff] at hf
  rw [exec_of_idle h, hf]
  rfl

/-! ### A compute step is invisible (R52, R57) -/

/-- What the host reads does not depend on the job in flight. -/
theorem sameToHost_of_job {s : State} {job : Job} (h : s.seq = .busy job) (job' : Job) :
    SameToHost s { s with seq := .busy job' } := by
  have hword : ∀ target, State.regionWord { s with seq := .busy job' } target
      = s.regionWord target := by
    intro target
    cases target with
    | status => simp [State.regionWord, State.statusWord, State.busy, h]
    | _ => rfl
  refine ⟨fun off => ?_, rfl⟩
  unfold State.memRead
  dsimp only
  split
  · rfl
  · rfl
  · exact hword _

/-- Settles O31: an engine step that does not meet the condition of the commit replaces the job in flight and
nothing else. -/
theorem computeStepIsInvisible : Obligations.ComputeStepIsInvisible := by
  intro s job hs hcompute
  rcases s.engineStep_cases job (commitOf job.cmd s) with ⟨h1, h2, h3, -⟩ | ⟨-, hstep⟩
  · rcases hcompute with h | h | h
    · simp [h] at h1
    · simp [h] at h2
    · omega
  · exact ⟨_, exec_of_busy hs, by rw [hstep]; rfl, hstep ▸ sameToHost_of_job hs _⟩

/-! ### Passes of any command's loop -/

@[simp] theorem Work.run_power (n : Nat) (answers : List Int) (w : PowerWork) :
    Work.run n answers (.power w) = .power (PowerWork.run n w) := by
  induction n generalizing w with
  | zero => rfl
  | succ n ih => cases answers <;> exact ih w.iterate

@[simp] theorem Work.run_euclid (n : Nat) (answers : List Int) (w : EuclidWork) :
    Work.run n answers (.euclid w) = .euclid (EuclidWork.run n w) := by
  induction n generalizing w with
  | zero => rfl
  | succ n ih => cases answers <;> exact ih w.iterate

theorem Work.run_nil_add (a b : Nat) (w : Work) : w.run (a + b) [] = (w.run a []).run b [] := by
  induction a generalizing w with
  | zero => rw [Nat.zero_add]; rfl
  | succ a ih => rw [Nat.succ_add]; exact ih w.iterate

theorem Work.iterate_of_finished {w : Work} (h : w.finished = true) : w.iterate = w := by
  cases w with
  | power w => exact congrArg _ (PowerWork.iterate_of_finished h)
  | euclid w => exact congrArg _ (EuclidWork.iterate_of_finished h)
  | primality w =>
    obtain ⟨p, hp⟩ := w.finished_iff.1 h
    simp [Work.iterate, MrWork.iterate, hp]

theorem Work.run_of_finished {w : Work} (h : w.finished = true) (n : Nat) : w.run n [] = w := by
  induction n with
  | zero => rfl
  | succ n ih => rw [Work.run, Work.iterate_of_finished h, ih]

/-- More passes than those that end the loop change nothing. -/
theorem Work.run_of_le {w : Work} {a b : Nat} (h : (w.run a []).finished = true) (hab : a ≤ b) :
    w.run b [] = w.run a [] := by
  rw [← Nat.add_sub_cancel' hab, Work.run_nil_add, Work.run_of_finished h]

/-! ### Runs -/

theorem run_succ_of_core_step {M : Host.Core} {s t : M.State} (h : M.step s = .next t) (k : Nat) :
    M.run (k + 1) s = M.run k t := by
  rw [Host.Core.run, h]

theorem run_succ_of_step {s t : State} (h : step s = .next t) (k : Nat) :
    Host.Core.run Sys2Proof.core (k + 1) s = Host.Core.run Sys2Proof.core k t :=
  run_succ_of_core_step (M := Sys2Proof.core) h k

theorem run_one_of_step {s t : State} (h : step s = .next t) :
    Host.Core.run Sys2Proof.core 1 s = .next t := run_succ_of_step h 0

/-- Two runs, one after the other. -/
theorem run_add_of_run {M : Host.Core} {j : Nat} {s t : M.State} (h : M.run j s = .next t)
    (k : Nat) : M.run (j + k) s = M.run k t := by
  induction j generalizing s with
  | zero =>
    cases h
    rw [Nat.zero_add]
  | succ j ih =>
    rw [Nat.succ_add, Host.Core.run]
    rw [Host.Core.run] at h
    cases hs : M.step s with
    | next s' => rw [hs] at h; exact ih h
    | _ => rw [hs] at h; cases h

/-! ### A command in flight -/

/-- `s` with the word `w` accepted and `job` in flight, the model's own fields as given. -/
def State.inFlight (s : State) (w : Word) (job : Job) (effort : Nat) (answers : List Int)
    (schedule : List Event) : State :=
  { s with
    lastcmd := w, done := false, err := .none, errinfo := 0, seq := .busy job
    rdata := none, effort := effort, answers := answers, schedule := schedule }

theorem submits_append {s : State} {w : Word} {rest : List Event} (h : Submits s w rest)
    (events : List Event) :
    Submits { s with schedule := s.schedule ++ events } w (rest ++ events) := by
  obtain ⟨hr, hi, hs⟩ := h
  exact ⟨hr, hi, by rw [hs]; rfl⟩

/-- The step of a submitted command with its operands in its domain is its accept step (R50, R51). -/
theorem step_of_submits {s : State} {w : Word} {rest : List Event} {i : Instr}
    (h : Submits s w rest) (hd : decode w = .ok i) (hf : failingSlot s i = none) :
    step s = .next (s.inFlight w ⟨i, initialWork s i, false⟩ s.effort s.answers rest) := by
  obtain ⟨hr, hi, hs⟩ := h
  have hwrite : step s = memWrite 0x10 w 0xF s.popped := by
    simp only [step, hs, turn, State.popped_rst, hr, hostWrite, State.popped_params,
      offsetOf_base_add s.params 0x10 (by decide)]
    rfl
  have hcmd : memWrite 0x10 w 0xF s.popped = exec i (s.popped.beginCommand w) := by
    simp [memWrite, (region_eq_cmd s.params 0x10).2 rfl, writeCmd, acceptWord, hd,
      State.busy, hi]
  have hf' : failingSlot (s.popped.beginCommand w) i = none := by rw [← hf]; cases i <;> rfl
  have hw : initialWork (s.popped.beginCommand w) i = initialWork s i := by cases i <;> rfl
  rw [hwrite, hcmd, exec_latches (s := s.popped.beginCommand w) hi hf', hw]
  simp [State.latch, State.beginCommand, State.popped, State.inFlight, hs]

section InFlight

variable {s : State} (hr : s.rst = false) {w : Word}
include hr

/-- A scheduled engine step of the command in flight. -/
theorem step_inFlight_engine {job : Job} {e n : Nat} {l answers : List Int} {rest : List Event} :
    step (s.inFlight w job e l (.engine n answers :: rest)) =
      .next ((s.inFlight w job n answers rest).engineStep job
        (commitOf job.cmd (s.inFlight w job n answers rest))) := by
  rw [← exec_of_busy rfl]
  simp only [step, State.inFlight, turn, State.popped, hr]
  rfl

/-- An engine step of the command in flight once the schedule is exhausted. -/
theorem step_inFlight_alone {job : Job} {e : Nat} {l : List Int} :
    step (s.inFlight w job e l []) =
      .next ((s.inFlight w job (max 1 e) [] []).engineStep job
        (commitOf job.cmd (s.inFlight w job (max 1 e) [] []))) := by
  rw [← exec_of_busy rfl]
  simp only [step, State.inFlight, turnAlone, State.popped, hr]
  rfl

omit hr in
/-- An engine step that does not meet the condition of the commit computes (R52). -/
theorem engineStep_inFlight_compute {job : Job} {n : Nat} {answers : List Int} {rest : List Event}
    {commit : Work → State}
    (h : ¬(job.stepped = true ∧ job.work.finished = true ∧ 0 < n)) :
    (s.inFlight w job n answers rest).engineStep job commit =
      s.inFlight w ⟨job.cmd, job.work.run n answers, true⟩ n answers rest := if_neg h

omit hr in
/-- An engine step that meets the condition of the commit commits (R53). -/
theorem engineStep_inFlight_commit {cmd : Instr} {work : Work} {n : Nat} {answers : List Int}
    {rest : List Event} {commit : Work → State} (hfin : work.finished = true) (hn : 0 < n) :
    (s.inFlight w ⟨cmd, work, true⟩ n answers rest).engineStep ⟨cmd, work, true⟩ commit =
      commit work := if_pos ⟨rfl, hfin, hn⟩

/-- Once the schedule is exhausted, a command in flight whose loop ends after N passes commits (R277). -/
theorem run_alone_commits {cmd : Instr} {N : Nat} {work : Work} {e : Nat} {l : List Int}
    (hfin : (work.run N []).finished = true) :
    ∃ k e', 1 ≤ k ∧ Host.Core.run Sys2Proof.core k (s.inFlight w ⟨cmd, work, true⟩ e l []) =
      .next (commitOf cmd (s.inFlight w ⟨cmd, work.run N [], true⟩ e' [] []) (work.run N [])) := by
  have hpos : 0 < max 1 e := by omega
  induction N generalizing work e l with
  | zero =>
    refine ⟨1, max 1 e, le_rfl, run_one_of_step ?_⟩
    rw [step_inFlight_alone hr, engineStep_inFlight_commit (work := work) hfin hpos]
    rfl
  | succ N ih =>
    by_cases hnow : work.finished = true
    · refine ⟨1, max 1 e, le_rfl, run_one_of_step ?_⟩
      rw [step_inFlight_alone hr, engineStep_inFlight_commit hnow hpos,
        Work.run_of_finished hnow]
    · have hmore : (work.run (max 1 e) []).run N [] = work.run (N + 1) [] := by
        rw [← Work.run_nil_add]
        exact Work.run_of_le hfin (by omega)
      obtain ⟨k, e', -, hk⟩ := ih (work := work.run (max 1 e) []) (e := max 1 e) (l := [])
        (by rwa [hmore]) (by omega)
      refine ⟨k + 1, e', by omega, ?_⟩
      rw [run_succ_of_step (step_inFlight_alone hr),
        engineStep_inFlight_compute (by simp [hnow]), hk, hmore]

/-- Engine steps without progress leave a command in flight as it is (log 4). -/
theorem run_stalled (cmd : Instr) (work : Work) (j e : Nat) (l : List Int) (rest : List Event) :
    ∃ e' l', Host.Core.run Sys2Proof.core j
        (s.inFlight w ⟨cmd, work, true⟩ e l (List.replicate j (.engine 0 []) ++ rest)) =
      .next (s.inFlight w ⟨cmd, work, true⟩ e' l' rest) := by
  induction j generalizing e l with
  | zero => exact ⟨e, l, rfl⟩
  | succ j ih =>
    obtain ⟨e', l', h⟩ := ih 0 []
    refine ⟨e', l', ?_⟩
    rw [List.replicate_succ, List.cons_append, run_succ_of_step (step_inFlight_engine hr),
      engineStep_inFlight_compute (by simp)]
    exact h

end InFlight

/-- A submitted command whose loop ends after N passes, with no answer of the entropy source, commits once the
schedule is exhausted; accept, compute and commit are at least three steps (R52, R277). -/
theorem run_submitted_commits {s : State} {w : Word} {i : Instr} (h : Submits s w [])
    (hd : decode w = .ok i) (hf : failingSlot s i = none) {N : Nat} {final : Work}
    (hrun : (initialWork s i).run N [] = final) (hfin : final.finished = true) :
    ∃ k e, 3 ≤ k ∧ Host.Core.run Sys2Proof.core k s =
      .next (commitOf i (s.inFlight w ⟨i, final, true⟩ e [] []) final) := by
  subst hrun
  have hmore : ((initialWork s i).run (max 1 s.effort) []).run N [] = (initialWork s i).run N [] := by
    rw [← Work.run_nil_add]
    exact Work.run_of_le hfin (by omega)
  obtain ⟨k, e, hk1, hk⟩ := run_alone_commits (w := w) (cmd := i) (e := max 1 s.effort) (l := [])
    h.1 (hmore.symm ▸ hfin)
  refine ⟨k + 1 + 1, e, by omega, ?_⟩
  rw [run_succ_of_step (step_of_submits h hd hf), run_succ_of_step (step_inFlight_alone h.1),
    engineStep_inFlight_compute (by simp), hk, hmore]

/-! ### Completions (R53, R226) -/

/-- A commit completes the command with exactly its results. -/
theorem completes_commit {s : State} {w : Word} {job : Job} {e : Nat} {l : List Int}
    {rest : List Event} {results : List (RegId × Int)} (hnodup : (results.map Prod.fst).Nodup)
    (hfit : ∀ rv ∈ results, Fits s.params rv.2) :
    Completes { s with lastcmd := w } ((s.inFlight w job e l rest).commit results) .none 0
      results where
  idle := rfl
  done := rfl
  err := rfl
  errinfo := rfl
  written rv hrv := by
    rw [← State.writeDests_x (s.inFlight w job e l rest) results hnodup rv hrv (hfit rv hrv)]
    exact State.x_congr _ _ _ (by simp [State.commit]) (by simp [State.commit])
  kept r hr := by
    rw [State.commit, State.complete_regs, if_pos rfl, State.writeDests_regs_ne _ _ _ hr]
    rfl
  ie := by simp [State.commit, State.inFlight]
  accerr := by simp [State.commit, State.inFlight]
  cmdovr := by simp [State.commit, State.inFlight]
  lastcmd := by simp [State.commit, State.inFlight]
  rst := by simp [State.commit, State.inFlight]
  params := by simp [State.commit, State.inFlight]

/-- NOT_INVERTIBLE completes the command and writes no register (R224). -/
theorem completes_raiseNotInvertible {s : State} {w : Word} {job : Job} {e : Nat} {l : List Int}
    {rest : List Event} :
    Completes { s with lastcmd := w } (s.inFlight w job e l rest).raiseNotInvertible
      .notInvertible 0 [] :=
  ⟨rfl, rfl, rfl, rfl, by simp, fun _ _ => rfl, rfl, rfl, rfl, rfl, rfl, rfl⟩

end Sys2Proof.Machine

/-! ## Miller–Rabin from its accept step to its verdict (R190 to R197) -/

namespace Sys2Proof.Machine

open Sys2Proof.Claims

/-! ### The factoring of n − 1 (R190) -/

/-- R190's loop with passes enough leaves u odd and u · 2^k as it was. -/
theorem factorLoop_spec (fuel : Nat) (u : Int) (k : Nat) (hu : 0 < u) (hlt : u < 2 ^ fuel) :
    (factorLoop fuel u k).1 % 2 = 1 ∧
      u * 2 ^ k = (factorLoop fuel u k).1 * 2 ^ (factorLoop fuel u k).2 := by
  induction fuel generalizing u k with
  | zero => omega
  | succ fuel ih =>
    rw [factorLoop, Apu.bit_zero, Apu.half_eq]
    split
    · rw [pow_succ] at hlt
      obtain ⟨hodd, heq⟩ := ih (u / 2) (k + 1) (by omega) (by omega)
      refine ⟨hodd, heq ▸ ?_⟩
      have h2 : u = u / 2 * 2 := by omega
      conv_lhs => rw [h2]
      ring
    · exact ⟨by omega, rfl⟩

/-- R190: n − 1 = u · 2^k with u odd, for odd n ≥ 3. -/
theorem factor_spec {n : Int} (hn : 3 ≤ n) :
    (factor n).1 % 2 = 1 ∧ n - 1 = (factor n).1 * 2 ^ (factor n).2 := by
  have hlt := Apu.lt_two_pow_bitlen n
  have h := factorLoop_spec (Apu.bitlen n) (n - 1) 0 (by omega) (by omega)
  rwa [pow_zero, mul_one] at h

/-- R190: n − 1 is even, so at least one factor 2 is taken out. -/
theorem factor_snd_pos {n : Int} (hodd : n % 2 = 1) (hn : 3 ≤ n) : 0 < (factor n).2 := by
  obtain ⟨hu, heq⟩ := factor_spec hn
  rcases Nat.eq_zero_or_pos (factor n).2 with h0 | h
  · rw [h0, pow_zero, mul_one] at heq
    omega
  · exact h

/-! ### A pass, phase by phase -/

theorem MrWork.iterate_factoring {w : MrWork} (h : w.phase = .factoring) :
    w.iterate = if Apu.bit w.u 0 = 0 then { w with u := Apu.half w.u, k := w.k + 1 }
      else w.nextWitness := by
  cases w; cases h; rfl

theorem MrWork.iterate_squaring {w : MrWork} (h : w.phase = .squaring) :
    w.iterate = if w.v = Apu.sub w.n 1 then w.passRound
      else if w.i + 1 = w.k then { w with phase := .verdict false }
      else { w with v := Apu.mod (Apu.mul w.v w.v) w.n, i := w.i + 1 } := by
  cases w; cases h; rfl

theorem MrWork.iterate_powering {w : MrWork} {p : PowerWork} (h : w.phase = .powering p) :
    w.iterate = if p.finished then
      (if p.result = 1 then ({ w with v := p.result, i := 0 } : MrWork).passRound
        else { w with v := p.result, i := 0, phase := .squaring })
      else { w with phase := .powering p.iterate } := by
  cases w; cases h; rfl

/-! ### How far the witnesses reach -/

/-- With the answers `l` and passes enough, `w` comes to `w'`, whatever answers and passes follow. -/
def MrWork.Reaches (w : MrWork) (l : List Int) (w' : MrWork) : Prop :=
  ∃ N, ∀ M more, Work.run (N + M) (l ++ more) (.primality w) = Work.run M more (.primality w')

theorem MrWork.Reaches.refl (w : MrWork) : w.Reaches [] w :=
  ⟨0, fun M more => by rw [Nat.zero_add]; rfl⟩

theorem MrWork.Reaches.trans {w w' w'' : MrWork} {l l' : List Int} (h : w.Reaches l w')
    (h' : w'.Reaches l' w'') : w.Reaches (l ++ l') w'' := by
  obtain ⟨N, hN⟩ := h
  obtain ⟨N', hN'⟩ := h'
  exact ⟨N + N', fun M more => by rw [Nat.add_assoc, List.append_assoc, hN, hN']⟩

/-- A pass in which no request is pending takes no answer. -/
theorem MrWork.reaches_iterate {w : MrWork} (h : w.phase ≠ .awaiting) :
    w.Reaches [] w.iterate := by
  refine ⟨1, fun M more => ?_⟩
  rw [Nat.add_comm]
  cases more with
  | nil => rfl
  | cons a rest => simp [Work.run, Work.awaits, h, Work.iterate]

theorem MrWork.Reaches.of_iterate {w w' : MrWork} {l : List Int} (h : w.phase ≠ .awaiting)
    (h' : w.iterate.Reaches l w') : w.Reaches l w' :=
  (MrWork.reaches_iterate h).trans h'

/-- A legal answer to a pending request begins the round (R194). -/
theorem MrWork.reaches_beginRound {w : MrWork} {a : Int} (h : w.phase = .awaiting)
    (ha : LegalWitness w.n a) : w.Reaches [a] (w.beginRound a) := by
  refine ⟨1, fun M more => ?_⟩
  have hr : w.receive a = w.beginRound a := if_pos ⟨h, ha.1, ha.2⟩
  rw [Nat.add_comm]
  simp [Work.run, Work.awaits, h, Work.receive, hr]

/-! ### One round -/

/-- What follows a round: the next one, or a verdict (R192). -/
def MrWork.endRound (w : MrWork) (pass : Bool) : MrWork :=
  if pass then w.passRound else { w with phase := .verdict false }

/-- The end of a round does not depend on the phase it ended in. -/
theorem MrWork.endRound_phase (w : MrWork) (phase : MrPhase) (pass : Bool) :
    ({ w with phase := phase } : MrWork).endRound pass = w.endRound pass := by
  cases pass with
  | false => rfl
  | true =>
    obtain ⟨n, rounds, given, u, k, v, i, draws, p⟩ := w
    cases given <;> rfl

theorem MrWork.Reaches.of_iterate_eq {w w' : MrWork} (h : w.phase ≠ .awaiting)
    (hit : w.iterate = w') : w.Reaches [] w' := hit ▸ MrWork.reaches_iterate h

/-- The last round's answer is the verdict (R192). -/
theorem MrWork.endRound_verdict {w : MrWork} (h : w.rounds ≤ w.draws.length) (pass : Bool) :
    (w.endRound pass).phase = .verdict pass := by
  cases pass with
  | false => rfl
  | true => simp [MrWork.endRound, MrWork.passRound, h]

/-- The factoring phase comes to `factor`'s result and asks for the first witness (R190). -/
theorem MrWork.reaches_nextWitness_of_factoring (fuel : Nat) (w : MrWork)
    (h : w.phase = .factoring) (hodd : (factorLoop fuel w.u w.k).1 % 2 = 1) :
    w.Reaches [] ({ w with
      u := (factorLoop fuel w.u w.k).1, k := (factorLoop fuel w.u w.k).2 }).nextWitness := by
  have hawait : w.phase ≠ .awaiting := by simp [h]
  by_cases hu : w.u % 2 = 1
  · have hloop : factorLoop fuel w.u w.k = (w.u, w.k) := by
      cases fuel <;> simp [factorLoop, hu]
    rw [hloop]
    exact .of_iterate_eq hawait (by rw [MrWork.iterate_factoring h, Apu.bit_zero, if_neg (by omega)])
  · cases fuel with
    | zero => exact absurd hodd hu
    | succ fuel =>
      have hloop : factorLoop (fuel + 1) w.u w.k = factorLoop fuel (w.u / 2) (w.k + 1) := by
        simp only [factorLoop, Apu.bit_zero, Apu.half_eq]
        exact if_pos (by omega)
      have hit : w.iterate = { w with u := w.u / 2, k := w.k + 1 } := by
        rw [MrWork.iterate_factoring h, Apu.bit_zero, if_pos (by omega), Apu.half_eq]
      rw [hloop] at hodd ⊢
      refine .of_iterate hawait (hit ▸ ?_)
      exact MrWork.reaches_nextWitness_of_factoring fuel { w with u := w.u / 2, k := w.k + 1 } h hodd

/-- The powering phase runs R140's loop to its end (R191). -/
theorem MrWork.reaches_powered (fuel : Nat) (w : MrWork) (p : PowerWork) :
    ({ w with phase := .powering p } : MrWork).Reaches []
      { w with phase := .powering (PowerWork.run fuel p) } := by
  induction fuel generalizing p with
  | zero => exact .refl _
  | succ fuel ih =>
    by_cases hf : p.finished = true
    · rw [PowerWork.run, PowerWork.iterate_of_finished hf]
      exact ih p
    · have hit : ({ w with phase := .powering p } : MrWork).iterate =
          { w with phase := .powering p.iterate } := by
        rw [MrWork.iterate_powering rfl, if_neg hf]
      exact .of_iterate (by simp) (hit ▸ ih p.iterate)

/-- The squaring phase ends the round with R191's answer for the tests left. -/
theorem MrWork.reaches_endRound_of_squaring (w : MrWork) (h : w.phase = .squaring)
    (hi : w.i < w.k) :
    ∃ v i, w.Reaches [] (({ w with v := v, i := i }).endRound
      (squareLoop w.n (w.k - w.i) w.v)) := by
  have hawait : w.phase ≠ .awaiting := by simp [h]
  have hit := MrWork.iterate_squaring h
  have htests : w.k - w.i = w.k - (w.i + 1) + 1 := by omega
  rw [htests, squareLoop]
  by_cases hv : w.v = Apu.sub w.n 1
  · rw [if_pos hv] at hit ⊢
    exact ⟨w.v, w.i, .of_iterate_eq hawait hit⟩
  · rw [if_neg hv] at hit ⊢
    by_cases hlast : w.i + 1 = w.k
    · rw [if_pos hlast] at hit
      rw [hlast, Nat.sub_self]
      exact ⟨w.v, w.i, .of_iterate_eq hawait hit⟩
    · rw [if_neg hlast] at hit
      obtain ⟨v, i, hreach⟩ := MrWork.reaches_endRound_of_squaring
        { w with v := Apu.mod (Apu.mul w.v w.v) w.n, i := w.i + 1 } h (by dsimp only; omega)
      exact ⟨v, i, .of_iterate hawait (hit ▸ hreach)⟩
termination_by w.k - w.i

/-- A round begun with the witness a ends with R191's answer for it. -/
theorem MrWork.reaches_endRound (w : MrWork) (a : Int) (hk : 0 < w.k) :
    ∃ v i, (w.beginRound a).Reaches []
      (({ w with draws := w.draws ++ [a], v := v, i := i } : MrWork).endRound
        (mrRound w.n w.u w.k a)) := by
  have hpow := MrWork.reaches_powered (Apu.bitlen w.u) (w.beginRound a) (PowerWork.init a w.u w.n)
  have hfin := PowerWork.run_finished (Apu.bitlen w.u) (PowerWork.init a w.u w.n)
    (Apu.lt_two_pow_bitlen w.u)
  have hv : (PowerWork.run (Apu.bitlen w.u) (PowerWork.init a w.u w.n)).result
    = modexp a w.u w.n := rfl
  generalize PowerWork.run (Apu.bitlen w.u) (PowerWork.init a w.u w.n) = p at hpow hfin hv
  have hit := MrWork.iterate_powering (w := { w.beginRound a with phase := .powering p }) rfl
  rw [if_pos hfin, hv] at hit
  rw [mrRound]
  by_cases h1 : modexp a w.u w.n = 1
  · rw [if_pos h1] at hit ⊢
    refine ⟨modexp a w.u w.n, 0, ?_⟩
    rw [← MrWork.endRound_phase _ (.powering p)]
    exact hpow.trans (.of_iterate_eq (by simp) hit)
  · rw [if_neg h1] at hit ⊢
    obtain ⟨v, i, hsq⟩ := MrWork.reaches_endRound_of_squaring
      { w with draws := w.draws ++ [a], v := modexp a w.u w.n, i := 0, phase := .squaring } rfl hk
    refine ⟨v, i, ?_⟩
    rw [← MrWork.endRound_phase _ .squaring]
    exact (hpow.trans (.of_iterate_eq (by simp) hit)).trans hsq

/-! ### All rounds (R192) -/

/-- More witnesses than those that decide change nothing. -/
theorem mrRounds_append {n u : Int} {k t : Nat} {l : List Int} {prime : Bool}
    (h : mrRounds n u k t l = some prime) (more : List Int) :
    mrRounds n u k t (l ++ more) = some prime := by
  induction t generalizing l with
  | zero => exact h
  | succ t ih =>
    cases l with
    | nil => cases h
    | cons a rest =>
      rw [List.cons_append, mrRounds]
      rw [mrRounds] at h
      split
      · rename_i hpass
        exact ih (by rwa [if_pos hpass] at h)
      · rename_i hfail
        rwa [if_neg hfail] at h

theorem mr_of_prefix {n : Int} {t : Nat} {l l' : List Int} {prime : Bool}
    (h : mr n t l = some prime) (hpre : l <+: l') : mr n t l' = some prime := by
  obtain ⟨more, rfl⟩ := hpre
  unfold mr at h ⊢
  split
  · rename_i verdict hs
    rwa [hs] at h
  · rename_i hs
    rw [hs] at h
    exact mrRounds_append h more

/-- The witnesses `used` decide `t` rounds as `prime`, and no shorter part of them decides (R195). -/
def Decides (n u : Int) (k t : Nat) (used : List Int) (prime : Bool) : Prop :=
  mrRounds n u k t used = some prime ∧
    ∀ fewer, fewer <+: used → fewer ≠ used → mrRounds n u k t fewer = none

theorem decides_zero (n u : Int) (k : Nat) : Decides n u k 0 [] true :=
  ⟨rfl, fun _ hpre hne => absurd (List.prefix_nil.1 hpre) hne⟩

/-- A round that fails decides by itself. -/
theorem decides_of_fail {n u : Int} {k : Nat} {a : Int} (h : mrRound n u k a = false) (t : Nat) :
    Decides n u k (t + 1) [a] false := by
  refine ⟨by simp [mrRounds, h], fun fewer hpre hne => ?_⟩
  cases fewer with
  | nil => rfl
  | cons b rest =>
    obtain ⟨rfl, hrest⟩ := List.cons_prefix_cons.1 hpre
    exact absurd (by rw [List.prefix_nil.1 hrest]) hne

/-- A round that passes leaves the decision to the others. -/
theorem Decides.cons {n u : Int} {k t : Nat} {a : Int} {used : List Int} {prime : Bool}
    (h : mrRound n u k a = true) (hd : Decides n u k t used prime) :
    Decides n u k (t + 1) (a :: used) prime := by
  refine ⟨by rw [mrRounds, if_pos h, hd.1], fun fewer hpre hne => ?_⟩
  cases fewer with
  | nil => rfl
  | cons b rest =>
    obtain ⟨rfl, hrest⟩ := List.cons_prefix_cons.1 hpre
    rw [mrRounds, if_pos h]
    exact hd.2 rest hrest fun heq => hne (by rw [heq])

/-- MRTEST with `t` rounds to go reaches its verdict, taking the witnesses that decide them. -/
theorem MrWork.passRound_reaches_verdict (t : Nat) (w : MrWork) (ws : List Int)
    (hgiven : w.given = none) (hk : 0 < w.k) (hrounds : w.draws.length + t = w.rounds)
    (hlen : ws.length = t) (hlegal : ∀ a ∈ ws, LegalWitness w.n a) :
    ∃ used prime w', used <+: ws ∧ Decides w.n w.u w.k t used prime ∧
      w.passRound.Reaches used w' ∧ w'.phase = .verdict prime := by
  induction t generalizing w ws with
  | zero =>
    have hpass : w.passRound = { w with phase := .verdict true } := if_pos (by omega)
    exact ⟨[], true, _, List.nil_prefix, decides_zero _ _ _, .refl _, by rw [hpass]⟩
  | succ t ih =>
    have hpass : w.passRound = { w with phase := .awaiting } := by
      rw [MrWork.passRound, if_neg (by omega), MrWork.nextWitness, hgiven]
    cases ws with
    | nil => cases hlen
    | cons a rest =>
      obtain ⟨ha, hrest⟩ := List.forall_mem_cons.1 hlegal
      obtain ⟨v, i, hround⟩ := MrWork.reaches_endRound w a hk
      have hfirst := (MrWork.reaches_beginRound (w := { w with phase := .awaiting }) rfl ha).trans
        hround
      rw [hpass]
      cases hr : mrRound w.n w.u w.k a with
      | false =>
        rw [hr] at hfirst
        exact ⟨[a], false, _, by simp, decides_of_fail hr t, hfirst, rfl⟩
      | true =>
        rw [hr] at hfirst
        obtain ⟨used, prime, w', hpre, hdec, hreach, hverdict⟩ := ih
          { w with draws := w.draws ++ [a], v := v, i := i } rest hgiven hk
          (by simp only [List.length_append, List.length_singleton]; omega)
          (by simpa using hlen) hrest
        exact ⟨a :: used, prime, w', List.cons_prefix_cons.2 ⟨rfl, hpre⟩, hdec.cons hr,
          hfirst.trans hreach, hverdict⟩

/-! ### From the accept step (R190, R192, R197, R200) -/

/-- A special n has its verdict from the accept step on. -/
theorem MrWork.init_phase_of_special {n : Int} {verdict : Bool} (h : special n = some verdict)
    (t : Nat) (given : Option Int) : (MrWork.init n t given).phase = .verdict verdict := by
  simp [MrWork.init, h]

/-- An odd n ≥ 3 is factored, and then the first witness is asked for. -/
theorem MrWork.init_reaches_nextWitness {n : Int} (h : special n = none) (t : Nat)
    (given : Option Int) :
    ∃ phase, (MrWork.init n t given).Reaches [] (MrWork.nextWitness
      { MrWork.init n t given with u := (factor n).1, k := (factor n).2, phase := phase }) := by
  obtain ⟨-, hn⟩ := (special_eq_none_iff n).1 h
  exact ⟨_, MrWork.reaches_nextWitness_of_factoring (Apu.bitlen n) (MrWork.init n t given)
    (by simp [MrWork.init, h]) (factor_spec hn).1⟩

/-- MRTEST reaches R192's verdict, taking the witnesses that decide it. -/
theorem MrWork.init_reaches_verdict {n : Int} {t : Nat} (ht : 1 ≤ t) {ws : List Int}
    (hlen : ws.length = t) (hlegal : special n = none → ∀ a ∈ ws, LegalWitness n a) :
    ∃ used prime w', used <+: ws ∧ mr n t used = some prime ∧
      (∀ fewer, fewer <+: used → fewer ≠ used → mr n t fewer = none) ∧
      (MrWork.init n t none).Reaches used w' ∧ w'.phase = .verdict prime := by
  cases h : special n with
  | some verdict =>
    exact ⟨[], verdict, _, List.nil_prefix, by simp [mr, h],
      fun _ hpre hne => absurd (List.prefix_nil.1 hpre) hne, .refl _,
      MrWork.init_phase_of_special h t none⟩
  | none =>
    obtain ⟨hodd, hn⟩ := (special_eq_none_iff n).1 h
    obtain ⟨phase, hfactor⟩ := MrWork.init_reaches_nextWitness h t none
    obtain ⟨used, prime, w', hpre, hdec, hreach, hverdict⟩ := MrWork.passRound_reaches_verdict t
      { MrWork.init n t none with u := (factor n).1, k := (factor n).2, phase := phase } ws rfl
      (factor_snd_pos hodd hn) (Nat.zero_add t) hlen (hlegal h)
    have hmr : ∀ l, mr n t l = mrRounds n (factor n).1 (factor n).2 t l := by simp [mr, h]
    rw [MrWork.passRound, if_neg (by simp [MrWork.init]; omega)] at hreach
    refine ⟨used, prime, w', hpre, (hmr used).trans hdec.1, fun fewer hf hne => ?_,
      hfactor.trans hreach, hverdict⟩
    rw [hmr]
    exact hdec.2 fewer hf hne

/-- MRROUND reaches the verdict of its one round, taking no answer. -/
theorem MrWork.init_given_reaches_verdict (n a : Int) :
    ∃ prime w', mr n 1 [a] = some prime ∧ (MrWork.init n 1 (some a)).Reaches [] w' ∧
      w'.phase = .verdict prime := by
  cases h : special n with
  | some verdict =>
    exact ⟨verdict, _, by simp [mr, h], .refl _, MrWork.init_phase_of_special h 1 (some a)⟩
  | none =>
    obtain ⟨hodd, hn⟩ := (special_eq_none_iff n).1 h
    obtain ⟨phase, hfactor⟩ := MrWork.init_reaches_nextWitness h 1 (some a)
    obtain ⟨v, i, hround⟩ := MrWork.reaches_endRound
      { MrWork.init n 1 (some a) with u := (factor n).1, k := (factor n).2, phase := phase } a
      (factor_snd_pos hodd hn)
    refine ⟨mrRound n (factor n).1 (factor n).2 a, _, ?_, hfactor.trans hround, ?_⟩
    · simp only [mr, h, mrRounds]
      cases mrRound n (factor n).1 (factor n).2 a <;> rfl
    · exact MrWork.endRound_verdict (Nat.le_refl 1) _

/-- What a Miller–Rabin command reaches it holds after passes enough, whatever answers are left. -/
theorem MrWork.Reaches.run {w w' : MrWork} {l l' : List Int} (h : w.Reaches l w')
    (hpre : l <+: l') : ∃ N, Work.run N l' (.primality w) = .primality w' := by
  obtain ⟨N, hN⟩ := h
  obtain ⟨more, rfl⟩ := hpre
  exact ⟨N, hN 0 more⟩

end Sys2Proof.Machine

/-! ## The runs of whole commands (R8, R17, R277) -/

namespace Sys2Proof.Machine

open Sys2Proof.Claims

/-! ### Run to DONE on a schedule that is exhausted -/

/-- MODEXP's loop ends with b^e mod m (R143). -/
theorem PowerWork.run_init_result {b e m : Int} (hb : 0 ≤ b) (he : 0 ≤ e) (hm : 0 < m) :
    (PowerWork.run (Apu.bitlen e) (PowerWork.init b e m)).finished = true ∧
      (PowerWork.run (Apu.bitlen e) (PowerWork.init b e m)).result = b ^ e.toNat % m :=
  ⟨PowerWork.run_finished _ _ (Apu.lt_two_pow_bitlen e), modexp_eq_pow_mod hb he hm⟩

/-- Settles O19: R140's loop ends, and its commit writes b^e mod m. -/
theorem modexpRunCompletes : Obligations.ModexpRunCompletes := by
  intro s w rd rbase rexp rmod hsub hsized hd hb he hm
  obtain ⟨hfin, hresult⟩ := PowerWork.run_init_result hb he hm
  have hf : failingSlot s (.modexp rd rbase rexp rmod) = none := by
    simp only [failingSlot]
    rw [if_neg (by omega), if_neg (by omega), if_neg (by omega)]
  obtain ⟨k, e, hk3, hk⟩ := run_submitted_commits hsub hd hf (Work.run_power _ [] _) hfin
  refine ⟨k, _, hk3, hk, hresult ▸ completes_commit (by simp) ?_⟩
  simp only [List.mem_singleton, forall_eq, hresult]
  exact fits_of_nonneg_of_lt (s.fits_x hsized rmod) (Int.emod_nonneg _ hm.ne')
    (Int.emod_lt_of_pos _ hm)

/-- Settles O20: R161's loop ends with R160's triple, and its commit writes it. -/
theorem extgcdRunCompletes : Obligations.ExtgcdRunCompletes := by
  intro s w rg rx ry ra rb hsub hsized hd ha hb
  have hfin := EuclidWork.run_finished (s.x rb).toNat (EuclidWork.init (s.x ra) (s.x rb)) hb
    (Int.self_le_toNat _)
  have htriple := EuclidWork.run_init_triple ha hb hfin
  have hf : failingSlot s (.extgcd rg rx ry ra rb) = none := by
    simp only [failingSlot]
    rw [if_neg (by omega), if_neg (by omega)]
  obtain ⟨k, e, hk3, hk⟩ := run_submitted_commits hsub hd hf (Work.run_euclid _ [] _) hfin
  have hwf : (Instr.extgcd rg rx ry ra rb).wf = true := by
    obtain ⟨op, -, -, -, hwf, heq⟩ := (decode_eq_ok w _).1 hd
    rwa [heq]
  obtain ⟨hfg, hfx, hfy⟩ := fits_extgcd ha hb (s.fits_x hsized ra) (s.fits_x hsized rb)
  have hgcd := extgcd_fst_eq_gcd ha hb
  have hbezout := extgcd_bezout ha hb
  rw [← htriple] at hfg hfx hfy hgcd hbezout
  refine ⟨k, _, _, _, _, hk3, hk, completes_commit ?_ ?_, htriple, hgcd, hbezout⟩
  · simpa [Instr.wf, and_assoc] using hwf
  · simpa using ⟨hfg, hfx, hfy⟩

/-- Settles O21: R161's loop ends with R160's triple; its commit writes the normalised coefficient where the
gcd is 1, and raises NOT_INVERTIBLE where it is not. -/
theorem modinvRunCompletes : Obligations.ModinvRunCompletes := by
  intro s w rd re rphi hsub hsized hd he hphi
  have hfin := EuclidWork.run_finished (s.x rphi).toNat (EuclidWork.init (s.x re) (s.x rphi))
    hphi.le (Int.self_le_toNat _)
  have htriple := EuclidWork.run_init_triple he hphi.le hfin
  have hb := (EuclidWork.run_operands (s.x rphi).toNat (EuclidWork.init (s.x re) (s.x rphi))).2
  have hf : failingSlot s (.modinv rd re rphi) = none := by
    simp only [failingSlot]
    rw [if_neg (by omega), if_neg (by omega)]
  obtain ⟨k, e, hk3, hk⟩ := run_submitted_commits hsub hd hf (Work.run_euclid _ [] _) hfin
  generalize EuclidWork.run (s.x rphi).toNat (EuclidWork.init (s.x re) (s.x rphi)) = v at *
  have hgcd := extgcd_fst_eq_gcd he hphi.le
  have hinv : normaliseInverse v.s0 v.b = modinv (s.x re) (s.x rphi) := by
    rw [modinv, ← htriple, hb]
    rfl
  rw [← htriple] at hgcd
  obtain ⟨h0, hlt⟩ := modinv_bounds (s.x re) hphi
  refine ⟨k, _, hk3, hk, fun hg => ⟨modinv (s.x re) (s.x rphi), h0, hlt,
    mul_modinv_mod he hphi hg, ?_⟩, fun hg => ?_⟩
  · rw [commitOf, commitModinv, if_neg (by simp only at hgcd; omega), hinv]
    refine completes_commit (by simp) ?_
    simpa using fits_of_nonneg_of_lt (s.fits_x hsized rphi) h0 hlt
  · rw [commitOf, commitModinv, if_pos (by simp only at hgcd; omega)]
    exact completes_raiseNotInvertible

/-- A commit of a Miller–Rabin command with its verdict known writes it (R196). -/
theorem commitVerdict_of_verdict {w : MrWork} {prime : Bool} (h : w.phase = .verdict prime)
    (rd : RegId) (s : State) :
    commitVerdict rd s (.primality w) = s.commit [(rd, verdictInt prime)] := by
  simp [commitVerdict, h]

theorem completes_commitVerdict {v : MrWork} {prime : Bool} (h : v.phase = .verdict prime)
    {s : State} {w : Word} {job : Job} {e : Nat} {l : List Int} {rest : List Event} {rd : RegId} :
    Completes { s with lastcmd := w } (commitVerdict rd (s.inFlight w job e l rest) (.primality v))
      .none 0 [(rd, verdictInt prime)] := by
  rw [commitVerdict_of_verdict h]
  exact completes_commit (by simp) (by simpa using fits_verdictInt s.params prime)

/-- Settles O23: the round with the latched witness comes to its verdict, and the commit writes it. -/
theorem mrroundRunCompletes : Obligations.MrroundRunCompletes := by
  intro s w rd rn ra hsub _ hd hlegal
  obtain ⟨prime, v, hmr, hreach, hverdict⟩ := MrWork.init_given_reaches_verdict (s.x rn) (s.x ra)
  obtain ⟨N, hN⟩ := hreach.run List.nil_prefix
  have hf : failingSlot s (.mrround rd rn ra) = none := by
    simp only [failingSlot]
    rw [if_neg]
    rintro ⟨hodd, hn, hbad⟩
    obtain ⟨hlo, hhi⟩ := hlegal hodd hn
    omega
  obtain ⟨k, e, hk3, hk⟩ := run_submitted_commits hsub hd hf hN (v.finished_iff.2 ⟨prime, hverdict⟩)
  exact ⟨prime, k, _, hmr, hk3, hk, completes_commitVerdict hverdict⟩

/-! ### Run to DONE on a schedule of engine steps -/

/-- The legal-witness premise of MRTEST's statements, in terms of R190's `special`. -/
theorem legal_of_special {n : Int} {ws : List Int}
    (h : n % 2 = 1 → 3 ≤ n → ∀ a ∈ ws, LegalWitness n a) (hs : special n = none) :
    ∀ a ∈ ws, LegalWitness n a :=
  h ((special_eq_none_iff n).1 hs).1 ((special_eq_none_iff n).1 hs).2

theorem roundCount_pos (t8 : BitVec 8) : 1 ≤ roundCount t8 := by
  unfold roundCount
  split
  · decide
  · rename_i h
    exact Nat.one_le_iff_ne_zero.2 fun h0 => h (BitVec.eq_of_toNat_eq h0)

/-- A submitted command whose schedule goes on with an engine event: its accept step, and the compute step of
that event (R50, R52). -/
theorem run_accept_compute {s : State} {w : Word} {i : Instr} (h : Submits s w [])
    (hd : decode w = .ok i) (hf : failingSlot s i = none) (N : Nat) (answers : List Int)
    (rest : List Event) :
    Host.Core.run Sys2Proof.core 2
        { s with schedule := s.schedule ++ .engine N answers :: rest } =
      .next (s.inFlight w ⟨i, (initialWork s i).run N answers, true⟩ N answers rest) := by
  have hf' : failingSlot { s with schedule := s.schedule ++ .engine N answers :: rest } i = none := by
    rw [← hf]; cases i <;> rfl
  have hw : initialWork { s with schedule := s.schedule ++ .engine N answers :: rest } i
      = initialWork s i := by cases i <;> rfl
  rw [run_succ_of_step (step_of_submits (submits_append h _) hd hf'), hw]
  refine run_one_of_step ?_
  refine (step_inFlight_engine (s := s) h.1).trans ?_
  rw [engineStep_inFlight_compute (by simp)]

/-- Settles O22: one engine step, given the witnesses that decide the test, brings MRTEST to its verdict, and
the next step is the commit. -/
theorem mrtestRunCompletes : Obligations.MrtestRunCompletes := by
  intro s w rd rn t8 ws hsub _ hd hlen hlegal
  obtain ⟨used, prime, v, hpre, hmr, hfewer, hreach, hverdict⟩ :=
    MrWork.init_reaches_verdict (roundCount_pos t8) hlen (legal_of_special hlegal)
  obtain ⟨N, hN⟩ := hreach.run (List.prefix_refl used)
  have hrun : Host.Core.run Sys2Proof.core (2 + 1)
      { s with schedule := s.schedule ++ [.engine N used] } =
        .next (commitVerdict rd (s.inFlight w ⟨.mrtest rd rn t8, .primality v, true⟩ (max 1 N) [] [])
          (.primality v)) := by
    rw [run_add_of_run (M := Sys2Proof.core) (run_accept_compute hsub hd rfl N used [])]
    refine run_one_of_step ((step_inFlight_alone hsub.1).trans ?_)
    rw [initialWork, hN, engineStep_inFlight_commit (work := .primality v) (n := max 1 N)
      (v.finished_iff.2 ⟨prime, hverdict⟩) (by omega)]
    rfl
  exact ⟨prime, [.engine N used], used, 2 + 1, _, mr_of_prefix hmr hpre, by simp,
    by simp [witnessesOf], hpre, hmr, hfewer, le_rfl, hrun,
    completes_commitVerdict hverdict⟩

/-! ### Any number of compute steps (R8) -/

/-- Passes enough, with the witnesses as answers, end the loop of any command submitted with its operands in
its domain; its commit completes it, MRTEST with R192's verdict. -/
theorem initialWork_run_commits {s : State} {i : Instr} {ws : List Int}
    (hf : failingSlot s i = none)
    (hmrtest : ∀ rd rn t8, i = .mrtest rd rn t8 → ws.length = roundCount t8 ∧
      (s.x rn % 2 = 1 → 3 ≤ s.x rn → ∀ a ∈ ws, LegalWitness (s.x rn) a)) :
    ∃ N final, (initialWork s i).run N ws = final ∧ final.finished = true ∧
      (∀ t, (commitOf i t final).seq = .idle ∧ (commitOf i t final).done = true) ∧
      ∀ rd rn t8, i = .mrtest rd rn t8 → ∃ prime v,
        mr (s.x rn) (roundCount t8) ws = some prime ∧ final = .primality v ∧
          v.phase = .verdict prime := by
  cases i with
  | modexp rd rbase rexp rmod =>
    exact ⟨Apu.bitlen (s.x rexp), _, Work.run_power _ _ _,
      PowerWork.run_finished _ _ (Apu.lt_two_pow_bitlen _), fun t => ⟨rfl, rfl⟩, by simp⟩
  | extgcd rg rx ry ra rb =>
    have hb : 0 ≤ s.x rb := by
      simp only [failingSlot] at hf
      split_ifs at hf
      omega
    exact ⟨(s.x rb).toNat, _, Work.run_euclid _ _ _,
      EuclidWork.run_finished _ _ hb (Int.self_le_toNat _), fun t => ⟨rfl, rfl⟩, by simp⟩
  | modinv rd re rphi =>
    have hphi : 0 ≤ s.x rphi := by
      simp only [failingSlot] at hf
      split_ifs at hf
      omega
    refine ⟨(s.x rphi).toNat, _, Work.run_euclid _ _ _,
      EuclidWork.run_finished _ _ hphi (Int.self_le_toNat _), fun t => ?_, by simp⟩
    rw [commitOf, commitModinv]
    split <;> exact ⟨rfl, rfl⟩
  | mrtest rd rn t8 =>
    obtain ⟨hlen, hlegal⟩ := hmrtest rd rn t8 rfl
    obtain ⟨used, prime, v, hpre, hmr, -, hreach, hverdict⟩ :=
      MrWork.init_reaches_verdict (roundCount_pos t8) hlen (legal_of_special hlegal)
    obtain ⟨N, hN⟩ := hreach.run hpre
    refine ⟨N, .primality v, hN, v.finished_iff.2 ⟨prime, hverdict⟩, fun t => ?_, ?_⟩
    · rw [commitOf, commitVerdict_of_verdict hverdict]
      exact ⟨rfl, rfl⟩
    · rintro rd' rn' t8' ⟨⟩
      exact ⟨prime, v, mr_of_prefix hmr hpre, rfl, hverdict⟩
  | mrround rd rn ra =>
    obtain ⟨prime, v, -, hreach, hverdict⟩ := MrWork.init_given_reaches_verdict (s.x rn) (s.x ra)
    obtain ⟨N, hN⟩ := hreach.run List.nil_prefix
    refine ⟨N, .primality v, hN, v.finished_iff.2 ⟨prime, hverdict⟩, fun t => ?_, by simp⟩
    rw [commitOf, commitVerdict_of_verdict hverdict]
    exact ⟨rfl, rfl⟩

/-- Settles O60: the first engine step ends the loop, those after it make no progress, and the last commits;
so m is any number from 1 on. -/
theorem everyEngineStepCountIsReached : Obligations.EveryEngineStepCountIsReached := by
  intro s w i ws m hsub _ hd hf hm hmrtest
  obtain ⟨N, final, hfinal, hfin, hcommit, hverdict⟩ := initialWork_run_commits hf hmrtest
  obtain ⟨j, rfl⟩ : ∃ j, m = j + 1 := ⟨m - 1, by omega⟩
  obtain ⟨e, l, hstalled⟩ := run_stalled hsub.1 (w := w) i final j N ws [.engine 1 []]
  have hcompute : Host.Core.run Sys2Proof.core (1 + (j + 1)) { s with
        schedule := s.schedule ++ .engine N ws :: (List.replicate j (.engine 0 []) ++ [.engine 1 []]) } =
      .next (s.inFlight w ⟨i, final, true⟩ e l [.engine 1 []]) := by
    rw [show 1 + (j + 1) = 2 + j by omega,
      run_add_of_run (M := Sys2Proof.core) (run_accept_compute hsub hd hf N ws _), hfinal]
    exact hstalled
  have hlast : Host.Core.run Sys2Proof.core 1 (s.inFlight w ⟨i, final, true⟩ e l [.engine 1 []]) =
      .next (commitOf i (s.inFlight w ⟨i, final, true⟩ 1 [] []) final) := by
    refine run_one_of_step ((step_inFlight_engine hsub.1).trans ?_)
    rw [engineStep_inFlight_commit hfin Nat.one_pos]
  obtain ⟨hidle, hdone⟩ := hcommit (s.inFlight w ⟨i, final, true⟩ 1 [] [])
  refine ⟨.engine N ws :: (List.replicate j (.engine 0 []) ++ [.engine 1 []]), _, _, by simp, ?_, ?_,
    hcompute, rfl, (run_add_of_run (M := Sys2Proof.core) hcompute 1).trans hlast, hidle, hdone, ?_⟩
  · simp +contextual [or_imp, List.mem_replicate]
  · simp [witnessesOf]
  · rintro rd rn t8 rfl
    obtain ⟨prime, v, hmr, rfl, hphase⟩ := hverdict rd rn t8 rfl
    exact ⟨prime, hmr, (completes_commitVerdict (s := s) (w := w) hphase).written
      (rd, verdictInt prime) (by simp)⟩

end Sys2Proof.Machine

/-! ## What a step does to the block (R90)

A step resets the block, or has one of the effects of `Effect`; the rules about whole steps are read off
them. -/

namespace Sys2Proof.Machine

open Sys2Proof.Claims

/-! ### The next event taken -/

/-- `s` with the next event taken off the schedule and the model's own fields as given. -/
def State.taken (s : State) (rdata : Option Word) (effort : Nat) (answers : List Int) : State :=
  { s with schedule := s.schedule.tail, rdata := rdata, effort := effort, answers := answers }

section Taken

variable (s : State) (d : Option Word) (n : Nat) (l : List Int)

@[simp] theorem State.taken_regs : (s.taken d n l).regs = s.regs := rfl
@[simp] theorem State.taken_seq : (s.taken d n l).seq = s.seq := rfl
@[simp] theorem State.taken_ie : (s.taken d n l).ie = s.ie := rfl
@[simp] theorem State.taken_done : (s.taken d n l).done = s.done := rfl
@[simp] theorem State.taken_accerr : (s.taken d n l).accerr = s.accerr := rfl
@[simp] theorem State.taken_cmdovr : (s.taken d n l).cmdovr = s.cmdovr := rfl
@[simp] theorem State.taken_err : (s.taken d n l).err = s.err := rfl
@[simp] theorem State.taken_errinfo : (s.taken d n l).errinfo = s.errinfo := rfl
@[simp] theorem State.taken_lastcmd : (s.taken d n l).lastcmd = s.lastcmd := rfl
@[simp] theorem State.taken_rst : (s.taken d n l).rst = s.rst := rfl
@[simp] theorem State.taken_params : (s.taken d n l).params = s.params := rfl
@[simp] theorem State.taken_effort : (s.taken d n l).effort = n := rfl
@[simp] theorem State.taken_answers : (s.taken d n l).answers = l := rfl

end Taken

theorem State.busy_eq_of_seq {s t : State} (h : t.seq = s.seq) : t.busy = s.busy := by
  rw [State.busy, h, State.busy]

theorem State.busy_of_seq {s : State} {job : Job} (h : s.seq = .busy job) : s.busy = true :=
  s.busy_iff.2 ⟨job, h⟩

/-! ### Accept (R50) -/

/-- The operand checks name slots 2 to 5 only (R223). -/
theorem operandCheck_slot {s : State} {i : Instr} {slot : BitVec 3}
    (h : operandCheck s i = some slot) : 2 ≤ slot ∧ slot ≤ 5 := by
  cases i with
  | modexp =>
    simp only [operandCheck, checkModexp] at h
    split_ifs at h <;> cases h <;> decide
  | extgcd =>
    simp only [operandCheck, checkExtgcd] at h
    split_ifs at h <;> cases h <;> decide
  | modinv =>
    simp only [operandCheck, checkModinv] at h
    split_ifs at h <;> cases h <;> decide
  | mrtest => cases h
  | mrround =>
    simp only [operandCheck, checkMrround] at h
    split_ifs at h
    cases h
    decide

/-- What the accept step reads of the registers, it reads as the word is submitted. -/
theorem operandCheck_beginCommand (s : State) (w : Word) (i : Instr) :
    operandCheck (s.popped.beginCommand w) i = operandCheck s i := by cases i <;> rfl

theorem initialWork_beginCommand (s : State) (w : Word) (i : Instr) :
    initialWork (s.popped.beginCommand w) i = initialWork s i := by cases i <;> rfl

/-! ### Steps by their event -/

/-- The step of a host write inside the aperture is the write at its offset (R85, R90). -/
theorem step_of_write {s : State} {off : Nat} {v : Word} {strb : BitVec 4} {rest : List Event}
    (hr : s.rst = false) (hoff : off < 0x2000)
    (hs : s.schedule = .write (s.params.base + off) v strb :: rest) :
    step s = memWrite off v strb s.popped := by
  simp only [step, hs, turn, State.popped_rst, hr, hostWrite, State.popped_params,
    offsetOf_base_add s.params off hoff]
  rfl

/-- A submitted word is accepted (R46, R50). -/
theorem step_eq_acceptWord {s : State} {w : Word} {rest : List Event} (h : Submits s w rest) :
    step s = acceptWord w s.popped := by
  obtain ⟨hr, hi, hs⟩ := h
  have hidle : s.popped.busy = false := s.popped.not_busy_iff.2 hi
  rw [step_of_write hr (by decide) hs]
  simp [memWrite, (region_eq_cmd s.params 0x10).2 rfl, writeCmd, hidle]

/-- A step that resets the block leaves it at its reset values (R260, R261). -/
theorem step_of_resets {s : State} (h : Resets s) :
    ∃ b, step s = .next { s.popped.reinit with rst := b } := by
  by_cases hr : s.rst = true
  · have hheld : s.popped.reinit = { s.popped.reinit with rst := true } := by simp [State.reinit, hr]
    cases hs : s.schedule with
    | nil =>
      refine ⟨true, ?_⟩
      simp only [step, hs, turnAlone, State.popped_rst, hr]
      exact congrArg _ hheld
    | cons e rest =>
      cases e with
      | rst level =>
        refine ⟨level, ?_⟩
        simp only [step, hs, turn, rstTurn, State.popped_rst, hr]
        cases level <;> rfl
      | _ =>
        refine ⟨true, ?_⟩
        simp only [step, hs, turn, State.popped_rst, hr]
        exact congrArg _ hheld
  · have hr : s.rst = false := by simpa using hr
    rcases h with h | ⟨rest, hs⟩ | ⟨v, rest, hv, hs⟩
    · simp [hr] at h
    · exact ⟨true, by simp only [step, hs, turn, rstTurn]; rfl⟩
    · refine ⟨s.rst, ?_⟩
      rw [step_of_write hr (by decide) hs]
      simp only [memWrite, State.popped_params, (region_eq_ctrl s.params 0x08).2 rfl, State.writeCtrl, hv]
      rfl

/-! ### The effects of a step -/

/-- What a step that does not reset the block does to it, and from which event (R50 to R54, R74, R77 to R85,
R194, R246). -/
inductive Effect (s : State) : State → Prop
  | nothing (d n l) : Effect s (s.taken d n l)
  | refuseAccess (d n l) (h : RefusedAccess s) : Effect s (s.taken d n l).refuseAccess
  | writeStatus (v) (h : Writes s 0x0C v) : Effect s (s.popped.writeStatus v)
  | writeCtrl (v) (h : Writes s 0x08 v) (hv : v.getLsbD 1 = false) :
    Effect s { s.popped with ie := v.getLsbD 0 }
  | writeWindow (r w v) (hi : s.seq = .idle) (hw : w < s.params.wpr)
    (h : Writes s (windowOffset s.params r w) v) : Effect s (s.popped.setRegWord r w v)
  | refuseCommand (w) (hb : s.busy = true) (h : Writes s 0x10 w) : Effect s s.popped.refuseCommand
  | illegal (w rest why) (h : Submits s w rest) (hd : decode w = .error why) :
    Effect s ((s.popped.beginCommand w).raiseIllegal why)
  | invalid (w rest i slot) (h : Submits s w rest) (hd : decode w = .ok i)
    (hc : operandCheck s i = some slot) : Effect s ((s.popped.beginCommand w).raiseInvalid slot)
  | latch (w rest i) (h : Submits s w rest) (hd : decode w = .ok i)
    (hc : operandCheck s i = none) : Effect s ((s.popped.beginCommand w).latch i (initialWork s i))
  | compute (job n l) (hb : s.seq = .busy job)
    (hn : ¬(job.stepped = true ∧ job.work.finished = true ∧ 0 < n))
    (hl : l = [] ∨ ∃ rest, s.schedule = .engine n l :: rest) :
    Effect s { s.taken none n l with
      seq := .busy { job with work := job.work.run n l, stepped := true } }
  | commit (job n l) (hb : s.seq = .busy job) (hf : job.work.finished = true) :
    Effect s (commitOf job.cmd (s.taken none n l) job.work)
  | witness (job a rest) (hb : s.seq = .busy job) (h : s.schedule = .witness a :: rest) :
    Effect s { s.popped with seq := .busy { job with work := job.work.receive a } }

/-- The effect of a word submitted to CMD (R50). -/
theorem effect_of_submits {s t : State} {w : Word} {rest : List Event} (h : Submits s w rest)
    (ht : acceptWord w s.popped = .next t) : Effect s t := by
  unfold acceptWord at ht
  split at ht
  · rename_i why hd
    cases ht
    exact .illegal w rest why h hd
  · rename_i i hd
    rw [exec_of_idle (s := s.popped.beginCommand w) h.2.1, operandCheck_beginCommand,
      initialWork_beginCommand] at ht
    cases ht
    cases hc : operandCheck s i with
    | some slot => exact .invalid w rest i slot h hd hc
    | none => exact .latch w rest i h hd hc

/-- The effect of a write inside the aperture (R85). -/
theorem effect_of_write {s t : State} {off : Nat} {v : Word} {strb : BitVec 4} {rest : List Event}
    (hreset : ¬Resets s) (hr : s.rst = false) (hoff : off < 0x2000)
    (hs : s.schedule = .write (s.params.base + off) v strb :: rest)
    (ht : memWrite off v strb s.popped = .next t) : Effect s t := by
  have hrefuse : (strb ≠ 0xF ∨ RefusedOffset s.params off ∨ off = 0x0000 ∨ off = 0x0004 ∨
      off = 0x0014 ∨ 0x1000 ≤ off ∧ s.busy = true) → Effect s s.popped.refuseAccess := fun h =>
    .refuseAccess none s.effort s.answers ⟨hr, off, hoff, .inr ⟨v, strb, rest, hs, h⟩⟩
  rcases memWrite_cases off v strb s.popped t ht with
    ⟨h, rfl⟩ | ⟨rfl, h, rfl⟩ | ⟨rfl, h, rfl⟩ | ⟨rfl, h, hcmd⟩ | ⟨r, w, rfl, h, rfl⟩
  · have hrange := (region_refused s.params off).1
    have hreadonly : _ → Effect s s.popped.refuseAccess := fun h =>
      hrefuse (.inr (.inr (by have := (region_readonly s.params off).1 h; omega)))
    rcases h with h | h | h | h | h | h
    · exact hrefuse (.inl h)
    · exact hrefuse (.inr (.inl (hrange (.inr h))))
    · exact hrefuse (.inr (.inl (hrange (.inl h))))
    · exact hreadonly (.inl h)
    · exact hreadonly (.inr (.inl h))
    · exact hreadonly (.inr (.inr h))
  · cases (region_eq_ctrl s.params off).1 h
    by_cases hv : v.getLsbD 1 = true
    · exact absurd (.inr (.inr ⟨v, rest, hv, hs⟩)) hreset
    · rw [State.writeCtrl, if_neg hv]
      exact .writeCtrl v ⟨hr, rest, hs⟩ (by simpa using hv)
  · cases (region_eq_status s.params off).1 h
    exact .writeStatus v ⟨hr, rest, hs⟩
  · cases (region_eq_cmd s.params off).1 h
    rw [writeCmd] at hcmd
    split at hcmd
    · rename_i hb
      cases hcmd
      exact .refuseCommand v hb ⟨hr, rest, hs⟩
    · rename_i hb
      exact effect_of_submits ⟨hr, s.not_busy_iff.1 (Bool.eq_false_iff.2 hb), hs⟩ hcmd
  · obtain ⟨hw, rfl⟩ := region_eq_window s.params off r w h
    rw [State.writeWindow]
    split
    · rename_i hb
      exact hrefuse (.inr (.inr (.inr (.inr (.inr ⟨(windowOffset_bounds s.params r w hw).1, hb⟩)))))
    · rename_i hb
      exact .writeWindow r w v (s.not_busy_iff.1 (Bool.eq_false_iff.2 hb)) hw ⟨hr, rest, hs⟩

/-- The effect of a read inside the aperture (R84). -/
theorem effect_of_read {s : State} {off : Nat} {rest : List Event} (hr : s.rst = false)
    (hoff : off < 0x2000) (hs : s.schedule = .read (s.params.base + off) :: rest) :
    Effect s { (s.popped.memRead off).2 with rdata := some (s.popped.memRead off).1 } := by
  rcases s.popped.memRead_cases off with ⟨h, heq⟩ | ⟨-, heq⟩
  · rw [heq]
    exact .refuseAccess (some 0) s.effort s.answers
      ⟨hr, off, hoff, .inl ⟨rest, hs, (region_refused s.params off).1 h⟩⟩
  · rw [heq]
    exact .nothing (some _) s.effort s.answers

/-- The effect of the engine's turn (R52, R53, R246). -/
theorem effect_of_engineTurn {s t : State} {n : Nat} {l : List Int}
    (hl : l = [] ∨ ∃ rest, s.schedule = .engine n l :: rest)
    (ht : engineTurn (s.taken none n l) = .next t) : Effect s t := by
  unfold engineTurn at ht
  cases hb : s.seq with
  | idle =>
    rw [State.taken_seq, hb] at ht
    cases ht
    exact .nothing none n l
  | busy job =>
    rw [State.taken_seq, hb] at ht
    dsimp only at ht
    rw [exec_of_busy (s := s.taken none n l) hb] at ht
    cases ht
    rcases (s.taken none n l).engineStep_cases job (commitOf job.cmd (s.taken none n l)) with
      ⟨-, hf, -, heq⟩ | ⟨hn, heq⟩
    · rw [heq]
      exact .commit job n l hb hf
    · rw [heq]
      exact .compute job n l hb hn hl

/-- Every step that does not reset the block has one of the effects. -/
theorem effect_of_step {s t : State} (h : step s = .next t) (hreset : ¬Resets s) : Effect s t := by
  rcases step_cases s t h with ⟨b, -, hb⟩ | ⟨-, rest, -, rfl⟩ | ⟨hr, addr, rest, off, hs, ho, rfl⟩ |
    ⟨hr, addr, v, strb, rest, off, hs, ho, hw⟩ | ⟨hr, n, l, hs, he⟩ | ⟨hr, a, rest, hs, rfl⟩
  · exact absurd (hb.imp_right .inl) hreset
  · exact .nothing none s.effort s.answers
  · obtain ⟨rfl, hoff⟩ := (offsetOf_eq_some _ _ _).1 ho
    exact effect_of_read hr hoff hs
  · obtain ⟨rfl, hoff⟩ := (offsetOf_eq_some _ _ _).1 ho
    exact effect_of_write hreset hr hoff hs hw
  · exact effect_of_engineTurn (hs.imp_left fun h => h.2.2) he
  · unfold State.answerWitness
    split
    · exact .nothing none s.effort s.answers
    · rename_i job hb
      exact .witness job a rest hb hs

/-- What a step can do: reset the block, or one of the effects. -/
theorem step_effect {s t : State} (h : step s = .next t) :
    (Resets s ∧ ∃ b, t = { s.popped.reinit with rst := b }) ∨ (¬Resets s ∧ Effect s t) := by
  by_cases hreset : Resets s
  · obtain ⟨b, hb⟩ := step_of_resets hreset
    rw [hb] at h
    cases h
    exact .inl ⟨hreset, b, rfl⟩
  · exact .inr ⟨hreset, effect_of_step h hreset⟩

end Sys2Proof.Machine

/-! ## The commit step of each command (R53, R142, R164, R173, R197, R200) -/

namespace Sys2Proof.Machine

open Sys2Proof.Claims

/-! ### Any commit -/

/-- The engine's step of a command in flight whose result is known is its commit (R53). -/
theorem exec_commits {s : State} {cmd : Instr} {work : Work} (h : s.seq = .busy ⟨cmd, work, true⟩)
    (he : 0 < s.effort) (hf : work.finished = true) :
    exec cmd s = .next (commitOf cmd s work) := by
  rw [exec_of_busy h]
  exact congrArg _ (if_pos ⟨rfl, hf, he⟩)

theorem commitOf_shape (i : Instr) (s : State) (work : Work) :
    CommitShape i s (commitOf i s work) := by
  cases i with
  | modexp rd rbase rexp rmod => exact commitModexp_shape rd rbase rexp rmod s work
  | extgcd rg rx ry ra rb => exact commitExtgcd_shape rg rx ry ra rb s work
  | modinv rd re rphi => exact commitModinv_shape rd re rphi s work
  | mrtest rd rn t8 => exact commitVerdict_shape (.mrtest rd rn t8) rd rfl s work
  | mrround rd rn ra => exact commitVerdict_shape (.mrround rd rn ra) rd rfl s work

/-- The fields no commit writes (R53, R56): all but the registers, the sequencer, DONE, ERR and ERRINFO. -/
structure CommitFrame (s t : State) : Prop where
  ie : t.ie = s.ie
  accerr : t.accerr = s.accerr
  cmdovr : t.cmdovr = s.cmdovr
  lastcmd : t.lastcmd = s.lastcmd
  rst : t.rst = s.rst
  params : t.params = s.params
  rdata : t.rdata = s.rdata
  effort : t.effort = s.effort
  answers : t.answers = s.answers
  schedule : t.schedule = s.schedule

theorem State.complete_frame (s : State) (code : ErrCode) (slot : BitVec 3) (sub : BitVec 4)
    (l : List (RegId × Int)) : CommitFrame s (s.complete code slot sub l) := by
  constructor <;> simp

theorem CommitShape.frame {i : Instr} {s t : State} (h : CommitShape i s t) : CommitFrame s t := by
  rcases h with rfl | rfl | ⟨l, -, rfl⟩
  · constructor <;> rfl
  · exact s.complete_frame .notInvertible 0 0 []
  · exact s.complete_frame .none 0 0 l

theorem commitOf_frame (i : Instr) (s : State) (work : Work) : CommitFrame s (commitOf i s work) :=
  (commitOf_shape i s work).frame

/-- A commit with NONE completes the command with exactly its results. -/
theorem State.completes_commit {s : State} {results : List (RegId × Int)}
    (hnodup : (results.map Prod.fst).Nodup) (hfit : ∀ rv ∈ results, Fits s.params rv.2) :
    Completes s (s.commit results) .none 0 results where
  idle := rfl
  done := rfl
  err := rfl
  errinfo := rfl
  written rv hrv := by
    rw [← State.writeDests_x s results hnodup rv hrv (hfit rv hrv)]
    exact State.x_congr _ _ _ (by simp [State.commit]) (by simp [State.commit])
  kept r hr := by
    rw [State.commit, State.complete_regs, if_pos rfl, State.writeDests_regs_ne _ _ _ hr]
  ie := (s.complete_frame .none 0 0 results).ie
  accerr := (s.complete_frame .none 0 0 results).accerr
  cmdovr := (s.complete_frame .none 0 0 results).cmdovr
  lastcmd := (s.complete_frame .none 0 0 results).lastcmd
  rst := (s.complete_frame .none 0 0 results).rst
  params := (s.complete_frame .none 0 0 results).params

/-- One result that fits completes its command. -/
theorem State.completes_commit_one {s : State} {rd : RegId} {v : Int} (h : Fits s.params v) :
    Completes s (s.commit [(rd, v)]) .none 0 [(rd, v)] :=
  s.completes_commit (by simp) (by simpa using h)

/-- NOT_INVERTIBLE completes the command and writes no register (R224). -/
theorem State.completes_raiseNotInvertible (s : State) :
    Completes s s.raiseNotInvertible .notInvertible 0 [] :=
  ⟨rfl, rfl, rfl, rfl, by simp, fun _ _ => rfl, rfl, rfl, rfl, rfl, rfl, rfl⟩

/-! ### Each command's commit -/

theorem PowerWork.Inv.completes {w : PowerWork} (h : w.Inv) (hf : w.finished = true) {s : State}
    (hm : Fits s.params w.m) (rd : RegId) :
    Completes s (commitModexp rd s (.power w)) .none 0 [(rd, w.b ^ w.e.toNat % w.m)] := by
  rw [commitModexp, h.result_eq hf]
  exact s.completes_commit_one (fits_of_nonneg_of_lt hm (Int.emod_nonneg _ h.m_pos.ne')
    (Int.emod_lt_of_pos _ h.m_pos))

theorem EuclidWork.Inv.completes_extgcd {w : EuclidWork} (h : w.Inv) (hf : w.finished = true)
    {s : State} (ha : Fits s.params w.a) (hb : Fits s.params w.b) {rg rx ry : RegId}
    (hgx : rg ≠ rx) (hgy : rg ≠ ry) (hxy : rx ≠ ry) :
    Completes s (commitExtgcd rg rx ry s (.euclid w)) .none 0
      [(rg, (extgcd w.a w.b).1), (rx, (extgcd w.a w.b).2.1), (ry, (extgcd w.a w.b).2.2)] := by
  have hfit := fits_extgcd h.a_nonneg h.b_nonneg ha hb
  rw [← h.triple_of_finished hf] at hfit ⊢
  exact s.completes_commit (by simp [hgx, hgy, hxy]) (by simpa using hfit)

/-- MODINV's commit is decided by the gcd of its operands (R172, R173). -/
theorem EuclidWork.Inv.commitModinv_eq {w : EuclidWork} (h : w.Inv) (hf : w.finished = true)
    (rd : RegId) (s : State) :
    commitModinv rd s (.euclid w) =
      if Int.gcd w.a w.b = 1 then s.commit [(rd, modinv w.a w.b)] else s.raiseNotInvertible := by
  have hgcd := extgcd_fst_eq_gcd h.a_nonneg h.b_nonneg
  rw [modinv, commitModinv, ← ite_not]
  rw [← h.triple_of_finished hf] at hgcd ⊢
  dsimp only at hgcd
  exact if_congr (by omega) rfl rfl

theorem EuclidWork.Inv.completes_modinv {w : EuclidWork} (h : w.Inv) (hf : w.finished = true)
    (hpos : 0 < w.b) {s : State} (hb : Fits s.params w.b) (rd : RegId) :
    (Int.gcd w.a w.b = 1 →
      Completes s (commitModinv rd s (.euclid w)) .none 0 [(rd, modinv w.a w.b)]) ∧
    (Int.gcd w.a w.b ≠ 1 → Completes s (commitModinv rd s (.euclid w)) .notInvertible 0 []) := by
  obtain ⟨h0, hlt⟩ := modinv_bounds w.a hpos
  rw [h.commitModinv_eq hf]
  refine ⟨fun hg => ?_, fun hg => ?_⟩
  · rw [if_pos hg]
    exact s.completes_commit_one (fits_of_nonneg_of_lt hb h0 hlt)
  · rw [if_neg hg]
    exact s.completes_raiseNotInvertible

theorem MrWork.completes_verdict {w : MrWork} {prime : Bool} (h : w.phase = .verdict prime)
    (rd : RegId) (s : State) :
    Completes s (commitVerdict rd s (.primality w)) .none 0 [(rd, verdictInt prime)] := by
  rw [commitVerdict_of_verdict h]
  exact s.completes_commit_one (fits_verdictInt s.params prime)

/-! ### The verdict on the witnesses drawn (R192) -/

/-- The rounds of witnesses that all pass leave the test to those that follow (R192). -/
theorem mrRounds_of_all_pass {n u : Int} {k : Nat} {past : List Int}
    (h : ∀ a ∈ past, mrRound n u k a = true) (t : Nat) (rest : List Int) :
    mrRounds n u k (past.length + t) (past ++ rest) = mrRounds n u k t rest := by
  induction past with
  | nil => rw [List.length_nil, Nat.zero_add, List.nil_append]
  | cons a past ih =>
    obtain ⟨ha, hpast⟩ := List.forall_mem_cons.1 h
    rw [List.length_cons, Nat.succ_add, List.cons_append, mrRounds, if_pos ha, ih hpast]

/-- A known verdict is R192's on the witnesses drawn. -/
theorem MrWork.Inv.mr_draws {w : MrWork} (h : w.Inv) {prime : Bool} (hv : w.phase = .verdict prime) :
    mr w.n w.rounds w.draws = some prime := by
  cases hs : special w.n with
  | some verdict =>
    have hphase := (h.special_verdict verdict hs).1
    rw [hv] at hphase
    cases hphase
    simp [mr, hs]
  | none =>
    have hp := h.phase_ok hs
    rw [hv, MrWork.PhaseInv] at hp
    simp only [mr, hs]
    cases prime with
    | true =>
      obtain ⟨hlen, hall⟩ := hp
      have hrounds := mrRounds_of_all_pass hall 0 []
      rwa [Nat.add_zero, hlen, List.append_nil] at hrounds
    | false =>
      obtain ⟨past, a, hdraws, hall, hfail⟩ := hp
      have hle := h.draws_le
      rw [hdraws, List.length_append, List.length_singleton] at hle
      rw [hdraws, show w.rounds = past.length + (w.rounds - past.length - 1 + 1) by omega,
        mrRounds_of_all_pass hall, mrRounds, if_neg (by simp [hfail])]

/-- A known verdict of MRROUND is the one of its witness's round (R200). -/
theorem MrWork.Inv.mr_given {w : MrWork} (h : w.Inv) {prime : Bool} (hv : w.phase = .verdict prime)
    {a : Int} (ha : w.given = some a) : mr w.n 1 [a] = some prime := by
  obtain ⟨hrounds, hdraws, -⟩ := h.given_one a ha
  have hmr := h.mr_draws hv
  rw [hrounds] at hmr
  rcases hdraws with hd | hd <;> rw [hd] at hmr
  · exact mr_of_prefix hmr List.nil_prefix
  · exact hmr

/-! ### The obligations -/

/-- Settles O14: the loop of R140 has ended, and its invariant makes the result b^e mod m. -/
theorem modexpCommitWritesPower : Obligations.ModexpCommitWritesPower := by
  intro s rd rbase rexp rmod w hs he hinv hm hrem
  have hf : w.finished = true := w.finished_iff.2 hrem.le
  have hframe := commitOf_frame (.modexp rd rbase rexp rmod) s (.power w)
  exact ⟨_, exec_commits hs he hf, hinv.completes hf hm rd, hframe.schedule, hframe.rdata,
    hframe.effort, hframe.answers⟩

/-- Settles O15: the loop of R161 has ended, and its invariant makes the working state R160's triple. -/
theorem extgcdCommitWritesTriple : Obligations.ExtgcdCommitWritesTriple := by
  intro s rg rx ry ra rb w hs he hgx hgy hxy hinv ha hb hr1
  have hf : w.finished = true := w.finished_iff.2 hr1
  have hframe := commitOf_frame (.extgcd rg rx ry ra rb) s (.euclid w)
  exact ⟨_, exec_commits hs he hf, hinv.completes_extgcd hf ha hb hgx hgy hxy, hframe.schedule,
    hframe.rdata, hframe.effort, hframe.answers⟩

/-- Settles O16: the loop's first remainder is the gcd, and where it is 1 the normalised coefficient is the
inverse. -/
theorem modinvCommitWritesInverse : Obligations.ModinvCommitWritesInverse := by
  intro s rd re rphi w hs he hinv hpos hb hr1
  have hf : w.finished = true := w.finished_iff.2 hr1
  have hframe := commitOf_frame (.modinv rd re rphi) s (.euclid w)
  obtain ⟨hinverse, hnone⟩ := hinv.completes_modinv hf hpos hb rd
  obtain ⟨h0, hlt⟩ := modinv_bounds w.a hpos
  exact ⟨_, exec_commits hs he hf, hframe.schedule, hframe.rdata, hframe.effort, hframe.answers,
    fun hg => ⟨modinv w.a w.b, h0, hlt, mul_modinv_mod hinv.a_nonneg hpos hg, hinverse hg⟩, hnone⟩

/-- Settles O17: the verdict in the working state is R192's on the witnesses drawn. -/
theorem mrtestCommitWritesVerdict : Obligations.MrtestCommitWritesVerdict := by
  intro s rd rn t8 w prime hs he hinv hrounds hv
  have hframe := commitOf_frame (.mrtest rd rn t8) s (.primality w)
  exact ⟨hrounds ▸ hinv.mr_draws hv, _, exec_commits hs he (w.finished_iff.2 ⟨prime, hv⟩),
    w.completes_verdict hv rd s, hframe.schedule, hframe.rdata, hframe.effort, hframe.answers⟩

/-- Settles O18: the verdict in the working state is that of the latched witness's round. -/
theorem mrroundCommitWritesVerdict : Obligations.MrroundCommitWritesVerdict := by
  intro s rd rn ra w a prime hs he hinv hgiven hv
  have hframe := commitOf_frame (.mrround rd rn ra) s (.primality w)
  exact ⟨hinv.mr_given hv hgiven, _, exec_commits hs he (w.finished_iff.2 ⟨prime, hv⟩),
    w.completes_verdict hv rd s, hframe.schedule, hframe.rdata, hframe.effort, hframe.answers⟩

end Sys2Proof.Machine

/-! ## The invariant of a run (R30, R33, R48, R57, R143, R160, R192) -/

namespace Sys2Proof.Machine

open Sys2Proof.Claims

/-! ### The result of the factoring (R190) -/

/-- An odd factor and a power of two are determined by their product. -/
theorem odd_mul_two_pow_unique {u u' : Int} {k k' : Nat} (hu : u % 2 = 1) (hu' : u' % 2 = 1)
    (h : u * 2 ^ k = u' * 2 ^ k') : u = u' ∧ k = k' := by
  induction k generalizing k' with
  | zero =>
    cases k' with
    | zero => exact ⟨by simpa using h, rfl⟩
    | succ k' =>
      rw [pow_zero, mul_one, pow_succ, ← mul_assoc] at h
      omega
  | succ k ih =>
    cases k' with
    | zero =>
      rw [pow_zero, mul_one, pow_succ, ← mul_assoc] at h
      omega
    | succ k' =>
      rw [pow_succ, pow_succ, ← mul_assoc, ← mul_assoc] at h
      obtain ⟨rfl, rfl⟩ := ih (mul_right_cancel₀ two_ne_zero h)
      exact ⟨rfl, rfl⟩

/-- The halving loop may stop only at `factor`'s result. -/
theorem eq_factor {n u : Int} {k : Nat} (hn : 3 ≤ n) (hu : u % 2 = 1) (h : n - 1 = u * 2 ^ k) :
    (u, k) = factor n := by
  obtain ⟨hodd, heq⟩ := factor_spec hn
  obtain ⟨hfst, hsnd⟩ := odd_mul_two_pow_unique hu hodd (h.symm.trans heq)
  exact Prod.ext hfst hsnd

/-! ### A pass of a Miller–Rabin command keeps its invariant (R190 to R194) -/

theorem AllPass.concat {n a : Int} {past : List Int} (h : AllPass n past)
    (ha : mrRound n (factor n).1 (factor n).2 a = true) : AllPass n (past ++ [a]) := by
  simpa [AllPass, or_imp, forall_and] using ⟨h, ha⟩

section Keeps

variable {w : MrWork} (h : w.Inv) (hs : special w.n = none)
include h hs

/-- On an odd n ≥ 3 the invariant is kept by what changes neither the latched operands nor the witnesses, if
the phase is sound. -/
theorem MrWork.Inv.of_phase {w' : MrWork} (hn : w'.n = w.n) (hrounds : w'.rounds = w.rounds)
    (hgiven : w'.given = w.given) (hdraws : w'.draws = w.draws) (hp : w'.PhaseInv w'.phase) :
    w'.Inv where
  rounds_pos := hrounds ▸ h.rounds_pos
  draws_legal := by rw [hn, hdraws]; exact h.draws_legal
  draws_le := by rw [hrounds, hdraws]; exact h.draws_le
  given_one := by rw [hn, hrounds, hgiven, hdraws]; exact h.given_one
  special_verdict p hp' := by rw [hn, hs] at hp'; cases hp'
  phase_ok _ := hp

/-- A round begun with a legal witness, after rounds that all passed. -/
theorem MrWork.Inv.beginRound {a : Int} (hf : (w.u, w.k) = factor w.n)
    (hlt : w.draws.length < w.rounds) (hall : AllPass w.n w.draws) (ha : LegalWitness w.n a)
    (hgiven : ∀ b, w.given = some b → b = a) : (w.beginRound a).Inv where
  rounds_pos := h.rounds_pos
  draws_legal := by
    simpa [MrWork.beginRound, or_imp, forall_and] using ⟨h.draws_legal, ha⟩
  draws_le := by simpa [MrWork.beginRound] using hlt
  given_one b hb := by
    obtain ⟨hrounds, -, hlegal⟩ := h.given_one b hb
    have hnil : w.draws = [] := List.length_eq_zero_iff.1 (by omega)
    exact ⟨hrounds, .inr (by rw [MrWork.beginRound, hnil, hgiven b hb]; rfl), hlegal⟩
  special_verdict p hp := by rw [MrWork.beginRound, hs] at hp; cases hp
  phase_ok _ := by
    have hn := ((special_eq_none_iff w.n).1 hs).2
    have hu : 0 ≤ w.u := by
      have hpos : (0 : Int) < 2 ^ w.k := by positivity
      have heq := (factor_spec hn).2
      rw [← hf] at heq
      exact (pos_of_mul_pos_left (by dsimp only at heq; omega) hpos.le).le
    exact ⟨hf, PowerWork.inv_init (by have := ha.1; omega) hu (by omega), rfl, rfl, w.draws, rfl, hall⟩

/-- The next round's witness is the given one, or requested. -/
theorem MrWork.Inv.nextWitness (hf : (w.u, w.k) = factor w.n) (hlt : w.draws.length < w.rounds)
    (hall : AllPass w.n w.draws) : w.nextWitness.Inv := by
  unfold MrWork.nextWitness
  split
  · rename_i a hg
    obtain ⟨-, -, hlegal⟩ := h.given_one a hg
    exact h.beginRound hs hf hlt hall (hlegal hs) fun b hb => Option.some.inj (hb.symm.trans hg)
  · rename_i hg
    exact h.of_phase hs rfl rfl rfl rfl ⟨hg, hf, hlt, hall⟩

/-- A round that passes ends the test or is followed by the next. -/
theorem MrWork.Inv.passRound (hf : (w.u, w.k) = factor w.n) (hall : AllPass w.n w.draws) :
    w.passRound.Inv := by
  rw [MrWork.passRound]
  split
  · rename_i hle
    exact h.of_phase hs rfl rfl rfl rfl ⟨le_antisymm h.draws_le hle, hall⟩
  · rename_i hlt
    exact h.nextWitness hs hf (by omega) hall

theorem MrWork.Inv.iterate_of_factoring (hphase : w.phase = .factoring) : w.iterate.Inv := by
  have hn := ((special_eq_none_iff w.n).1 hs).2
  have hp := h.phase_ok hs
  rw [hphase] at hp
  obtain ⟨hdraws, hu, heq⟩ := hp
  rw [MrWork.iterate_factoring hphase, Apu.bit_zero, Apu.half_eq]
  split
  · rename_i heven
    refine h.of_phase hs rfl rfl rfl rfl (w' := { w with u := w.u / 2, k := w.k + 1 }) ?_
    dsimp only
    rw [hphase]
    refine ⟨hdraws, by dsimp only; omega, ?_⟩
    have htwice : w.u = w.u / 2 * 2 := by omega
    dsimp only
    rw [heq]
    conv_lhs => rw [htwice]
    ring
  · have hpos := h.rounds_pos
    exact h.nextWitness hs (eq_factor hn (by omega) heq) (by rw [hdraws, List.length_nil]; omega)
      (by simp [hdraws, AllPass])

theorem MrWork.Inv.iterate_of_powering {p : PowerWork} (hphase : w.phase = .powering p) :
    w.iterate.Inv := by
  obtain ⟨hodd, hn⟩ := (special_eq_none_iff w.n).1 hs
  have hp := h.phase_ok hs
  rw [hphase] at hp
  obtain ⟨hf, hpinv, he, hm, past, hdraws, hall⟩ := id hp
  rw [MrWork.iterate_powering hphase]
  by_cases hfin : p.finished = true
  · have hresult : p.result = modexp p.b w.u w.n := by
      rw [hpinv.result_eq hfin, ← he, ← hm]
      exact (modexp_eq_pow_mod hpinv.b_nonneg hpinv.e_nonneg hpinv.m_pos).symm
    have hround : mrRound w.n (factor w.n).1 (factor w.n).2 p.b =
        if p.result = 1 then true else squareLoop w.n w.k p.result := by
      rw [← hf, hresult]; rfl
    rw [if_pos hfin]
    split
    · rename_i hone
      have hw : ({ w with v := p.result, i := 0 } : MrWork).Inv :=
        h.of_phase hs rfl rfl rfl rfl (by dsimp only; rw [hphase]; exact hp)
      refine hw.passRound hs hf ?_
      rw [if_pos hone] at hround
      dsimp only
      rw [hdraws]
      exact hall.concat hround
    · rename_i hone
      have hk : 0 < w.k := by
        have := factor_snd_pos hodd hn
        rwa [← hf] at this
      rw [if_neg hone, ← hf] at hround
      exact h.of_phase hs rfl rfl rfl rfl ⟨hf, hk, past, p.b, hdraws, hall, hround⟩
  · have hkeep : p.iterate.b = p.b ∧ p.iterate.e = p.e ∧ p.iterate.m = p.m := p.run_operands 1
    obtain ⟨hb', he', hm'⟩ := hkeep
    rw [if_neg hfin]
    exact h.of_phase hs rfl rfl rfl rfl
      ⟨hf, hpinv.iterate, he'.trans he, hm'.trans hm, past, by rw [hb']; exact hdraws, hall⟩

theorem MrWork.Inv.iterate_of_squaring (hphase : w.phase = .squaring) : w.iterate.Inv := by
  have hp := h.phase_ok hs
  rw [hphase] at hp
  obtain ⟨hf, hi, past, a, hdraws, hall, hround⟩ := hp
  have htests : w.k - w.i = w.k - (w.i + 1) + 1 := by omega
  rw [htests, squareLoop] at hround
  rw [MrWork.iterate_squaring hphase]
  by_cases hv : w.v = Apu.sub w.n 1
  · rw [if_pos hv] at hround ⊢
    refine h.passRound hs hf (hdraws ▸ hall.concat ?_)
    rwa [← hf]
  · rw [if_neg hv] at hround ⊢
    split
    · rename_i hlast
      rw [hlast, Nat.sub_self] at hround
      exact h.of_phase hs rfl rfl rfl rfl ⟨past, a, hdraws, hall, by rw [← hf]; exact hround⟩
    · rename_i hlast
      refine h.of_phase hs rfl rfl rfl rfl
        (w' := { w with v := Apu.mod (Apu.mul w.v w.v) w.n, i := w.i + 1 }) ?_
      dsimp only
      rw [hphase]
      exact ⟨hf, by dsimp only; omega, past, a, hdraws, hall, hround⟩

end Keeps

/-- A command that has no verdict yet is one on an odd n ≥ 3. -/
theorem MrWork.Inv.special_eq_none {w : MrWork} (h : w.Inv) (hf : ¬w.finished = true) :
    special w.n = none := by
  rw [MrWork.finished_iff] at hf
  cases hs : special w.n with
  | none => rfl
  | some p => exact absurd ⟨p, (h.special_verdict p hs).1⟩ hf

theorem MrWork.Inv.iterate {w : MrWork} (h : w.Inv) : w.iterate.Inv := by
  by_cases hf : w.finished = true
  · have hw : Work.primality w.iterate = .primality w :=
      Work.iterate_of_finished (w := .primality w) hf
    rwa [Work.primality.inj hw]
  · have hs := h.special_eq_none hf
    cases hphase : w.phase with
    | factoring => exact h.iterate_of_factoring hs hphase
    | awaiting => rwa [MrWork.iterate, hphase]
    | powering p => exact h.iterate_of_powering hs hphase
    | squaring => exact h.iterate_of_squaring hs hphase
    | verdict p => exact absurd (w.finished_iff.2 ⟨p, hphase⟩) hf

/-- An answer of the entropy source keeps the invariant (R194). -/
theorem MrWork.Inv.receive {w : MrWork} (h : w.Inv) (a : Int) : (w.receive a).Inv := by
  unfold MrWork.receive
  split
  · rename_i hlegal
    obtain ⟨hphase, hlo, hhi⟩ := hlegal
    have hs := h.special_eq_none (by simp [MrWork.finished_iff, hphase])
    have hp := h.phase_ok hs
    rw [hphase] at hp
    obtain ⟨hgiven, hf, hlt, hall⟩ := hp
    exact h.beginRound hs hf hlt hall ⟨hlo, hhi⟩ fun b hb => by rw [hgiven] at hb; cases hb
  · exact h

theorem MrWork.inv_init {n : Int} {rounds : Nat} {given : Option Int} (hrounds : 1 ≤ rounds)
    (hgiven : ∀ a, given = some a → rounds = 1 ∧ (special n = none → LegalWitness n a)) :
    (MrWork.init n rounds given).Inv where
  rounds_pos := hrounds
  draws_legal := by simp [MrWork.init]
  draws_le := Nat.zero_le _
  given_one a ha := ⟨(hgiven a ha).1, .inl rfl, (hgiven a ha).2⟩
  special_verdict p hp := ⟨MrWork.init_phase_of_special hp rounds given, rfl⟩
  phase_ok hs := by
    have hn := ((special_eq_none_iff n).1 hs).2
    have hphase : (MrWork.init n rounds given).phase = .factoring := by
      rw [MrWork.init] at hs ⊢
      simp only at hs ⊢
      rw [hs]
    rw [hphase]
    exact ⟨rfl, by simp only [MrWork.init, Apu.sub_eq]; omega, by simp [MrWork.init]⟩

/-! ### The latched operands stay, and a sound working state stays sound (R51, R57) -/

/-- What passes and answers keep of a working state: its kind, its latched operands, and its invariant. -/
inductive Work.Kept : Work → Work → Prop
  | power {w w' : PowerWork} (hinv : w.Inv → w'.Inv) (hb : w'.b = w.b) (he : w'.e = w.e)
    (hm : w'.m = w.m) : Kept (.power w) (.power w')
  | euclid {w w' : EuclidWork} (hinv : w.Inv → w'.Inv) (ha : w'.a = w.a) (hb : w'.b = w.b) :
    Kept (.euclid w) (.euclid w')
  | primality {w w' : MrWork} (hinv : w.Inv → w'.Inv) (hn : w'.n = w.n)
    (hrounds : w'.rounds = w.rounds) (hgiven : w'.given = w.given) :
    Kept (.primality w) (.primality w')

theorem Work.Kept.refl (work : Work) : work.Kept work := by
  cases work with
  | power w => exact .power id rfl rfl rfl
  | euclid w => exact .euclid id rfl rfl
  | primality w => exact .primality id rfl rfl rfl

theorem Work.Kept.trans {u v w : Work} (h : u.Kept v) (h' : v.Kept w) : u.Kept w := by
  cases h with
  | power hinv hb he hm =>
    cases h' with
    | power hinv' hb' he' hm' =>
      exact .power (hinv' ∘ hinv) (hb'.trans hb) (he'.trans he) (hm'.trans hm)
  | euclid hinv ha hb =>
    cases h' with
    | euclid hinv' ha' hb' => exact .euclid (hinv' ∘ hinv) (ha'.trans ha) (hb'.trans hb)
  | primality hinv hn hr hg =>
    cases h' with
    | primality hinv' hn' hr' hg' =>
      exact .primality (hinv' ∘ hinv) (hn'.trans hn) (hr'.trans hr) (hg'.trans hg)

theorem MrWork.nextWitness_latched (w : MrWork) :
    w.nextWitness.n = w.n ∧ w.nextWitness.rounds = w.rounds ∧ w.nextWitness.given = w.given := by
  unfold MrWork.nextWitness
  split
  · exact ⟨rfl, rfl, rfl⟩
  · exact ⟨rfl, rfl, rfl⟩

theorem MrWork.passRound_latched (w : MrWork) :
    w.passRound.n = w.n ∧ w.passRound.rounds = w.rounds ∧ w.passRound.given = w.given := by
  unfold MrWork.passRound
  split
  · exact ⟨rfl, rfl, rfl⟩
  · exact w.nextWitness_latched

theorem MrWork.iterate_latched (w : MrWork) :
    w.iterate.n = w.n ∧ w.iterate.rounds = w.rounds ∧ w.iterate.given = w.given := by
  cases hphase : w.phase with
  | factoring =>
    rw [MrWork.iterate_factoring hphase]
    split
    · exact ⟨rfl, rfl, rfl⟩
    · exact w.nextWitness_latched
  | awaiting => simp [MrWork.iterate, hphase]
  | powering p =>
    rw [MrWork.iterate_powering hphase]
    split
    · split
      · exact MrWork.passRound_latched _
      · exact ⟨rfl, rfl, rfl⟩
    · exact ⟨rfl, rfl, rfl⟩
  | squaring =>
    rw [MrWork.iterate_squaring hphase]
    split
    · exact w.passRound_latched
    · split
      · exact ⟨rfl, rfl, rfl⟩
      · exact ⟨rfl, rfl, rfl⟩
  | verdict p => simp [MrWork.iterate, hphase]

theorem Work.kept_iterate (work : Work) : work.Kept work.iterate := by
  cases work with
  | power w =>
    obtain ⟨hb, he, hm⟩ := w.run_operands 1
    exact .power PowerWork.Inv.iterate hb he hm
  | euclid w =>
    obtain ⟨ha, hb⟩ := w.run_operands 1
    exact .euclid EuclidWork.Inv.iterate ha hb
  | primality w =>
    obtain ⟨hn, hr, hg⟩ := w.iterate_latched
    exact .primality MrWork.Inv.iterate hn hr hg

theorem Work.kept_receive (work : Work) (a : Int) : work.Kept (work.receive a) := by
  cases work with
  | power w => exact .refl _
  | euclid w => exact .refl _
  | primality w =>
    have hlatched : (w.receive a).n = w.n ∧ (w.receive a).rounds = w.rounds ∧
        (w.receive a).given = w.given := by
      unfold MrWork.receive
      split
      · exact ⟨rfl, rfl, rfl⟩
      · exact ⟨rfl, rfl, rfl⟩
    obtain ⟨hn, hr, hg⟩ := hlatched
    exact .primality (fun h => h.receive a) hn hr hg

theorem Work.kept_run (n : Nat) (l : List Int) (work : Work) : work.Kept (work.run n l) :=
  Work.run_induction (fun w h => h.trans w.kept_iterate) (fun w a _ h => h.trans (w.kept_receive a))
    n l work (.refl work)

theorem Job.Inv.of_kept {p : Params} {cmd : Instr} {work work' : Work} {stepped stepped' : Bool}
    (h : Job.Inv p ⟨cmd, work, stepped⟩) (hk : work.Kept work') :
    Job.Inv p ⟨cmd, work', stepped'⟩ := by
  cases hk with
  | power hinv hb he hm =>
    cases cmd with
    | modexp =>
      simp only [Job.Inv, hb, he, hm] at h ⊢
      exact h.imp_left hinv
    | _ => exact h
  | euclid hinv ha hb =>
    cases cmd with
    | extgcd =>
      simp only [Job.Inv, ha, hb] at h ⊢
      exact h.imp_left hinv
    | modinv =>
      simp only [Job.Inv, ha, hb] at h ⊢
      exact h.imp_left hinv
    | _ => exact h
  | primality hinv hn hr hg =>
    cases cmd with
    | mrtest =>
      simp only [Job.Inv, hn, hr, hg] at h ⊢
      exact h.imp_left hinv
    | mrround =>
      simp only [Job.Inv, hn, hg] at h ⊢
      exact h.imp_left hinv
    | _ => exact h

/-- The working state a command latches is sound when no operand check fails (R51, R223). -/
theorem Job.inv_initialWork {s : State} (hsized : s.RegsSized) {i : Instr}
    (hc : operandCheck s i = none) (stepped : Bool) :
    Job.Inv s.params ⟨i, initialWork s i, stepped⟩ := by
  have hfit := s.fits_x hsized
  cases i with
  | modexp rd rbase rexp rmod =>
    simp only [operandCheck, checkModexp] at hc
    split_ifs at hc
    exact ⟨PowerWork.inv_init (by omega) (by omega) (by omega), hfit rbase, hfit rexp, hfit rmod⟩
  | extgcd rg rx ry ra rb =>
    simp only [operandCheck, checkExtgcd] at hc
    split_ifs at hc
    exact ⟨EuclidWork.inv_init (by omega) (by omega), hfit ra, hfit rb⟩
  | modinv rd re rphi =>
    simp only [operandCheck, checkModinv] at hc
    split_ifs at hc
    have hphi : 0 < s.x rphi := by omega
    exact ⟨EuclidWork.inv_init (by omega) hphi.le, hphi, hfit re, hfit rphi⟩
  | mrtest rd rn t8 => exact ⟨MrWork.inv_init (roundCount_pos t8) (by simp), rfl, rfl, hfit rn⟩
  | mrround rd rn ra =>
    simp only [operandCheck, checkMrround] at hc
    split_ifs at hc
    rename_i hlegal
    refine ⟨MrWork.inv_init le_rfl ?_, rfl, hfit rn⟩
    rintro a ⟨⟩
    exact ⟨rfl, fun hs => ⟨by by_contra hlo; exact hlegal ⟨hs, .inl (by omega)⟩,
      by by_contra hhi; exact hlegal ⟨hs, .inr (by omega)⟩⟩⟩

/-! ### The invariant of a run, by the sequencer's state -/

theorem State.inv_of_idle {t : State} (hregs : t.RegsSized) (hinfo : ErrinfoAgrees t)
    (hidle : t.seq = .idle) (hr : t.rst = false) : t.Inv where
  regs_sized := hregs
  errinfo_agrees := hinfo
  busy_clean hb := by rw [t.not_busy_iff.2 hidle] at hb; cases hb
  busy_job job hj := by rw [hidle] at hj; cases hj
  rst_held h := by rw [hr] at h; cases h

theorem State.inv_of_busy {t : State} {job : Job} (hregs : t.RegsSized) (hb : t.seq = .busy job)
    (hclean : t.done = false ∧ t.err = .none ∧ t.errinfo = 0) (hd : decode t.lastcmd = .ok job.cmd)
    (hjob : job.Inv t.params) (hr : t.rst = false) : t.Inv where
  regs_sized := hregs
  errinfo_agrees := by rw [ErrinfoAgrees, hclean.2.1]; exact hclean.2.2
  busy_clean _ := ⟨hclean.1, hclean.2.1⟩
  busy_job job' hj := by rw [hb] at hj; cases hj; exact ⟨hd, hjob⟩
  rst_held h := by rw [hr] at h; cases h

/-- What keeps the registers' sizes, the sequencer, ERR, ERRINFO, LASTCMD and the parameters, and sets no DONE,
keeps the invariant. -/
theorem State.Inv.of_same {s t : State} (h : s.Inv) (hregs : t.RegsSized) (hseq : t.seq = s.seq)
    (hdone : t.done = true → s.done = true) (herr : t.err = s.err) (hinfo : t.errinfo = s.errinfo)
    (hlast : t.lastcmd = s.lastcmd) (hp : t.params = s.params) (hr : t.rst = false) : t.Inv where
  regs_sized := hregs
  errinfo_agrees := by
    have hagrees := h.errinfo_agrees
    rwa [ErrinfoAgrees, ← herr, ← hinfo] at hagrees
  busy_clean hb := by
    obtain ⟨hd, he⟩ := h.busy_clean (State.busy_eq_of_seq hseq ▸ hb)
    rw [hd] at hdone
    exact ⟨by simpa using hdone, herr.trans he⟩
  busy_job := by rw [hseq, hlast, hp]; exact h.busy_job
  rst_held h := by rw [hr] at h; cases h

theorem State.Inv.errinfo_of_busy {s : State} (h : s.Inv) (hb : s.busy = true) :
    s.done = false ∧ s.err = .none ∧ s.errinfo = 0 := by
  obtain ⟨hdone, herr⟩ := h.busy_clean hb
  have hagrees := h.errinfo_agrees
  rw [ErrinfoAgrees, herr] at hagrees
  exact ⟨hdone, herr, hagrees⟩

/-- The reset values satisfy the invariant, whatever the model's own fields are (R62). -/
theorem State.inv_resetOf (p : Params) (b : Bool) (d : Option Word) (n : Nat) (l : List Int)
    (events : List Event) :
    State.Inv { State.resetOf p with
      rst := b, rdata := d, effort := n, answers := l, schedule := events } where
  regs_sized r := by simp [State.resetOf]
  errinfo_agrees := rfl
  busy_clean hb := by cases hb
  busy_job job hj := by cases hj
  rst_held _ := rfl

/-- Settles O25: the reset values satisfy the invariant whatever the parameters. -/
theorem invariantAtReset : Obligations.InvariantAtReset :=
  ⟨fun p => State.inv_resetOf p false none 1 [] [],
    State.inv_resetOf Params.default false none 1 [] []⟩

/-! ### The effects of a step keep the invariant -/

/-- No effect but a reset moves the rst input. -/
theorem Effect.rst_eq {s t : State} (h : Effect s t) : t.rst = s.rst := by
  cases h with
  | commit job n l hb hf => exact (commitOf_frame _ _ _).rst
  | illegal w rest why h hd => exact (State.complete_frame _ _ _ _ _).rst
  | invalid w rest i slot h hd hc => exact (State.complete_frame _ _ _ _ _).rst
  | _ => rfl

theorem Effect.inv {s t : State} (h : Effect s t) (hinv : s.Inv) (hr : t.rst = false) : t.Inv := by
  have hsized := hinv.regs_sized
  cases h with
  | nothing d n l => exact hinv.of_same hsized rfl id rfl rfl rfl rfl hr
  | refuseAccess d n l h => exact hinv.of_same hsized rfl id rfl rfl rfl rfl hr
  | writeStatus v h =>
    refine hinv.of_same hsized rfl (fun hdone => ?_) rfl rfl rfl rfl hr
    rw [State.writeStatus_done, Bool.and_eq_true] at hdone
    exact hdone.1
  | writeCtrl v h hv => exact hinv.of_same hsized rfl id rfl rfl rfl rfl hr
  | writeWindow r w v hi hw h =>
    exact hinv.of_same (State.regsSized_setRegWord s.popped hsized r w v) rfl id rfl rfl rfl rfl hr
  | refuseCommand w hb h => exact hinv.of_same hsized rfl id rfl rfl rfl rfl hr
  | illegal w rest why h hd => exact State.inv_of_idle hsized ⟨why, rfl⟩ rfl hr
  | invalid w rest i slot h hd hc =>
    obtain ⟨hlo, hhi⟩ := operandCheck_slot hc
    exact State.inv_of_idle hsized ⟨slot, hlo, hhi, rfl⟩ rfl hr
  | latch w rest i h hd hc =>
    exact State.inv_of_busy hsized rfl ⟨rfl, rfl, rfl⟩ hd (Job.inv_initialWork hsized hc false) hr
  | compute job n l hb hn hl =>
    obtain ⟨hd, hjob⟩ := hinv.busy_job job hb
    exact State.inv_of_busy hsized rfl (hinv.errinfo_of_busy (State.busy_of_seq hb)) hd
      (hjob.of_kept (job.work.kept_run n l)) hr
  | commit job n l hb hf =>
    rcases commitOf_shape job.cmd (s.taken none n l) job.work with h | h | ⟨results, -, h⟩ <;>
      rw [h] at hr ⊢
    · exact hinv.of_same hsized rfl id rfl rfl rfl rfl hr
    · exact State.inv_of_idle hsized rfl rfl hr
    · refine State.inv_of_idle ?_ rfl rfl hr
      exact State.regsSized_writeDests (s.taken none n l) hsized results
  | witness job a rest hb h =>
    obtain ⟨hd, hjob⟩ := hinv.busy_job job hb
    exact State.inv_of_busy hsized rfl (hinv.errinfo_of_busy (State.busy_of_seq hb)) hd
      (hjob.of_kept (job.work.kept_receive a)) hr

/-- Settles O24: a reset leaves the reset values, and every other effect keeps the invariant. -/
theorem invariantKeptByEveryStep : Obligations.InvariantKeptByEveryStep := by
  intro s t hinv hstep
  rcases step_effect hstep with ⟨-, b, rfl⟩ | ⟨hreset, heff⟩
  · exact State.inv_resetOf s.params b none s.effort s.answers s.schedule.tail
  · refine heff.inv hinv ?_
    rw [heff.rst_eq]
    exact Bool.eq_false_iff.2 fun hr => hreset (.inl hr)

/-! ### Completions are right (R53) -/

/-- What the rules give for a job whose result is known, its commit completes with (R53). -/
theorem Job.Inv.right_completion {s : State} {job : Job} (h : job.Inv s.params)
    (hwf : job.cmd.wf = true) (hf : job.work.finished = true) :
    ∃ code results, RightResult job code results ∧
      Completes s (commitOf job.cmd s job.work) code 0 results := by
  obtain ⟨cmd, work, stepped⟩ := job
  cases cmd with
  | modexp rd rbase rexp rmod =>
    cases work with
    | power w =>
      obtain ⟨hinv, -, -, hm⟩ := h
      exact ⟨_, _, ⟨rfl, rfl⟩, hinv.completes hf hm rd⟩
    | _ => exact h.elim
  | extgcd rg rx ry ra rb =>
    cases work with
    | euclid w =>
      obtain ⟨hinv, ha, hb⟩ := h
      simp only [Instr.wf, Bool.and_eq_true, decide_eq_true_eq] at hwf
      obtain ⟨⟨hgx, hgy⟩, hxy⟩ := hwf
      exact ⟨_, _, ⟨rfl, rfl⟩, hinv.completes_extgcd hf ha hb hgx hgy hxy⟩
    | _ => exact h.elim
  | modinv rd re rphi =>
    cases work with
    | euclid w =>
      obtain ⟨hinv, hpos, -, hb⟩ := h
      obtain ⟨hinverse, hnone⟩ := hinv.completes_modinv hf hpos hb rd
      by_cases hg : Int.gcd w.a w.b = 1
      · exact ⟨_, _, by simp [RightResult, hg], hinverse hg⟩
      · exact ⟨_, _, by simp [RightResult, hg], hnone hg⟩
    | _ => exact h.elim
  | mrtest rd rn t8 =>
    cases work with
    | primality w =>
      obtain ⟨prime, hv⟩ := w.finished_iff.1 hf
      exact ⟨_, _, ⟨prime, h.1.mr_draws hv, rfl, rfl⟩, w.completes_verdict hv rd s⟩
    | _ => exact h.elim
  | mrround rd rn ra =>
    cases work with
    | primality w =>
      obtain ⟨prime, hv⟩ := w.finished_iff.1 hf
      obtain ⟨hinv, hgiven, -⟩ := h
      obtain ⟨a, ha⟩ := Option.isSome_iff_exists.1 hgiven
      exact ⟨_, _, ⟨prime, a, ha, hinv.mr_given hv ha, rfl, rfl⟩, w.completes_verdict hv rd s⟩
    | _ => exact h.elim

/-- A decoded command is well formed (R120). -/
theorem wf_of_decode {w : Word} {i : Instr} (h : decode w = .ok i) : i.wf = true := by
  obtain ⟨op, -, -, -, hwf, rfl⟩ := (decode_eq_ok w i).1 h
  exact hwf

/-- The model's own fields have no part in a completion. -/
theorem Completes.of_taken {s t : State} {d : Option Word} {n : Nat} {l : List Int} {code : ErrCode}
    {info : Word} {results : List (RegId × Int)} (h : Completes (s.taken d n l) t code info results) :
    Completes s t code info results :=
  ⟨h.idle, h.done, h.err, h.errinfo, h.written, h.kept, h.ie, h.accerr, h.cmdovr, h.lastcmd, h.rst,
    h.params⟩

/-- Settles O26: while BUSY only the commit sets DONE, and the invariant makes its results right. -/
theorem everyCompletionIsRight : Obligations.EveryCompletionIsRight := by
  intro s t job hinv hs hstep hdone
  have hclean := (hinv.busy_clean (State.busy_of_seq hs)).1
  rcases step_effect hstep with ⟨-, b, rfl⟩ | ⟨-, heff⟩
  · cases hdone
  · cases heff with
    | commit job' n l hb hf =>
      rw [hs] at hb
      cases hb
      obtain ⟨hd, hjob⟩ := hinv.busy_job job hs
      obtain ⟨code, results, hright, hcompletes⟩ :=
        Job.Inv.right_completion (s := s.taken none n l) hjob (wf_of_decode hd) hf
      exact ⟨code, results, hright, hcompletes.of_taken⟩
    | writeWindow r w v hi hw h => rw [hs] at hi; cases hi
    | illegal w rest why h hd => rw [h.2.1] at hs; cases hs
    | invalid w rest i slot h hd hc => rw [h.2.1] at hs; cases hs
    | latch w rest i h hd hc => cases hdone
    | _ => simp [hclean] at hdone

end Sys2Proof.Machine

/-! ## The rules about whole steps (R31, R44 to R62) -/

namespace Sys2Proof.Machine

open Sys2Proof.Claims

/-! ### What a command writes (R56) -/

/-- A word accepted completes with an error code, or its command is latched (R50). -/
theorem acceptWord_shape {w : Word} {s t : State} (hi : s.seq = .idle)
    (ht : acceptWord w s = .next t) :
    (∃ code slot sub, code ≠ .none ∧ t = (s.beginCommand w).complete code slot sub []) ∨
      ∃ i work, t = (s.beginCommand w).latch i work := by
  have hidle : s.busy = false := s.not_busy_iff.2 hi
  rcases writeCmd_shape w s t (by rwa [writeCmd, if_neg (by simp [hidle])]) with
    ⟨hb, -⟩ | ⟨-, hfail | ⟨i, work, -, ht⟩⟩
  · rw [hidle] at hb; cases hb
  · exact .inl hfail
  · exact .inr ⟨i, work, ht⟩

theorem acceptWord_next (w : Word) (s : State) : ∃ t, acceptWord w s = .next t := by
  unfold acceptWord
  split
  · exact ⟨_, rfl⟩
  · exact exec_next _ _

/-- The accept step of any word begins the command and writes no register (R50, R56). -/
theorem acceptWord_frame {w : Word} {s t : State} (hi : s.seq = .idle)
    (ht : acceptWord w s = .next t) : CommitFrame (s.beginCommand w) t ∧ t.regs = s.regs := by
  rcases acceptWord_shape hi ht with ⟨code, slot, sub, hcode, rfl⟩ | ⟨i, work, rfl⟩
  · exact ⟨State.complete_frame _ _ _ _ _, by rw [State.complete_regs, if_neg hcode]; rfl⟩
  · exact ⟨by constructor <;> rfl, rfl⟩

/-- One step of a command that no other holds up writes nothing but its destinations and its completion
record, and a register only where it completes with NONE (R56, R227). -/
theorem exec_frame {i : Instr} {s t : State} (hi : ∀ job, s.seq = .busy job → job.cmd = i)
    (ht : exec i s = .next t) :
    CommitFrame s t ∧ (∀ r : RegId, r ∉ dests i → t.regs[r] = s.regs[r]) ∧
      (t.seq ≠ .idle ∨ t.err ≠ .none → t.regs = s.regs) := by
  rcases exec_cases i s t ht with ⟨-, ⟨slot, -, -, rfl⟩ | ⟨work, rfl⟩⟩ |
    ⟨job, -, -, ⟨-, -, -, hshape⟩ | ⟨-, rfl⟩⟩ | ⟨job, hb, hne, -⟩
  · exact ⟨State.complete_frame _ _ _ _ _, fun _ _ => rfl, fun _ => rfl⟩
  · exact ⟨by constructor <;> rfl, fun _ _ => rfl, fun _ => rfl⟩
  · refine ⟨hshape.frame, hshape.regs_ne, ?_⟩
    rcases hshape with rfl | rfl | ⟨l, -, rfl⟩
    · exact fun _ => rfl
    · exact fun _ => rfl
    · rintro (h | h)
      · exact absurd rfl h
      · exact absurd rfl h
  · exact ⟨by constructor <;> rfl, fun _ _ => rfl, fun _ => rfl⟩
  · exact absurd (hi job hb) hne

/-- Settles O30: the accept step, and any step of a command, by what they write. -/
theorem commandWritesNothingElse : Obligations.CommandWritesNothingElse := by
  refine ⟨fun w s hi => ?_, fun i s hi => ?_⟩
  · obtain ⟨t, ht⟩ := acceptWord_next w s
    obtain ⟨hframe, hregs⟩ := acceptWord_frame hi ht
    exact ⟨t, ht, hframe.lastcmd, hregs, hframe.ie, hframe.accerr, hframe.cmdovr, hframe.rst,
      hframe.params, hframe.schedule, hframe.rdata, hframe.effort, hframe.answers⟩
  · obtain ⟨t, ht⟩ := exec_next i s
    obtain ⟨hframe, hregs⟩ := exec_frame hi ht
    exact ⟨t, ht, hframe.ie, hframe.accerr, hframe.cmdovr, hframe.lastcmd, hframe.rst, hframe.params,
      hframe.schedule, hframe.rdata, hframe.effort, hframe.answers, hregs⟩

/-! ### DONE and BUSY (R44) -/

/-- No effect leaves DONE set beside BUSY: accept clears DONE, and a completion leaves the block IDLE. -/
theorem Effect.notDoneWhileBusy {s t : State} (h : Effect s t) (hs : NotDoneWhileBusy s) :
    NotDoneWhileBusy t := by
  rintro ⟨hd, hb⟩
  cases h with
  | writeStatus v h =>
    rw [State.writeStatus_done, Bool.and_eq_true] at hd
    exact hs ⟨hd.1, hb⟩
  | illegal w rest why h hd => cases hb
  | invalid w rest i slot h hd hc => cases hb
  | latch w rest i h hd' hc => cases hd
  | compute job n l hb' hn hl => exact hs ⟨hd, State.busy_of_seq hb'⟩
  | witness job a rest hb' h => exact hs ⟨hd, State.busy_of_seq hb'⟩
  | commit job n l hb' hf =>
    rcases commitOf_shape job.cmd (s.taken none n l) job.work with h | h | ⟨results, -, h⟩ <;>
      rw [h] at hd hb
    · exact hs ⟨hd, hb⟩
    · cases hb
    · cases hb
  | _ => exact hs ⟨hd, hb⟩

/-- Settles O27: neither is set after a reset, and no effect sets one beside the other. -/
theorem doneAndBusyNeverTogether : Obligations.DoneAndBusyNeverTogether := by
  refine ⟨fun p ⟨hd, _⟩ => Bool.false_ne_true hd, fun s t hs hstep => ?_⟩
  rcases step_effect hstep with ⟨-, b, rfl⟩ | ⟨-, heff⟩
  · rintro ⟨hd, -⟩
    cases hd
  · exact heff.notDoneWhileBusy hs

/-! ### The registers and the parameters (R31, R227) -/

/-- No effect changes the parameters (R8). -/
theorem Effect.params_eq {s t : State} (h : Effect s t) : t.params = s.params := by
  cases h with
  | commit job n l hb hf => exact (commitOf_frame _ _ _).params
  | illegal w rest why h hd => exact (State.complete_frame _ _ _ _ _).params
  | invalid w rest i slot h hd hc => exact (State.complete_frame _ _ _ _ _).params
  | _ => rfl

/-- A register that an effect changes has a word of its window written while IDLE, or is a destination of a
command that commits with NONE. -/
theorem Effect.regs_changed {s t : State} (h : Effect s t) {r : RegId} (hr : t.regs[r] ≠ s.regs[r]) :
    (s.seq = .idle ∧ ∃ w v, w < s.params.wpr ∧ Writes s (windowOffset s.params r w) v) ∨
    ∃ job, s.seq = .busy job ∧ r ∈ dests job.cmd ∧ t.seq = .idle ∧ t.done = true ∧ t.err = .none := by
  cases h with
  | writeWindow q w v hi hw h =>
    by_cases hq : r = q
    · subst hq
      exact .inl ⟨hi, w, v, hw, h⟩
    · exact absurd (s.popped.regs_setRegWord_ne q r w v hq) hr
  | commit job n l hb hf =>
    have hshape := commitOf_shape job.cmd (s.taken none n l) job.work
    have hdest : r ∈ dests job.cmd := by_contra fun hd => hr (hshape.regs_ne r hd)
    rcases hshape with h | h | ⟨results, -, h⟩ <;> rw [h] at hr ⊢
    · exact absurd rfl hr
    · exact absurd rfl hr
    · exact .inr ⟨job, hb, hdest, rfl, rfl, rfl⟩
  | _ => exact absurd rfl hr

/-- Settles O28: the effects that change a register are a window write and a successful commit. -/
theorem registersChangeOnlyByTheirWriters : Obligations.RegistersChangeOnlyByTheirWriters := by
  intro s t hstep
  rcases step_effect hstep with ⟨hreset, b, rfl⟩ | ⟨-, heff⟩
  · exact ⟨rfl, fun _ _ => .inr (.inr hreset)⟩
  · refine ⟨heff.params_eq, fun r hr => ?_⟩
    rcases heff.regs_changed hr with ⟨hi, w, v, hw, hrst, rest, hs⟩ | hcommit
    · exact .inl ⟨hi, hrst, w, v, rest, hw, hs⟩
    · exact .inr (.inl hcommit)

/-! ### LASTCMD (R47) -/

/-- No effect but an accept changes LASTCMD. -/
theorem Effect.lastcmd_eq {s t : State} (h : Effect s t) (hsub : ¬∃ w rest, Submits s w rest) :
    t.lastcmd = s.lastcmd := by
  cases h with
  | commit job n l hb hf => exact (commitOf_frame _ _ _).lastcmd
  | illegal w rest why h hd => exact absurd ⟨w, rest, h⟩ hsub
  | invalid w rest i slot h hd hc => exact absurd ⟨w, rest, h⟩ hsub
  | latch w rest i h hd hc => exact absurd ⟨w, rest, h⟩ hsub
  | _ => rfl

/-- Settles O29: the accept step sets LASTCMD, a reset clears it, and no other effect changes it. -/
theorem lastcmdIsTheLastAcceptedWord : Obligations.LastcmdIsTheLastAcceptedWord := by
  intro s t hstep
  refine ⟨fun w rest hsub => ?_, fun hreset => ?_, fun hsub hreset => ?_⟩
  · rw [step_eq_acceptWord hsub] at hstep
    exact (acceptWord_frame (s := s.popped) hsub.2.1 hstep).1.lastcmd
  · obtain ⟨b, hb⟩ := step_of_resets hreset
    rw [hb] at hstep
    cases hstep
    rfl
  · exact (effect_of_step hstep hreset).lastcmd_eq hsub

/-! ### The flags (R49, R229) -/

section Flags

variable {s t : State} (h : Effect s t)
include h

theorem Effect.accerr_cases :
    t.accerr = s.accerr ∨ t.accerr = true ∧ RefusedAccess s ∨
      t.accerr = false ∧ ClearsStatusBit s 2 := by
  cases h with
  | refuseAccess d n l h => exact .inr (.inl ⟨rfl, h⟩)
  | writeStatus v h =>
    rw [State.writeStatus_accerr]
    cases hv : v.getLsbD 2 with
    | false => exact .inl (Bool.and_true _)
    | true => exact .inr (.inr ⟨Bool.and_false _, v, hv, h⟩)
  | commit job n l hb hf => exact .inl (commitOf_frame _ _ _).accerr
  | illegal w rest why h hd => exact .inl (State.complete_frame _ _ _ _ _).accerr
  | invalid w rest i slot h hd hc => exact .inl (State.complete_frame _ _ _ _ _).accerr
  | _ => exact .inl rfl

theorem Effect.cmdovr_cases :
    t.cmdovr = s.cmdovr ∨ t.cmdovr = true ∧ (∃ w, s.busy = true ∧ Writes s 0x10 w) ∨
      t.cmdovr = false ∧ ClearsStatusBit s 3 := by
  cases h with
  | refuseCommand w hb h => exact .inr (.inl ⟨rfl, w, hb, h⟩)
  | writeStatus v h =>
    rw [State.writeStatus_cmdovr]
    cases hv : v.getLsbD 3 with
    | false => exact .inl (Bool.and_true _)
    | true => exact .inr (.inr ⟨Bool.and_false _, v, hv, h⟩)
  | commit job n l hb hf => exact .inl (commitOf_frame _ _ _).cmdovr
  | illegal w rest why h hd => exact .inl (State.complete_frame _ _ _ _ _).cmdovr
  | invalid w rest i slot h hd hc => exact .inl (State.complete_frame _ _ _ _ _).cmdovr
  | _ => exact .inl rfl

theorem Effect.ie_cases :
    t.ie = s.ie ∨ ∃ v, v.getLsbD 1 = false ∧ v.getLsbD 0 = t.ie ∧ Writes s 0x08 v := by
  cases h with
  | writeCtrl v h hv => exact .inr ⟨v, hv, rfl, h⟩
  | commit job n l hb hf => exact .inl (commitOf_frame _ _ _).ie
  | illegal w rest why h hd => exact .inl (State.complete_frame _ _ _ _ _).ie
  | invalid w rest i slot h hd hc => exact .inl (State.complete_frame _ _ _ _ _).ie
  | _ => exact .inl rfl

/-- DONE, ERR and ERRINFO are written by a completion, and cleared by an accept; DONE also by the host's write
of 1 to it. -/
theorem Effect.completion_cases :
    t.err = s.err ∧ t.errinfo = s.errinfo ∧
      (t.done = s.done ∨ t.done = false ∧ ClearsStatusBit s 1) ∨
    Completing s t ∨
    t.done = false ∧ ∃ w rest, Submits s w rest := by
  cases h with
  | writeStatus v h =>
    refine .inl ⟨rfl, rfl, ?_⟩
    rw [State.writeStatus_done]
    cases hv : v.getLsbD 1 with
    | false => exact .inl (Bool.and_true _)
    | true => exact .inr ⟨Bool.and_false _, v, hv, h⟩
  | commit job n l hb hf =>
    rcases commitOf_shape job.cmd (s.taken none n l) job.work with h | h | ⟨results, -, h⟩ <;> rw [h]
    · exact .inl ⟨rfl, rfl, .inl rfl⟩
    · exact .inr (.inl ⟨rfl, rfl, .inl (State.busy_of_seq hb)⟩)
    · exact .inr (.inl ⟨rfl, rfl, .inl (State.busy_of_seq hb)⟩)
  | illegal w rest why h hd => exact .inr (.inl ⟨rfl, rfl, .inr ⟨w, rest, h⟩⟩)
  | invalid w rest i slot h hd hc => exact .inr (.inl ⟨rfl, rfl, .inr ⟨w, rest, h⟩⟩)
  | latch w rest i h hd hc => exact .inr (.inr ⟨rfl, w, rest, h⟩)
  | _ => exact .inl ⟨rfl, rfl, .inl rfl⟩

end Flags

/-- Settles O58: a reset clears every flag, and each other effect changes only its own. -/
theorem flagsChangeOnlyByTheirCauses : Obligations.FlagsChangeOnlyByTheirCauses := by
  intro s t hstep
  rcases step_effect hstep with ⟨hreset, b, rfl⟩ | ⟨-, heff⟩
  · exact ⟨fun h => absurd h Bool.false_ne_true, fun _ _ => .inr hreset,
      fun h => absurd h Bool.false_ne_true, fun _ _ => .inr hreset,
      fun h => absurd h Bool.false_ne_true, fun _ _ => .inr (.inr hreset),
      fun _ => .inr (.inr hreset), fun _ => .inr hreset⟩
  · have haccerr := heff.accerr_cases
    have hcmdovr := heff.cmdovr_cases
    have hcompletion := heff.completion_cases
    refine ⟨fun ht hs => ?_, fun ht hs => ?_, fun ht hs => ?_, fun ht hs => ?_, fun ht hs => ?_,
      fun ht hs => ?_, fun hne => ?_, fun hne => .inl (heff.ie_cases.resolve_left hne)⟩
    · simpa [ht, hs] using haccerr
    · simp only [ht, hs, Bool.false_eq_true, false_and, true_and, false_or] at haccerr
      exact .inl haccerr
    · simpa [ht, hs] using hcmdovr
    · simp only [ht, hs, Bool.false_eq_true, false_and, true_and, false_or] at hcmdovr
      exact .inl hcmdovr
    · simpa [ht, hs] using hcompletion
    · rcases hcompletion with ⟨-, -, h | ⟨-, h⟩⟩ | ⟨-, h, -⟩ | ⟨-, h⟩
      · rw [ht, hs] at h; cases h
      · exact .inl h
      · rw [ht] at h; cases h
      · exact .inr (.inl h)
    · rcases hcompletion with ⟨herr, hinfo, -⟩ | h | ⟨-, h⟩
      · exact absurd hne (by simp [herr, hinfo])
      · exact .inl h
      · exact .inr (.inl h)

/-! ### The reset values (R62) -/

@[simp] theorem wordsToNat_replicate_zero (k : Nat) : wordsToNat (List.replicate k 0#32) = 0 := by
  induction k with
  | zero => rfl
  | succ k ih => simp [List.replicate_succ, wordsToNat, ih]

/-- CFG holds 16, 8 and WPR in its fields (R42). -/
theorem cfgWord_eq (p : Params) :
    cfgWord p = BitVec.ofNat 32 (2 ^ 20 * 16 + 2 ^ 16 * 8 + p.wpr) := by
  have hwpr := p.wpr_le
  apply BitVec.eq_of_toNat_eq
  unfold cfgWord
  repeat rw [toNat_append_add]
  simp [Config.tdef, Config.nreg]
  omega

/-- Every piece of state that R62 lists has its reset value after a reset, whatever the model's own fields
are. -/
theorem atResetValues_resetOf (p : Params) (b : Bool) (d : Option Word) (n : Nat) (l : List Int)
    (events : List Event) :
    AtResetValues { State.resetOf p with
      rst := b, rdata := d, effort := n, answers := l, schedule := events } := by
  refine ⟨fun r => ⟨?_, fun w => ?_⟩, rfl, rfl, rfl, rfl, rfl, rfl, rfl, rfl, rfl, rfl, rfl, ?_, ?_,
    rfl, cfgWord_eq p⟩
  · simp [State.x, State.pattern, State.resetOf, intOfPattern]
  · simp [State.regWord, State.resetOf]
  · simp [State.memRead, region, State.regionWord, State.ctrlWord, State.resetOf]
  · simp [State.memRead, region, State.regionWord, State.statusWord, State.resetOf, State.busy,
      ErrCode.code]

/-- Settles O40: the reset values, whatever the parameters. -/
theorem resetValues : Obligations.ResetValues :=
  ⟨fun p => atResetValues_resetOf p false none 1 [] [],
    atResetValues_resetOf Params.default false none 1 [] []⟩

/-! ### A pending witness request (R58, R194) -/

/-- The request of a job in flight. -/
theorem State.witnessRequest_eq_some {s : State} {n : Int} :
    s.witnessRequest = some n ↔ ∃ cmd w stepped, s.seq = .busy ⟨cmd, .primality w, stepped⟩ ∧
      w.phase = .awaiting ∧ w.n = n := by
  unfold State.witnessRequest
  split
  · rename_i cmd w stepped hs
    split
    · rename_i hphase
      simp [hs, hphase]
    · rename_i hphase
      simp [hs, hphase]
  · rename_i hs
    simp only [reduceCtorEq, false_iff]
    rintro ⟨cmd, w, stepped, hb, -⟩
    exact hs cmd w stepped hb

/-- Passes and answers end a request only by a legal answer among them. -/
theorem MrWork.run_of_awaiting {w : MrWork} (h : w.phase = .awaiting) (fuel : Nat) (l : List Int) :
    ∃ w', Work.run fuel l (.primality w) = .primality w' ∧ w'.n = w.n ∧
      (w'.phase = .awaiting ∨ ∃ a ∈ l, 2 ≤ a ∧ a ≤ w.n - 1) := by
  induction fuel generalizing l with
  | zero => exact ⟨w, rfl, rfl, .inl h⟩
  | succ fuel ih =>
    cases l with
    | nil =>
      have hit : w.iterate = w := by rw [MrWork.iterate, h]
      rw [Work.run, Work.iterate, hit]
      exact ih []
    | cons a rest =>
      have hawaits : (Work.primality w).awaits = true := by simp [Work.awaits, h]
      rw [Work.run, if_pos hawaits]
      rcases Work.receive_cases a (.primality w) with ⟨v, hv, -, hlo, hhi, -⟩ | hsame
      · cases hv
        have hkept := ((Work.primality w).kept_receive a).trans (Work.kept_run fuel rest _)
        generalize Work.run fuel rest (Work.receive a (.primality w)) = final at hkept
        cases hkept with
        | primality hinv hn hrounds hgiven =>
          exact ⟨_, rfl, hn, .inr ⟨a, List.mem_cons_self, hlo, hhi⟩⟩
      · obtain ⟨w', hrun, hn, hw'⟩ := ih rest
        rw [hsame]
        refine ⟨w', hrun, hn, hw'.imp_right ?_⟩
        rintro ⟨b, hb, hlegal⟩
        exact ⟨b, List.mem_cons_of_mem a hb, hlegal⟩

/-- A pending request is kept, or ended by a legal answer in the event taken (R58, R194). -/
theorem Effect.witnessRequest_cases {s t : State} (h : Effect s t) {n : Int}
    (hs : s.witnessRequest = some n) :
    t.witnessRequest = some n ∧ t.busy = true ∨
    ∃ a e rest, s.schedule = e :: rest ∧ a ∈ witnessesOf e ∧ 2 ≤ a ∧ a ≤ n - 1 ∧
      t.witnessRequest = none ∧ t.busy = true ∧ t.regs = s.regs := by
  obtain ⟨cmd, w, stepped, hseq, hphase, rfl⟩ := State.witnessRequest_eq_some.1 hs
  have hbusy := State.busy_of_seq hseq
  cases h with
  | writeWindow r q v hi hq h => rw [hseq] at hi; cases hi
  | illegal v rest why h hd => rw [h.2.1] at hseq; cases hseq
  | invalid v rest i slot h hd hc => rw [h.2.1] at hseq; cases hseq
  | latch v rest i h hd hc => rw [h.2.1] at hseq; cases hseq
  | commit job m l hb hf =>
    rw [hseq] at hb
    cases hb
    obtain ⟨p, hp⟩ := w.finished_iff.1 hf
    rw [hphase] at hp
    cases hp
  | compute job m l hb hn hl =>
    rw [hseq] at hb
    cases hb
    obtain ⟨w', hrun, hn', hw'⟩ := MrWork.run_of_awaiting hphase m l
    rw [hrun]
    by_cases hpending : w'.phase = .awaiting
    · exact .inl ⟨State.witnessRequest_eq_some.2 ⟨_, w', _, rfl, hpending, hn'⟩, rfl⟩
    · obtain ⟨a, ha, hlo, hhi⟩ := hw'.resolve_left hpending
      rcases hl with rfl | ⟨rest, hsched⟩
      · cases ha
      · exact .inr ⟨a, _, rest, hsched, ha, hlo, hhi, if_neg hpending, rfl, rfl⟩
  | witness job a rest hb h =>
    rw [hseq] at hb
    cases hb
    rcases Work.receive_cases a (.primality w) with ⟨v, hv, -, hlo, hhi, heq⟩ | hsame
    · cases hv
      rw [heq]
      exact .inr ⟨a, _, rest, h, List.mem_singleton_self a, hlo, hhi, rfl, rfl, rfl⟩
    · rw [hsame]
      exact .inl ⟨State.witnessRequest_eq_some.2 ⟨_, w, _, rfl, hphase, rfl⟩, rfl⟩
  | _ => exact .inl ⟨hs, hbusy⟩

/-- Settles O32: a reset ends the request with the reset values, and every other effect keeps it or takes a
legal answer. -/
theorem witnessRequestWaits : Obligations.WitnessRequestWaits := by
  intro s t n hs hstep
  rcases step_effect hstep with ⟨hreset, b, rfl⟩ | ⟨-, heff⟩
  · exact .inr (.inr ⟨hreset, atResetValues_resetOf s.params b none s.effort s.answers _⟩)
  · exact (heff.witnessRequest_cases hs).imp_right .inl

/-! ### One step by its event (R43, R45, R50 to R54) -/

/-- Settles O8: the write to CMD accepts the word, and a legal word's command is run. -/
theorem stepRunsSubmittedCommand : Obligations.StepRunsSubmittedCommand := by
  intro s w rest i hsub hd
  rw [step_eq_acceptWord hsub, acceptWord, hd]
  simp only [State.popped, State.beginCommand, hsub.2.2]
  rfl

/-- The step of an engine event, with rst released (R52). -/
theorem step_of_engine {s : State} (hr : s.rst = false) {n : Nat} {l : List Int} {rest : List Event}
    (hs : s.schedule = .engine n l :: rest) : step s = engineTurn (s.taken none n l) := by
  rw [step, hs]
  exact if_neg (by simp [hr])

/-- The step once the schedule is exhausted, with rst released (R277). -/
theorem step_of_exhausted {s : State} (hr : s.rst = false) (hs : s.schedule = []) :
    step s = engineTurn (s.taken none (max 1 s.effort) []) := by
  rw [step, hs]
  exact if_neg (by simp [hr])

theorem engineTurn_of_busy {s : State} {job : Job} (h : s.seq = .busy job) :
    engineTurn s = exec job.cmd s := by
  rw [engineTurn, h]

theorem engineTurn_of_idle {s : State} (h : s.seq = .idle) : engineTurn s = .next s := by
  rw [engineTurn, h]

/-- Settles O9: an engine step, scheduled or not, is the engine's turn. -/
theorem stepRunsCommandInFlight : Obligations.StepRunsCommandInFlight := by
  intro s hr
  refine ⟨fun n l rest hs => ?_, fun hs => ?_⟩
  · have htaken : s.taken none n l =
        { s with schedule := rest, rdata := none, effort := n, answers := l } := by
      rw [State.taken, hs]; rfl
    rw [step_of_engine hr hs, htaken]
    exact ⟨fun job hb => engineTurn_of_busy hb, fun hi => engineTurn_of_idle hi⟩
  · have htaken : s.taken none (max 1 s.effort) [] =
        { s with rdata := none, effort := max 1 s.effort, answers := [] } := by
      rw [State.taken, hs, List.tail_nil, ← hs]
    rw [step_of_exhausted hr hs, htaken]
    exact ⟨fun job hb => engineTurn_of_busy hb, fun hi => engineTurn_of_idle hi⟩

/-- R190's verdict is `true` on 2 only. -/
theorem special_eq_true_iff (n : Int) : special n = some true ↔ n = 2 := by
  rw [special, Apu.bit_zero]
  split_ifs with h2 hlt heven
  · simp [h2]
  · simp [h2]
  · simp [h2]
  · simp [h2]

/-- R190's verdict is `false` below 2 and on the even n from 4 on. -/
theorem special_eq_false_iff (n : Int) : special n = some false ↔ n < 2 ∨ n % 2 = 0 ∧ 4 ≤ n := by
  rw [special, Apu.bit_zero]
  split_ifs with h2 hlt heven
  · simp [h2]
  · simp [hlt]
  · simp only [true_iff]; omega
  · simp [hlt, heven]

/-- The phase a Miller–Rabin command begins in (R190). -/
theorem MrWork.init_phase_cases (n : Int) (rounds : Nat) (given : Option Int) :
    ((MrWork.init n rounds given).phase = .factoring ↔ n % 2 = 1 ∧ 3 ≤ n) ∧
    ((MrWork.init n rounds given).phase = .verdict true ↔ n = 2) ∧
    ((MrWork.init n rounds given).phase = .verdict false ↔ n < 2 ∨ n % 2 = 0 ∧ 4 ≤ n) := by
  rw [← special_eq_none_iff, ← special_eq_true_iff, ← special_eq_false_iff]
  cases hs : special n with
  | none => simp [MrWork.init, hs]
  | some verdict => simp [MrWork.init, hs]

/-- Settles O13: with its operands in their domain a command is latched with its initial working state. -/
theorem acceptLatchesOperands : Obligations.AcceptLatchesOperands := by
  intro s hi
  refine ⟨fun rd rbase rexp rmod hb he hm => exec_latches hi ?_, fun rg rx ry ra rb ha hb =>
    exec_latches hi ?_, fun rd re rphi he hphi => exec_latches hi ?_, fun rd rn t8 => ⟨_,
    exec_latches (i := .mrtest rd rn t8) hi rfl, MrWork.init_phase_cases _ (roundCount t8) none⟩,
    fun rd rn ra hlegal => ⟨_, exec_latches (i := .mrround rd rn ra) hi ?_,
    MrWork.init_phase_cases _ 1 (some (s.x ra))⟩⟩
  · simp only [failingSlot]
    rw [if_neg (by omega), if_neg (by omega), if_neg (by omega)]
  · simp only [failingSlot]
    rw [if_neg (by omega), if_neg (by omega)]
  · simp only [failingSlot]
    rw [if_neg (by omega), if_neg (by omega)]
  · simp only [failingSlot]
    exact if_neg (by omega)

/-- Settles O36: STATUS stands at 0x000C, and a write clears what its bits name. -/
theorem statusWriteOneToClear : Obligations.StatusWriteOneToClear := by
  intro s v
  have hclear : ∀ flag bit : Bool, (flag && !bit) = if bit then false else flag := by decide
  have hwrite : memWrite 0x000C v 0xF s = .next (s.writeStatus v) := by
    simp [memWrite, (region_eq_status s.params 0x000C).2 rfl]
  rw [hwrite, State.writeStatus]
  simp only [hclear]

/-- Settles O38: CTRL stands at 0x0008, and reads IE back. -/
theorem ctrlWriteSetsInterruptEnable : Obligations.CtrlWriteSetsInterruptEnable := by
  intro s v hv
  have hctrl := (region_eq_ctrl s.params 0x0008).2 rfl
  refine ⟨?_, ?_⟩
  · have hwrite : memWrite 0x0008 v 0xF s = .next (s.writeCtrl v) := by simp [memWrite, hctrl]
    rw [hwrite, State.writeCtrl, if_neg (Bool.eq_false_iff.1 hv)]
  · have hbit : ∀ b, 0#31 ++ BitVec.ofBool b = (BitVec.ofBool b).setWidth 32 := by decide
    have hread : (State.memRead { s with ie := v.getLsbD 0 } 0x0008).1 =
        0#31 ++ BitVec.ofBool (v.getLsbD 0) := by
      simp only [State.memRead, hctrl]
      rfl
    rw [hread, hbit]
    exact BitVec.and_one_eq_setWidth_ofBool_getLsbD.symm

/-- Settles O43: CMD stands at 0x0010, and a write to it while BUSY is refused. -/
theorem commandWhileBusyIsRefused : Obligations.CommandWhileBusyIsRefused := by
  intro s w job hb
  have hwrite : memWrite 0x0010 w 0xF s = writeCmd w s := by
    simp [memWrite, (region_eq_cmd s.params 0x0010).2 rfl]
  rw [hwrite, writeCmd, if_pos (State.busy_of_seq hb)]
  rfl

end Sys2Proof.Machine

/-! ## What can hold a command (R58, R277) -/

namespace Sys2Proof.Machine

open Sys2Proof.Claims

/-! ### A Miller–Rabin command comes to its verdict or to a witness request -/

/-- The command has its verdict, or a witness request is pending. -/
def MrWork.Stops (w : MrWork) : Prop := w.finished = true ∨ w.phase = .awaiting

/-- With passes enough, and no answer, the command stops. -/
def MrWork.ComesToStop (w : MrWork) : Prop := ∃ w', w.Reaches [] w' ∧ w'.Stops

theorem MrWork.ComesToStop.of_reaches {w w' : MrWork} (h : w.Reaches [] w') (h' : w'.ComesToStop) :
    w.ComesToStop := by
  obtain ⟨w'', hreach, hstop⟩ := h'
  exact ⟨w'', h.trans hreach, hstop⟩

/-- What a command reaches is of its kind, with its latched operands, and sound if it is. -/
theorem MrWork.Reaches.kept {w w' : MrWork} {l : List Int} (h : w.Reaches l w') :
    (Work.primality w).Kept (.primality w') := by
  obtain ⟨N, hN⟩ := h.run (List.prefix_refl l)
  exact hN ▸ Work.kept_run N l _

theorem MrWork.Reaches.inv {w w' : MrWork} {l : List Int} (h : w.Reaches l w') (hinv : w.Inv)
    (hs : special w.n = none) : w'.Inv ∧ special w'.n = none := by
  cases h.kept with
  | primality hinv' hn hrounds hgiven => exact ⟨hinv' hinv, hn ▸ hs⟩

/-- After a round of a command with no round left for a given witness, the command stops. -/
theorem MrWork.endRound_stops {w : MrWork} (h : ∀ a, w.given = some a → w.rounds ≤ w.draws.length)
    (pass : Bool) : (w.endRound pass).Stops := by
  by_cases hle : w.rounds ≤ w.draws.length
  · exact .inl ((MrWork.finished_iff _).2 ⟨pass, w.endRound_verdict hle pass⟩)
  · cases pass with
    | false => exact .inl rfl
    | true =>
      have hg : w.given = none := Option.eq_none_iff_forall_ne_some.2 fun a ha => hle (h a ha)
      right
      simp [MrWork.endRound, MrWork.passRound, hle, MrWork.nextWitness, hg]

/-- A command with at least one witness drawn has no round left for a given one (R200). -/
theorem MrWork.Inv.rounds_le_of_given {w : MrWork} (h : w.Inv) {past : List Int} {b : Int}
    (hdraws : w.draws = past ++ [b]) (a : Int) (ha : w.given = some a) :
    w.rounds ≤ w.draws.length := by
  rw [(h.given_one a ha).1, hdraws, List.length_append, List.length_singleton]
  omega

section ComesToStop

variable {w : MrWork} (h : w.Inv) (hs : special w.n = none)
include h hs

theorem MrWork.Inv.comesToStop_of_squaring (hphase : w.phase = .squaring) : w.ComesToStop := by
  have hp := h.phase_ok hs
  rw [hphase] at hp
  obtain ⟨-, hi, past, a, hdraws, -, -⟩ := hp
  obtain ⟨v, i, hreach⟩ := w.reaches_endRound_of_squaring hphase hi
  exact ⟨_, hreach, MrWork.endRound_stops (w := { w with v := v, i := i })
    (h.rounds_le_of_given hdraws) _⟩

theorem MrWork.Inv.comesToStop_of_powering {p : PowerWork} (hphase : w.phase = .powering p) :
    w.ComesToStop := by
  have hp := h.phase_ok hs
  rw [hphase] at hp
  obtain ⟨-, -, -, -, past, hdraws, -⟩ := hp
  have hpow := w.reaches_powered (Apu.bitlen p.rem) p
  have hw : { w with phase := .powering p } = w := by rw [← hphase]
  have hfin := p.run_finished (Apu.bitlen p.rem) (Apu.lt_two_pow_bitlen p.rem)
  rw [hw] at hpow
  generalize PowerWork.run (Apu.bitlen p.rem) p = q at hpow hfin
  have hreach := hpow.trans (MrWork.reaches_iterate (by simp))
  rw [MrWork.iterate_powering rfl, if_pos hfin] at hreach
  split at hreach
  · exact ⟨_, hreach, MrWork.endRound_stops
      (w := { w with phase := .powering q, v := q.result, i := 0 }) (h.rounds_le_of_given hdraws) true⟩
  · obtain ⟨hinv, hspecial⟩ := hreach.inv h hs
    exact .of_reaches hreach (hinv.comesToStop_of_squaring hspecial rfl)

theorem MrWork.Inv.comesToStop_of_factoring (hphase : w.phase = .factoring) : w.ComesToStop := by
  have hp := h.phase_ok hs
  rw [hphase] at hp
  obtain ⟨-, hu, -⟩ := hp
  have hodd := (factorLoop_spec (Apu.bitlen w.u) w.u w.k (by omega) (Apu.lt_two_pow_bitlen w.u)).1
  have hreach := w.reaches_nextWitness_of_factoring (Apu.bitlen w.u) hphase hodd
  unfold MrWork.nextWitness at hreach
  split at hreach
  · obtain ⟨hinv, hspecial⟩ := hreach.inv h hs
    exact .of_reaches hreach (hinv.comesToStop_of_powering hspecial rfl)
  · exact ⟨_, hreach, .inr rfl⟩

end ComesToStop

theorem MrWork.Inv.comesToStop {w : MrWork} (h : w.Inv) : w.ComesToStop := by
  by_cases hf : w.finished = true
  · exact ⟨w, .refl w, .inl hf⟩
  · have hs := h.special_eq_none hf
    cases hphase : w.phase with
    | factoring => exact h.comesToStop_of_factoring hs hphase
    | awaiting => exact ⟨w, .refl w, .inr hphase⟩
    | powering p => exact h.comesToStop_of_powering hs hphase
    | squaring => exact h.comesToStop_of_squaring hs hphase
    | verdict p => exact absurd (w.finished_iff.2 ⟨p, hphase⟩) hf

/-! ### Any command -/

/-- With passes enough, and no answer, the loop of a sound job ends or waits for a witness. -/
theorem Job.Inv.work_stops {p : Params} {job : Job} (h : job.Inv p) :
    ∃ N, (job.work.run N []).finished = true ∨ (job.work.run N []).awaits = true := by
  obtain ⟨cmd, work, stepped⟩ := job
  cases work with
  | power w =>
    refine ⟨Apu.bitlen w.rem, .inl ?_⟩
    rw [Work.run_power]
    exact w.run_finished _ (Apu.lt_two_pow_bitlen w.rem)
  | euclid w =>
    have hr1 : 0 ≤ w.r1 := by
      cases cmd with
      | extgcd => exact h.1.r1_nonneg
      | modinv => exact h.1.r1_nonneg
      | _ => exact h.elim
    refine ⟨w.r1.toNat, .inl ?_⟩
    rw [Work.run_euclid]
    exact w.run_finished _ hr1 (Int.self_le_toNat _)
  | primality w =>
    have hinv : w.Inv := by
      cases cmd with
      | mrtest => exact h.1
      | mrround => exact h.1
      | _ => exact h.elim
    obtain ⟨w', hreach, hstop⟩ := hinv.comesToStop
    obtain ⟨N, hN⟩ := hreach.run (List.prefix_refl [])
    refine ⟨N, ?_⟩
    rw [hN]
    exact hstop.imp_right fun hphase => by simp [Work.awaits, hphase]

/-- Only MRTEST asks the entropy port for a witness (R58, R200). -/
theorem Job.Inv.mrtest_of_awaits {p : Params} {cmd : Instr} {work : Work} {stepped : Bool}
    (h : Job.Inv p ⟨cmd, work, stepped⟩) (ha : work.awaits = true) :
    (∃ rd rn t8, cmd = .mrtest rd rn t8) ∧ ∃ w, work = .primality w ∧ w.phase = .awaiting := by
  cases work with
  | power w => cases ha
  | euclid w => cases ha
  | primality w =>
    have hphase : w.phase = .awaiting := by simpa [Work.awaits] using ha
    cases cmd with
    | mrtest rd rn t8 => exact ⟨⟨rd, rn, t8, rfl⟩, w, rfl, hphase⟩
    | mrround rd rn ra =>
      obtain ⟨hinv, hgiven, -⟩ := h
      have hp := hinv.phase_ok (hinv.special_eq_none (by simp [MrWork.finished_iff, hphase]))
      rw [hphase] at hp
      rw [hp.1] at hgiven
      cases hgiven
    | _ => exact h.elim

/-! ### Passes while a witness is awaited -/

theorem Work.run_of_awaits {work : Work} (h : work.awaits = true) (n : Nat) :
    work.run n [] = work := by
  cases work with
  | power w => cases h
  | euclid w => cases h
  | primality w =>
    have hphase : w.phase = .awaiting := by simpa [Work.awaits] using h
    induction n with
    | zero => rfl
    | succ n ih =>
      have hit : w.iterate = w := by rw [MrWork.iterate, hphase]
      rw [Work.run, Work.iterate, hit, ih]

/-- More passes than those that lead to a witness request change nothing. -/
theorem Work.run_of_le_of_awaits {work : Work} {a b : Nat} (h : (work.run a []).awaits = true)
    (hab : a ≤ b) : work.run b [] = work.run a [] := by
  rw [← Nat.add_sub_cancel' hab, Work.run_nil_add, Work.run_of_awaits h]

/-- Once the schedule is exhausted, a command in flight whose loop waits for a witness after N passes comes to
wait for it (R58). -/
theorem run_alone_awaits {s : State} (hr : s.rst = false) {w : Word} {cmd : Instr} {N : Nat}
    {work : Work} {e : Nat} {l : List Int} (ha : (work.run N []).awaits = true) :
    ∃ k e' l', Host.Core.run Sys2Proof.core k (s.inFlight w ⟨cmd, work, true⟩ e l []) =
      .next (s.inFlight w ⟨cmd, work.run N [], true⟩ e' l' []) := by
  induction N generalizing work e l with
  | zero => exact ⟨0, e, l, rfl⟩
  | succ N ih =>
    by_cases hnow : work.awaits = true
    · exact ⟨0, e, l, by rw [Work.run_of_awaits hnow]; rfl⟩
    · have hfin : ¬work.finished = true := fun hf => hnow (by rwa [Work.run_of_finished hf] at ha)
      have hmore : (work.run (max 1 e) []).run N [] = work.run (N + 1) [] := by
        rw [← Work.run_nil_add]
        exact Work.run_of_le_of_awaits ha (by omega)
      obtain ⟨k, e', l', hk⟩ := ih (work := work.run (max 1 e) []) (e := max 1 e) (l := [])
        (by rwa [hmore])
      refine ⟨k + 1, e', l', ?_⟩
      rw [run_succ_of_step (step_inFlight_alone hr), engineStep_inFlight_compute (by simp [hfin]),
        hk, hmore]

/-! ### The obligation -/

/-- While rst is asserted the block is IDLE. -/
theorem State.Inv.rst_of_busy {s : State} (h : s.Inv) {job : Job} (hs : s.seq = .busy job) :
    s.rst = false := by
  by_contra hr
  have hidle : s.seq = .idle := congrArg State.seq (h.rst_held (by simpa using hr))
  rw [hs] at hidle
  cases hidle

/-- Under the invariant a compute step leaves the command in flight over a clean status. -/
theorem State.Inv.compute_eq_inFlight {s : State} (h : s.Inv) {job : Job} (hs : s.seq = .busy job)
    (hsched : s.schedule = []) (job' : Job) (n : Nat) (l : List Int) :
    { s.taken none n l with seq := .busy job' } = s.inFlight s.lastcmd job' n l [] := by
  obtain ⟨hdone, herr, hinfo⟩ := h.errinfo_of_busy (State.busy_of_seq hs)
  simp [State.taken, State.inFlight, hsched, hdone, herr, hinfo]

/-- A command in flight once the schedule is exhausted commits, or comes to wait for a witness. -/
theorem run_inFlight_stops {s : State} (hr : s.rst = false) {w : Word} {cmd : Instr} {work : Work}
    {e : Nat} {l : List Int} (hd : decode w = .ok cmd) (hjob : Job.Inv s.params ⟨cmd, work, true⟩) :
    ∃ k t, Host.Core.run Sys2Proof.core k (s.inFlight w ⟨cmd, work, true⟩ e l []) = .next t ∧
      (t.seq = .idle ∧ t.done = true ∨
        (∃ rd rn t8, cmd = .mrtest rd rn t8) ∧ t.busy = true ∧ ∃ n, t.witnessRequest = some n) := by
  obtain ⟨N, hfin | ha⟩ := hjob.work_stops
  · obtain ⟨k, e', -, hk⟩ := run_alone_commits (w := w) (cmd := cmd) (e := e) (l := l) hr hfin
    have hfinal : Job.Inv s.params ⟨cmd, work.run N [], true⟩ := hjob.of_kept (work.kept_run N [])
    obtain ⟨code, results, -, hcompletes⟩ := Job.Inv.right_completion
      (s := s.inFlight w ⟨cmd, work.run N [], true⟩ e' [] []) hfinal (wf_of_decode hd) hfin
    exact ⟨k, _, hk, .inl ⟨hcompletes.idle, hcompletes.done⟩⟩
  · obtain ⟨k, e', l', hk⟩ := run_alone_awaits (w := w) (cmd := cmd) (e := e) (l := l) hr ha
    have hfinal : Job.Inv s.params ⟨cmd, work.run N [], true⟩ := hjob.of_kept (work.kept_run N [])
    obtain ⟨hmrtest, v, hv, hphase⟩ := hfinal.mrtest_of_awaits ha
    rw [hv] at hk
    exact ⟨k, _, hk, .inr ⟨hmrtest, rfl, v.n,
      State.witnessRequest_eq_some.2 ⟨cmd, v, true, rfl, hphase, rfl⟩⟩⟩

/-- Settles O59: the first engine step commits or computes, and what it leaves in flight commits or comes to
wait for a witness. -/
theorem onlyAWitnessRequestHoldsACommand : Obligations.OnlyAWitnessRequestHoldsACommand := by
  intro s job hinv hs hsched
  have hr := hinv.rst_of_busy hs
  obtain ⟨hd, hjob⟩ := hinv.busy_job job hs
  have hstep := step_of_exhausted hr hsched
  have hbusy : (s.taken none (max 1 s.effort) []).seq = .busy job := hs
  rw [engineTurn_of_busy hbusy, exec_of_busy hbusy] at hstep
  rcases (s.taken none (max 1 s.effort) []).engineStep_cases job
    (commitOf job.cmd (s.taken none (max 1 s.effort) [])) with ⟨-, hfin, -, heq⟩ | ⟨-, heq⟩
  · obtain ⟨code, results, -, hcompletes⟩ := Job.Inv.right_completion
      (s := s.taken none (max 1 s.effort) []) hjob (wf_of_decode hd) hfin
    rw [heq] at hstep
    exact ⟨1, _, run_one_of_step hstep, .inl ⟨hcompletes.idle, hcompletes.done⟩⟩
  · rw [heq, hinv.compute_eq_inFlight hs hsched] at hstep
    obtain ⟨k, t, hk, ht⟩ := run_inFlight_stops hr hd
      (e := max 1 s.effort) (l := [])
      (hjob.of_kept (stepped' := true) (job.work.kept_run (max 1 s.effort) []))
    exact ⟨k + 1, t, (run_succ_of_step hstep k).trans hk, ht⟩

end Sys2Proof.Machine

/-! ## The host port (20_memory.md) -/

namespace Sys2Proof.Machine

open Sys2Proof.Claims

/-! ### Reads (R75, R79 to R81, R84) -/

/-- STATUS holds ERR from bit 8 on and a flag in each of its bits 0 to 3 (R44). -/
theorem State.statusWord_eq (s : State) :
    s.statusWord = BitVec.ofNat 32 (2 ^ 8 * s.err.code.toNat + 2 ^ 3 * s.cmdovr.toNat +
      2 ^ 2 * s.accerr.toNat + 2 * s.done.toNat + s.busy.toNat) := by
  have hcode := s.err.code.isLt
  have hflag : ∀ b : Bool, b.toNat < 2 := by decide
  have hcmdovr := hflag s.cmdovr
  have haccerr := hflag s.accerr
  have hdone := hflag s.done
  have hbusy := hflag s.busy
  apply BitVec.eq_of_toNat_eq
  unfold State.statusWord
  repeat rw [toNat_append_add]
  simp only [BitVec.toNat_ofBool, BitVec.toNat_ofNat]
  omega

/-- CTRL reads IE in bit 0 and 0 elsewhere (R43). -/
theorem State.ctrlWord_eq (s : State) : s.ctrlWord = BitVec.ofNat 32 s.ie.toNat := by
  rw [State.ctrlWord]
  cases s.ie <;> decide

/-- A refused offset reads 0 and sets ACCERR (R79, R80). -/
theorem State.memRead_refused (s : State) {off : Nat}
    (h : off % 4 ≠ 0 ∨ 0x0018 ≤ off ∧ off < 0x1000 ∨ 0x1000 + 32 * s.params.wpr ≤ off) :
    s.memRead off = (0, s.refuseAccess) := by
  have hregion := (region_refused s.params off).2 h
  rcases s.memRead_cases off with ⟨-, heq⟩ | ⟨⟨hres, hmis⟩, -⟩
  · exact heq
  · exact absurd hregion (not_or.2 ⟨hres, hmis⟩)

/-- The offset of word `w` of Rr reads those bits of its pattern (R72, R75). -/
theorem State.memRead_windowOffset (s : State) (r : RegId) {w : Nat} (h : w < s.params.wpr) :
    s.memRead (windowOffset s.params r w) = (BitVec.ofNat 32 (s.pattern r / 2 ^ (32 * w)), s) := by
  simp only [State.memRead, region_windowOffset s.params r w h, State.regionWord, State.regWord,
    State.pattern, getD_eq_pattern_bits]

/-- Settles O34: each offset of R71 reads its register, each of R72 its word, and the rest are refused. -/
theorem readsReturnTheMap : Obligations.ReadsReturnTheMap := by
  intro s
  refine ⟨rfl, ?_, ?_, ?_, rfl, rfl, fun r w h => s.memRead_windowOffset r h,
    fun off h => s.memRead_refused h⟩
  · rw [← cfgWord_eq]; rfl
  · rw [← s.ctrlWord_eq]; rfl
  · rw [← s.statusWord_eq]; rfl

/-! ### Writes (R72, R74, R77 to R80, R85) -/

/-- Every write inside the aperture has a next state. -/
theorem memWrite_next (off : Nat) (v : Word) (strb : BitVec 4) (s : State) :
    ∃ t, memWrite off v strb s = .next t := by
  rw [memWrite]
  split
  · exact ⟨_, rfl⟩
  · cases region s.params off with
    | cmd =>
      dsimp only
      rw [writeCmd]
      split
      · exact ⟨_, rfl⟩
      · exact acceptWord_next v s
    | _ => exact ⟨_, rfl⟩

/-- A write with a partial strobe, or to an offset that takes no write, is refused (R77 to R80). -/
theorem memWrite_refused {off : Nat} {strb : BitVec 4} (v : Word) {s : State}
    (h : strb ≠ 0xF ∨
      (region s.params off = .id ∨ region s.params off = .cfg ∨ region s.params off = .errinfo) ∨
      region s.params off = .reserved ∨ region s.params off = .misaligned) :
    memWrite off v strb s = .next s.refuseAccess := by
  rw [memWrite]
  split
  · rfl
  · rename_i hstrb
    rcases h.resolve_left hstrb with (h | h | h) | h | h <;> rw [h]

/-- A full write to word `w` of Rr in the register window (R72, R74). -/
theorem memWrite_windowOffset (s : State) (r : RegId) {w : Nat} (v : Word) (h : w < s.params.wpr) :
    memWrite (windowOffset s.params r w) v 0xF s = .next (s.writeWindow r w v) := by
  simp [memWrite, region_windowOffset s.params r w h]

theorem State.writeWindow_of_idle {s : State} (h : s.seq = .idle) (r : RegId) (w : Nat) (v : Word) :
    s.writeWindow r w v = s.setRegWord r w v :=
  if_neg (by simp [s.not_busy_iff.2 h])

/-- Settles O35: the offsets that the three rules name are the regions that refuse. -/
theorem refusedAccessesSetAccerr : Obligations.RefusedAccessesSetAccerr := by
  intro s off v strb
  refine ⟨fun h => memWrite_refused v (.inl h), fun h => memWrite_refused v (.inr ?_),
    fun h => s.memRead_refused h⟩
  rw [region_readonly, region_refused]
  tauto

/-- Bit `j` of a pattern is bit `j % 32` of its word `j / 32` (R72). -/
theorem testBit_wordsToNat (ws : List Word) (j : Nat) :
    (wordsToNat ws).testBit j = (ws.getD (j / 32) 0).getLsbD (j % 32) := by
  rw [getD_eq_pattern_bits, BitVec.getLsbD_ofNat, Nat.testBit_div_two_pow, Nat.mod_add_div]
  simp [Nat.mod_lt]

/-- Replacing one word of a pattern replaces exactly its 32 bits (R72). -/
theorem testBit_wordsToNat_set {ws : List Word} {w : Nat} (h : w < ws.length) (v : Word) (j : Nat) :
    (wordsToNat (ws.set w v)).testBit j =
      if 32 * w ≤ j ∧ j < 32 * w + 32 then v.getLsbD (j - 32 * w) else (wordsToNat ws).testBit j := by
  simp only [testBit_wordsToNat, List.getD_eq_getElem?_getD, List.getElem?_set]
  split_ifs with hword hbits hbits
  · rw [Option.getD_some, show j % 32 = j - 32 * w by omega]
  · omega
  · omega
  · rfl

/-- Settles O41: the word stands in the window's region, which takes it while IDLE only. -/
theorem windowWriteReplacesOneWord : Obligations.WindowWriteReplacesOneWord := by
  intro s r w v hw
  refine ⟨fun hi hsized => ⟨s.setRegWord r w v, ?_, fun j => ?_,
    fun q hq => s.regs_setRegWord_ne r q w v hq, rfl⟩, fun hb => ?_⟩
  · rw [← s.writeWindow_of_idle hi]
    exact memWrite_windowOffset s r v hw
  · have hpattern : (s.setRegWord r w v).pattern r = wordsToNat (s.regs[r].set w v) := by
      simp [State.pattern]
    rw [hpattern]
    exact testBit_wordsToNat_set (by rwa [hsized r]) v j
  · rw [← State.refuseAccess, ← show s.writeWindow r w v = s.refuseAccess from if_pos hb]
    exact memWrite_windowOffset s r v hw

/-! ### Host accesses in a step (R81, R82, R90) -/

/-- Taking the event off the schedule changes nothing that a read returns or does. -/
theorem State.memRead_popped (s : State) (off : Nat) :
    s.popped.memRead off = ((s.memRead off).1, (s.memRead off).2.popped) := by
  simp only [State.memRead, State.popped_params]
  cases region s.params off <;> rfl

/-- The step of a host read inside the aperture is the read at its offset (R84, R90). -/
theorem step_of_read {s : State} {off : Nat} {rest : List Event} (hr : s.rst = false)
    (hoff : off < 0x2000) (hs : s.schedule = .read (s.params.base + off) :: rest) :
    step s = .next { (s.popped.memRead off).2 with rdata := some (s.popped.memRead off).1 } := by
  simp only [step, hs, turn, State.popped_rst, hr, hostRead, State.popped_params,
    offsetOf_base_add s.params off hoff]
  rfl

/-- Settles O57: the step's agent is the host, and its access falls at the offset. -/
theorem stepPerformsHostAccess : Obligations.StepPerformsHostAccess := by
  intro s off rest hr hoff
  refine ⟨fun hs => ?_, fun v strb hs => ?_⟩
  · have hsched : (s.memRead off).2.schedule.tail = rest := by
      rcases s.memRead_cases off with ⟨-, heq⟩ | ⟨-, heq⟩ <;> simp [heq, hs]
    rw [step_of_read hr hoff hs, s.memRead_popped, ← hsched]
    rfl
  · rw [step_of_write hr hoff hs, State.popped, hs]
    rfl

/-- Settles O42: a window offset lies in the aperture, and its read answers the word. -/
theorem windowReadAtAnyTime : Obligations.WindowReadAtAnyTime := by
  intro s r w rest hw hr hs
  have hread := s.memRead_windowOffset r hw
  have hoff := (windowOffset_bounds s.params r w hw).2.2.1
  rw [(stepPerformsHostAccess s (windowOffset s.params r w) rest hr hoff).1 hs, hread]

/-- The next event is a host access outside the aperture, with rst released (R82; log 10). -/
def State.StrayAccess (s : State) : Prop :=
  s.rst = false ∧ ∃ addr rest, (addr < s.params.base ∨ s.params.base + 0x2000 ≤ addr) ∧
    (s.schedule = .read addr :: rest ∨ ∃ v strb, s.schedule = .write addr v strb :: rest)

theorem State.StrayAccess.step_eq {s : State} (h : s.StrayAccess) :
    step s = .fault .outsideAperture := by
  obtain ⟨hr, addr, rest, haddr, hs⟩ := h
  have hoff := (offsetOf_eq_none s.params addr).2 haddr
  rcases hs with hs | ⟨v, strb, hs⟩
  · simp [step, hs, turn, hr, hostRead, hoff]
  · simp [step, hs, turn, hr, hostWrite, hoff]

theorem engineTurn_next (s : State) : ∃ t, engineTurn s = .next t := by
  cases hb : s.seq with
  | idle => exact ⟨s, engineTurn_of_idle hb⟩
  | busy job =>
    rw [engineTurn_of_busy hb]
    exact exec_next job.cmd s

/-- An address that is not outside the aperture lies at an offset of it (R70). -/
theorem exists_offset_of_inside {p : Params} {addr : Nat}
    (h : ¬(addr < p.base ∨ p.base + 0x2000 ≤ addr)) : ∃ off < 0x2000, addr = p.base + off :=
  ⟨addr - p.base, by omega, by omega⟩

/-- A step that makes no access outside the aperture has a next state, whoever's turn it is. -/
theorem step_next_of_not_stray {s : State} (h : ¬s.StrayAccess) : ∃ t, step s = .next t := by
  by_cases hreset : Resets s
  · obtain ⟨b, hb⟩ := step_of_resets hreset
    exact ⟨_, hb⟩
  · have hr : s.rst = false := Bool.eq_false_iff.2 fun hr => hreset (.inl hr)
    cases hs : s.schedule with
    | nil =>
      rw [step_of_exhausted hr hs]
      exact engineTurn_next _
    | cons e rest =>
      cases e with
      | read addr =>
        obtain ⟨off, hoff, rfl⟩ := exists_offset_of_inside fun hout =>
          h ⟨hr, addr, rest, hout, .inl hs⟩
        exact ⟨_, step_of_read hr hoff hs⟩
      | write addr v strb =>
        obtain ⟨off, hoff, rfl⟩ := exists_offset_of_inside fun hout =>
          h ⟨hr, addr, rest, hout, .inr ⟨v, strb, hs⟩⟩
        rw [step_of_write hr hoff hs]
        exact memWrite_next off v strb s.popped
      | engine n l =>
        rw [step_of_engine hr hs]
        exact engineTurn_next _
      | witness a => exact ⟨s.popped.answerWitness a, by simp [step, hs, turn, hr]⟩
      | rst level => exact ⟨rstTurn level s.popped, by rw [step, hs]; rfl⟩

/-- Settles O10: a stray access stops the model, and nothing else does. -/
theorem stepStopsOnlyOutsideAperture : Obligations.StepStopsOnlyOutsideAperture := by
  intro s
  by_cases h : s.StrayAccess
  · exact .inr ⟨h.step_eq, h⟩
  · exact .inl ⟨step_next_of_not_stray h, h⟩

/-! ### Results stay until written (R91, R246, R271) -/

/-- While IDLE an answer of the entropy source finds no request (R194, R246). -/
theorem State.answerWitness_of_idle {s : State} (h : s.seq = .idle) (a : Int) :
    s.answerWitness a = s := by
  rw [State.answerWitness, h]

/-- Settles O33: while IDLE a read, an engine step and a witness leave the results as they are. -/
theorem resultsStayUntilWritten : Obligations.ResultsStayUntilWritten := by
  intro s t hi hr hstep hwrite hrst
  rcases step_cases s t hstep with ⟨b, -, hreset⟩ | ⟨-, rest, -, rfl⟩ |
    ⟨-, addr, rest, off, -, -, rfl⟩ | ⟨-, addr, v, strb, rest, off, hs, -, -⟩ |
    ⟨-, n, l, -, hengine⟩ | ⟨-, a, rest, -, rfl⟩
  · rcases hreset with h | ⟨rest, h⟩
    · simp [hr] at h
    · exact absurd h (hrst rest)
  · exact ⟨rfl, hi, rfl, rfl, rfl, rfl⟩
  · rcases s.popped.memRead_cases off with ⟨-, heq⟩ | ⟨-, heq⟩ <;> rw [heq] <;>
      exact ⟨rfl, hi, rfl, rfl, rfl, rfl⟩
  · exact absurd hs (hwrite addr v strb rest)
  · have hidle : (s.taken none n l).seq = .idle := hi
    cases (engineTurn_of_idle hidle).symm.trans hengine
    exact ⟨rfl, hi, rfl, rfl, rfl, rfl⟩
  · rw [State.answerWitness_of_idle (s := s.popped) hi]
    exact ⟨rfl, hi, rfl, rfl, rfl, rfl⟩

/-! ### Loading a register (R73, R131) -/

/-- The step of one write of `LDR` to an IDLE block. -/
theorem step_of_window_write {s : State} (hi : s.seq = .idle) (hr : s.rst = false) {r : RegId}
    {w : Nat} (hw : w < s.params.wpr) {v : Word} {rest : List Event}
    (hs : s.schedule = hostWr s.params (windowOffset s.params r w) v :: rest) :
    step s = .next (s.popped.setRegWord r w v) := by
  rw [step_of_write hr (windowOffset_bounds s.params r w hw).2.2.1 hs,
    ← State.writeWindow_of_idle (s := s.popped) hi]
  exact memWrite_windowOffset s.popped r v hw

theorem take_succ_set {α : Type} {ws : List α} {w : Nat} (h : w < ws.length) (v : α) :
    (ws.set w v).take (w + 1) = ws.take w ++ [v] := by
  rw [List.take_add_one, List.take_set_of_le le_rfl, List.getElem?_set_self h]
  rfl

/-- The writes of `LDR` from word `w` on replace the register's words from `w` to the last, whatever they
were, in as many steps. -/
theorem run_ldrFrom {r : RegId} {ws : List Word} (hne : ws ≠ []) {s : State} (hi : s.seq = .idle)
    (hr : s.rst = false) (hsized : s.RegsSized) {w : Nat} (hw : w + ws.length = s.params.wpr)
    {rest : List Event} (hs : s.schedule = ldrFrom s.params r w ws ++ rest) :
    Host.Core.run Sys2Proof.core ws.length s = .next { s with
      regs := s.regs.set r (s.regs[r].take w ++ ws), schedule := rest, rdata := none } := by
  induction ws generalizing s w with
  | nil => exact absurd rfl hne
  | cons v ws ih =>
    rw [List.length_cons] at hw ⊢
    have hlength : w < s.regs[r].length := by rw [hsized r]; omega
    have hstep := step_of_window_write hi hr (by omega) hs
    rw [run_succ_of_step hstep]
    cases ws with
    | nil =>
      have hlast : s.regs[r].set w v = s.regs[r].take w ++ [v] := by
        rw [← take_succ_set hlength v, List.take_of_length_le]
        rw [List.length_set, hsized r, ← hw]
        exact le_rfl
      simp only [State.setRegWord, State.popped, hs, ← hlast]
      rfl
    | cons v' ws =>
      have hsched : (s.popped.setRegWord r w v).schedule =
          ldrFrom s.params r (w + 1) (v' :: ws) ++ rest := by
        simp only [State.setRegWord_schedule, State.popped_schedule, hs]
        rfl
      have hnext : w + 1 + (v' :: ws).length = s.params.wpr := by omega
      have htake := take_succ_set hlength v
      rw [ih (s := s.popped.setRegWord r w v) (List.cons_ne_nil _ _) hi hr
        (s.popped.regsSized_setRegWord hsized r w v) hnext hsched]
      rw [Fin.getElem_fin] at htake
      simp [State.setRegWord, htake]

/-- Settles O44: the writes of `LDR` from word 0 on put the whole pattern of `v` in place. -/
theorem ldrLoadsTheValue : Obligations.LdrLoadsTheValue := by
  intro s r v rest hi hr hsized hfits hs
  have hne : natToWords s.params.wpr (patternOfInt s.params.rw v) ≠ [] := by
    have hwpr := s.params.wpr_ge
    rw [← List.length_pos_iff_ne_nil, length_natToWords]
    omega
  have hrun := run_ldrFrom hne hi hr hsized (by rw [length_natToWords, zero_add]) hs
  rw [length_natToWords] at hrun
  refine ⟨_, hrun, s.x_setX_same r v hfits, fun q hq => s.regs_setX_ne r q v hq, rfl⟩

end Sys2Proof.Machine

/-! ## Command words (30_encoding.md) -/

namespace Sys2Proof

open Sys2Proof.Machine Sys2Proof.Claims

/-! ### Masks, field by field (R111, R112, R117) -/

/-- The fields that make up a word: those of R5, which split T8 in two (R111, R112). -/
def wordFields : List Field := [.op, .fa, .fb, .fc, .fd, .fe, .res]

theorem Field.get_eq_toNat_extractLsb' (f : Field) (w : Word) :
    f.get w = (w.extractLsb' f.lo f.width).toNat := by
  rw [BitVec.extractLsb'_toNat, Nat.shiftRight_eq_div_pow, Field.get]

theorem Field.get_and (f : Field) (w m : Word) : f.get (w &&& m) = f.get w &&& f.get m := by
  simp only [Field.get, BitVec.toNat_and, Nat.and_div_two_pow, Nat.and_mod_two_pow]

theorem Field.get_zero (f : Field) : f.get 0 = 0 := by
  simp [Field.get]

theorem word_eq_zero_iff (w : Word) : w = 0 ↔ ∀ f ∈ wordFields, f.get w = 0 := by
  constructor
  · rintro rfl f -
    exact f.get_zero
  · intro h
    have hsum := (toNat_eq_fields w).1
    simp only [wordFields, List.forall_mem_cons] at h
    obtain ⟨hop, hfa, hfb, hfc, hfd, hfe, hres, -⟩ := h
    refine BitVec.eq_of_toNat_eq ?_
    rw [hsum, hop, hfa, hfb, hfc, hfd, hfe, hres]
    rfl

/-- A mask that holds `k` in the fields `fs` and nothing elsewhere tests those fields alone. -/
theorem and_eq_zero_iff_of_fields {m : Word} {fs : List Field} {k : Nat} (hfs : fs ⊆ wordFields)
    (hm : ∀ f ∈ wordFields, f.get m = if f ∈ fs then k else 0) (w : Word) :
    w &&& m = 0 ↔ ∀ f ∈ fs, f.get w &&& k = 0 := by
  rw [word_eq_zero_iff]
  constructor
  · intro h f hf
    simpa only [Field.get_and, hm f (hfs hf), if_pos hf] using h f (hfs hf)
  · intro h f hf
    rw [Field.get_and, hm f hf]
    split_ifs with hmem
    · exact h f hmem
    · exact Nat.and_zero _

/-- The reserved and unused fields are read whole (R115, R121). -/
theorem and_mustBeZero_eq_zero_iff (op : Opcode) (w : Word) :
    w &&& mustBeZero op.matchWord.toNat = 0 ↔ ∀ f ∈ op.zeroFields, f.get w = 0 := by
  have hmask : ∀ f ∈ wordFields,
      f.get (mustBeZero op.matchWord.toNat) = if f ∈ op.zeroFields then 15 else 0 := by
    cases op <;> decide
  have hwidth : ∀ f ∈ op.zeroFields, f ∈ wordFields ∧ f.width = 4 := by cases op <;> decide
  rw [and_eq_zero_iff_of_fields (fun f hf => (hwidth f hf).1) hmask]
  refine forall₂_congr fun f hf => ?_
  rw [Field.get, (hwidth f hf).2, Nat.and_two_pow_sub_one_eq_mod _ 4, Nat.mod_mod]

theorem and_eight_eq_zero_iff : ∀ n < 16, n &&& 8 = 0 ↔ n < 8 := by decide

/-- A used register field is below 8 exactly when its top bit is 0 (R113, R117). -/
theorem and_registerTops_eq_zero_iff (op : Opcode) (w : Word) :
    w &&& registerTops op.matchWord.toNat = 0 ↔ ∀ f ∈ op.regFields, f.get w < 8 := by
  have hmask : ∀ f ∈ wordFields,
      f.get (registerTops op.matchWord.toNat) = if f ∈ op.regFields then 8 else 0 := by
    cases op <;> decide
  have hwidth : ∀ f ∈ op.regFields, f ∈ wordFields ∧ f.width = 4 := by cases op <;> decide
  rw [and_eq_zero_iff_of_fields (fun f hf => (hwidth f hf).1) hmask]
  refine forall₂_congr fun f hf => and_eight_eq_zero_iff _ ?_
  rw [Field.get, (hwidth f hf).2]
  exact Nat.mod_lt _ (by decide)

/-- The opcode byte of a command is its match value (R116, R117). -/
theorem opcodeOf_eq_some_iff (n : Nat) (op : Opcode) :
    opcodeOf n = some op ↔ n = op.matchWord.toNat := by
  rw [opcodeOf_eq_some]
  cases op <;> simp [Opcode.matchWord]

/-- The opcode byte alone says which command a word's opcode assigns (R116). -/
theorem and_opByte_eq_iff (op : Opcode) (w : Word) :
    w &&& 0xFF = op.matchWord ↔ opcodeOf (Field.op.get w) = some op := by
  have hand : (w &&& 0xFF).toNat = Field.op.get w := by
    rw [BitVec.toNat_and, Field.get]
    exact (Nat.and_two_pow_sub_one_eq_mod _ 8).trans (by rw [Field.lo, pow_zero, Nat.div_one]; rfl)
  rw [opcodeOf_eq_some_iff, ← BitVec.toNat_inj, hand]

/-- A word matches under two masks at once, the match value lying within the first. -/
theorem and_or_eq_iff {w a b c : Word} (ha : c &&& a = c) (hb : c &&& b = 0) :
    w &&& (a ||| b) = c ↔ w &&& a = c ∧ w &&& b = 0 := by
  constructor
  · rintro rfl
    have habsorb : (a ||| b) &&& a = a ∧ (a ||| b) &&& b = b := by
      constructor <;> ext i <;> simp <;> tauto
    rw [BitVec.and_assoc, habsorb.1] at ha
    rw [BitVec.and_assoc, habsorb.2] at hb
    exact ⟨ha, hb⟩
  · rintro ⟨h1, h2⟩
    rw [BitVec.and_or_distrib_left, h1, h2]
    exact BitVec.or_zero

/-- R117's match and mask hold exactly when R120's checks on a word's fields do. -/
theorem and_maskWord_eq_iff (op : Opcode) (w : Word) :
    w &&& op.maskWord = op.matchWord ↔ opcodeOf (Field.op.get w) = some op ∧
      (∀ f ∈ op.zeroFields, f.get w = 0) ∧ ∀ f ∈ op.regFields, f.get w < 8 := by
  have hmask : op.maskWord =
      0xFF ||| mustBeZero op.matchWord.toNat ||| registerTops op.matchWord.toNat := by
    cases op <;> decide
  rw [hmask, and_or_eq_iff (by cases op <;> decide) (by cases op <;> decide),
    and_or_eq_iff (by cases op <;> decide) (by cases op <;> decide), and_opByte_eq_iff,
    and_mustBeZero_eq_zero_iff, and_registerTops_eq_zero_iff, and_assoc]

/-- A word is legal when it matches a row of R117 and, for EXTGCD, its destinations are distinct. -/
theorem decode_eq_ok_iff_matches (w : Word) (i : Instr) :
    decode w = .ok i ↔
      ∃ op : Opcode, w &&& op.maskWord = op.matchWord ∧ (op.build w).wf = true ∧
        i = op.build w := by
  simp only [decode_eq_ok, and_maskWord_eq_iff, and_assoc]

/-! ### The word of a command -/

/-- The word of a command matches its row of R117. -/
theorem encode_matches (i : Instr) : encode i &&& i.opcode.maskWord = i.opcode.matchWord :=
  match i with
  | .modexp rd rbase rexp rmod => Laws.EncodingPattern.modexp rd rbase rexp rmod
  | .extgcd rg rx ry ra rb => Laws.EncodingPattern.extgcd rg rx ry ra rb
  | .modinv rd re rphi => Laws.EncodingPattern.modinv rd re rphi
  | .mrtest rd rn t8 => Laws.EncodingPattern.mrtest rd rn t8
  | .mrround rd rn ra => Laws.EncodingPattern.mrround rd rn ra

theorem Field.reg_eq_of_get {f : Field} {w : Word} {r : RegId}
    (h : f.get w = (RegId.field r).toNat) : f.reg w = r := by
  rw [RegId.field_toNat] at h
  have hlt : f.get w < 8 := h ▸ r.isLt
  exact Fin.ext ((f.reg_val w hlt).trans h)

/-- The fields of a command's word are its operands. -/
theorem build_encode (i : Instr) : i.opcode.build (encode i) = i := by
  cases i with
  | modexp rd rbase rexp rmod =>
    obtain ⟨-, ha, hb, hc, hd, -, -⟩ := get_encodeR5 0x01 (RegId.field rd) (RegId.field rbase)
      (RegId.field rexp) (RegId.field rmod) 0
    simp only [Instr.opcode, Opcode.build, encode, Field.reg_eq_of_get ha, Field.reg_eq_of_get hb,
      Field.reg_eq_of_get hc, Field.reg_eq_of_get hd]
  | extgcd rg rx ry ra rb =>
    obtain ⟨-, ha, hb, hc, hd, he, -⟩ := get_encodeR5 0x02 (RegId.field rg) (RegId.field rx)
      (RegId.field ry) (RegId.field ra) (RegId.field rb)
    simp only [Instr.opcode, Opcode.build, encode, Field.reg_eq_of_get ha, Field.reg_eq_of_get hb,
      Field.reg_eq_of_get hc, Field.reg_eq_of_get hd, Field.reg_eq_of_get he]
  | modinv rd re rphi =>
    obtain ⟨-, ha, hb, hc, -⟩ := get_encodeR5 0x03 (RegId.field rd) (RegId.field re)
      (RegId.field rphi) 0 0
    simp only [Instr.opcode, Opcode.build, encode, Field.reg_eq_of_get ha, Field.reg_eq_of_get hb,
      Field.reg_eq_of_get hc]
  | mrtest rd rn t8 =>
    obtain ⟨-, ha, hb, -, ht, -⟩ := get_encodeRT 0x04 (RegId.field rd) (RegId.field rn) 0 t8
    simp only [Instr.opcode, Opcode.build, encode, Field.reg_eq_of_get ha, Field.reg_eq_of_get hb,
      ht, BitVec.ofNat_toNat, BitVec.setWidth_eq]
  | mrround rd rn ra =>
    obtain ⟨-, ha, hb, hc, -⟩ := get_encodeR5 0x05 (RegId.field rd) (RegId.field rn)
      (RegId.field ra) 0 0
    simp only [Instr.opcode, Opcode.build, encode, Field.reg_eq_of_get ha, Field.reg_eq_of_get hb,
      Field.reg_eq_of_get hc]

/-- Decoding undoes encoding on well-formed commands (R120). -/
theorem decode_encode {i : Instr} (h : i.wf = true) : decode (encode i) = .ok i := by
  rw [decode_eq_ok_iff_matches]
  refine ⟨i.opcode, encode_matches i, ?_, (build_encode i).symm⟩
  rw [build_encode, h]

/-- Settles O2: the word matches its command's row, and its fields are the operands. -/
theorem decodeEncodeRoundTrip : Obligations.DecodeEncodeRoundTrip := fun _ => decode_encode

/-! ### A legal word is the word of its command (R121) -/

/-- The fields of a word that passes R120's checks are the fields of its command's word. -/
theorem encode_build {op : Opcode} {w : Word} (hop : opcodeOf (Field.op.get w) = some op)
    (hzero : ∀ f ∈ op.zeroFields, f.get w = 0) (hreg : ∀ f ∈ op.regFields, f.get w < 8) :
    encode (op.build w) = w := by
  have hval : ∀ f ∈ op.regFields, (f.reg w).val = f.get w := fun f hf => f.reg_val w (hreg f hf)
  obtain ⟨hsum, ht8⟩ := toNat_eq_fields w
  rw [opcodeOf_eq_some_iff] at hop
  refine BitVec.eq_of_toNat_eq ?_
  rw [hsum, hop]
  cases op with
  | mrtest =>
    have hfd : Field.fd.get w < 16 := Nat.mod_lt _ (by decide)
    have hfe : Field.fe.get w < 16 := Nat.mod_lt _ (by decide)
    simp only [Opcode.zeroFields, Opcode.regFields, List.forall_mem_cons] at hzero hval
    simp [Opcode.build, encode, encodeRT_toNat, RegId.field_toNat, hzero, hval, Opcode.matchWord]
    omega
  | _ =>
    simp only [Opcode.zeroFields, Opcode.regFields, List.forall_mem_cons] at hzero hval
    simp [Opcode.build, encode, encodeR5_toNat, RegId.field_toNat, hzero, hval, Opcode.matchWord]

/-- Settles O3: a legal word is the sum of the fields its command is built from. -/
theorem encodeDecodeRoundTrip : Obligations.EncodeDecodeRoundTrip := by
  intro w i h
  obtain ⟨op, hop, hzero, hreg, hwf, rfl⟩ := (decode_eq_ok w i).1 h
  exact ⟨encode_build hop hzero hreg, hwf⟩

/-! ### The rows of R117 -/

/-- A register field's low three bits are its letter group (R113, R117). -/
theorem Field.reg_eq_letters {f : Field} (hf : f.width = 4) (w : Word) :
    f.reg w = letters w f.lo := by
  refine Fin.ext ?_
  change w.toNat / 2 ^ f.lo % 2 ^ f.width % 8 = (w.extractLsb' f.lo 3).toNat
  rw [hf, BitVec.extractLsb'_toNat, Nat.shiftRight_eq_div_pow]
  exact Nat.mod_mod_of_dvd _ (by decide)

theorem ofNat_get_t8 (w : Word) : BitVec.ofNat 8 (Field.t8.get w) = w.extractLsb' 20 8 := by
  rw [Field.get_eq_toNat_extractLsb']
  exact (BitVec.ofNat_toNat 8 _).trans (BitVec.setWidth_eq _)

/-- The operands a command is built from are the letter groups of its row. -/
theorem build_eq_letters (w : Word) :
    Opcode.modexp.build w =
      .modexp (letters w 8) (letters w 12) (letters w 16) (letters w 20) ∧
    Opcode.extgcd.build w =
      .extgcd (letters w 8) (letters w 12) (letters w 16) (letters w 20) (letters w 24) ∧
    Opcode.modinv.build w = .modinv (letters w 8) (letters w 12) (letters w 16) ∧
    Opcode.mrtest.build w = .mrtest (letters w 8) (letters w 12) (w.extractLsb' 20 8) ∧
    Opcode.mrround.build w = .mrround (letters w 8) (letters w 12) (letters w 16) := by
  have ha : Field.fa.reg w = letters w 8 := Field.reg_eq_letters rfl w
  have hb : Field.fb.reg w = letters w 12 := Field.reg_eq_letters rfl w
  have hc : Field.fc.reg w = letters w 16 := Field.reg_eq_letters rfl w
  have hd : Field.fd.reg w = letters w 20 := Field.reg_eq_letters rfl w
  have he : Field.fe.reg w = letters w 24 := Field.reg_eq_letters rfl w
  simp only [Opcode.build, ha, hb, hc, hd, he, ofNat_get_t8, and_self]

theorem decode_of_matches {op : Opcode} {w : Word} {i : Instr} (hb : op.build w = i)
    (h : w &&& op.maskWord = op.matchWord) (hwf : i.wf = true) : decode w = .ok i := by
  subst hb
  exact (decode_eq_ok_iff_matches w _).2 ⟨op, h, hwf, rfl⟩

theorem wf_extgcd_iff (rg rx ry ra rb : RegId) :
    (Instr.extgcd rg rx ry ra rb).wf = true ↔ rg ≠ rx ∧ rg ≠ ry ∧ rx ≠ ry := by
  simp [Instr.wf, and_assoc]

/-- Settles O4: a row's match and mask are R120's checks, and its letter groups the operands. -/
theorem legalWordsMatchPatterns : Obligations.LegalWordsMatchPatterns := by
  intro w
  obtain ⟨hmodexp, hextgcd, hmodinv, hmrtest, hmrround⟩ := build_eq_letters w
  refine ⟨fun h => decode_of_matches hmodexp h rfl,
    fun h hgx hgy hxy => decode_of_matches hextgcd h
      ((wf_extgcd_iff _ _ _ _ _).2 ⟨hgx, hgy, hxy⟩),
    fun h => decode_of_matches hmodinv h rfl, fun h => decode_of_matches hmrtest h rfl,
    fun h => decode_of_matches hmrround h rfl, fun i hi => ?_⟩
  obtain ⟨op, hmatch, hwf, rfl⟩ := (decode_eq_ok_iff_matches w i).1 hi
  cases op with
  | extgcd => exact ⟨hmatch, (wf_extgcd_iff _ _ _ _ _).1 hwf⟩
  | _ => exact hmatch

/-! ### The checks in their order (R120) -/

/-- The decoder on a word whose opcode is assigned. -/
theorem decode_of_opcode {w : Word} {op : Opcode} (h : opcodeOf (Field.op.get w) = some op) :
    decode w = if ∀ f ∈ op.zeroFields, f.get w = 0 then
        if ∀ f ∈ op.regFields, f.get w < 8 then
          if (op.build w).wf = true then .ok (op.build w) else .error .duplicateDestination
        else .error .registerRange
      else .error .reservedBits := by
  have hzero : op.zeroFields.any (fun f => f.get w != 0) = true ↔
      ¬∀ f ∈ op.zeroFields, f.get w = 0 := by simp
  have hreg : op.regFields.any (fun f => 8 ≤ f.get w) = true ↔
      ¬∀ f ∈ op.regFields, f.get w < 8 := by simp
  simp only [decode, h, hzero, hreg, ite_not]

theorem opcodeOf_eq_none_iff (n : Nat) : opcodeOf n = none ↔ n < 1 ∨ 5 < n := by
  unfold opcodeOf
  split_ifs <;> simp <;> omega

/-- Equal destination fields of an EXTGCD word whose registers are in range name the same register. -/
theorem build_extgcd_wf_iff {w : Word} (hreg : ∀ f ∈ Opcode.extgcd.regFields, f.get w < 8) :
    (Opcode.extgcd.build w).wf = true ↔
      ¬(w.extractLsb' 8 4 = w.extractLsb' 12 4 ∨ w.extractLsb' 8 4 = w.extractLsb' 16 4 ∨
        w.extractLsb' 12 4 = w.extractLsb' 16 4) := by
  have heq : ∀ f ∈ Opcode.extgcd.regFields, ∀ g ∈ Opcode.extgcd.regFields,
      (f.reg w = g.reg w ↔ f.get w = g.get w) := by
    intro f hf g hg
    rw [Fin.ext_iff, f.reg_val w (hreg f hf), g.reg_val w (hreg g hg)]
  have hbits : ∀ a b : BitVec 4, a = b ↔ a.toNat = b.toNat := fun _ _ => BitVec.toNat_inj.symm
  have ha : Field.fa.get w = (w.extractLsb' 8 4).toNat := Field.fa.get_eq_toNat_extractLsb' w
  have hb : Field.fb.get w = (w.extractLsb' 12 4).toNat := Field.fb.get_eq_toNat_extractLsb' w
  have hc : Field.fc.get w = (w.extractLsb' 16 4).toNat := Field.fc.get_eq_toNat_extractLsb' w
  rw [Opcode.build, wf_extgcd_iff, not_or, not_or, hbits, hbits, hbits, ← ha, ← hb, ← hc,
    Ne, Ne, Ne, heq _ (by decide) _ (by decide), heq _ (by decide) _ (by decide),
    heq _ (by decide) _ (by decide)]

/-- Destinations are distinct as registers exactly when no two destination fields of an EXTGCD word
are equal; no other command has such a check (R115). -/
theorem build_wf_iff {op : Opcode} {w : Word} (hreg : ∀ f ∈ op.regFields, f.get w < 8) :
    (op.build w).wf = true ↔ ¬(op.matchWord.toNat = 2 ∧
      (w.extractLsb' 8 4 = w.extractLsb' 12 4 ∨ w.extractLsb' 8 4 = w.extractLsb' 16 4 ∨
        w.extractLsb' 12 4 = w.extractLsb' 16 4)) := by
  cases op with
  | extgcd => rw [build_extgcd_wf_iff hreg]; simp [Opcode.matchWord]
  | _ => simp [Opcode.build, Instr.wf, Opcode.matchWord]

/-- R120's sub-code of a word whose opcode is assigned. -/
theorem illegalSub_of_opcode {w : Word} {op : Opcode} (h : opcodeOf (Field.op.get w) = some op) :
    illegalSub w = if ∀ f ∈ op.zeroFields, f.get w = 0 then
        if ∀ f ∈ op.regFields, f.get w < 8 then
          if (op.build w).wf = true then none else some 4
        else some 3
      else some 2 := by
  have hop : (w.extractLsb' 0 8).toNat = op.matchWord.toNat :=
    (Field.op.get_eq_toNat_extractLsb' w).symm.trans ((opcodeOf_eq_some_iff _ op).1 h)
  have hassigned : ¬(op.matchWord.toNat < 1 ∨ 5 < op.matchWord.toNat) := by cases op <;> decide
  simp only [illegalSub, hop, if_neg hassigned, ne_eq, ite_not, and_mustBeZero_eq_zero_iff,
    and_registerTops_eq_zero_iff]
  refine if_congr Iff.rfl (ite_congr rfl (fun hreg => ?_) fun _ => rfl) rfl
  rw [← ite_not]
  exact if_congr (build_wf_iff hreg).symm rfl rfl

/-- Settles O5: decoder and R120's sub-code make the same checks in the same order. -/
theorem illegalWordsBySubcode : Obligations.IllegalWordsBySubcode := by
  intro w
  cases h : opcodeOf (Field.op.get w) with
  | none =>
    have hsub : illegalSub w = some 1 := by
      rw [opcodeOf_eq_none_iff, Field.get_eq_toNat_extractLsb'] at h
      exact if_pos h
    simp only [decode, h]
    exact hsub
  | some op =>
    rw [decode_of_opcode h, illegalSub_of_opcode h]
    split_ifs <;> rfl

/-! ### The assembler (R130, R132) -/

theorem setWidth_append_eq_or {n m : Nat} (x : BitVec n) (y : BitVec m) (k : Nat) :
    (x ++ y).setWidth k = y.setWidth k ||| x.setWidth k <<< m := by
  ext i hi
  rw [BitVec.getElem_setWidth, BitVec.getLsbD_append, BitVec.getElem_or, BitVec.getElem_shiftLeft,
    BitVec.getElem_setWidth]
  by_cases him : i < m
  · simp [him]
  · simp [him, BitVec.getLsbD_of_ge y i (not_lt.1 him)]

/-- A word of format R5 as its fields shifted into place (R111). -/
theorem encodeR5_eq_or (op : BitVec 8) (fa fb fc fd fe : BitVec 4) :
    encodeR5 op fa fb fc fd fe = op.setWidth 32 ||| fa.setWidth 32 <<< 8 |||
      fb.setWidth 32 <<< 12 ||| fc.setWidth 32 <<< 16 ||| fd.setWidth 32 <<< 20 |||
      fe.setWidth 32 <<< 24 := by
  rw [encodeR5, ← BitVec.setWidth_eq (_ ++ op)]
  simp only [setWidth_append_eq_or, BitVec.shiftLeft_or_distrib, ← BitVec.shiftLeft_add,
    BitVec.or_assoc]
  simp

/-- A word of format RT as its fields shifted into place (R112). -/
theorem encodeRT_eq_or (op : BitVec 8) (fa fb fc : BitVec 4) (t8 : BitVec 8) :
    encodeRT op fa fb fc t8 = op.setWidth 32 ||| fa.setWidth 32 <<< 8 |||
      fb.setWidth 32 <<< 12 ||| fc.setWidth 32 <<< 16 ||| t8.setWidth 32 <<< 20 := by
  rw [encodeRT, ← BitVec.setWidth_eq (_ ++ op)]
  simp only [setWidth_append_eq_or, BitVec.shiftLeft_or_distrib, ← BitVec.shiftLeft_add,
    BitVec.or_assoc]
  simp

theorem RegId.setWidth_field (r : RegId) : (RegId.field r).setWidth 32 = BitVec.ofNat 32 r := by
  revert r; decide

@[simp] theorem asmReg_val (r : RegId) : asmReg r = some r := dif_pos r.isLt

theorem asmReg_of_le {n : Nat} (h : 8 ≤ n) : asmReg n = none := dif_neg (by omega)

theorem assemble_of_asmInstr {line : AsmLine} {i : Instr} (h : asmInstr line = some i) :
    assemble line = if i.wf then some (encode i) else none := by
  rw [assemble, h]

/-- What the assembler emits is the word of a well-formed command. -/
theorem assemble_eq_some {line : AsmLine} {w : Word} (h : assemble line = some w) :
    ∃ i : Instr, i.wf = true ∧ encode i = w := by
  unfold assemble at h
  split at h
  · split_ifs at h with hwf
    exact ⟨_, hwf, Option.some.inj h⟩
  · cases h

/-- An MRTEST round count as the assembler reads it: R130's range, written out as T8. -/
theorem asmRounds_some (t : Nat) :
    asmRounds (some t) = if t < 1 ∨ 255 < t then none else some (BitVec.ofNat 8 t) := by
  rw [← ite_not]
  exact if_congr (by rw [Config.tmax]; omega) rfl rfl

/-! Accepted operands stand each in its field (R111, R112, R115). -/

theorem assemble_modexp (rd rbase rexp rmod : RegId) : assemble (.modexp rd rbase rexp rmod) =
    some (1#32 ||| BitVec.ofNat 32 rd <<< 8 ||| BitVec.ofNat 32 rbase <<< 12 |||
      BitVec.ofNat 32 rexp <<< 16 ||| BitVec.ofNat 32 rmod <<< 20) := by
  have hline : asmInstr (.modexp rd rbase rexp rmod) = some (.modexp rd rbase rexp rmod) := by
    simp [asmInstr]
  rw [assemble_of_asmInstr hline]
  simp [Instr.wf, encode, encodeR5_eq_or, RegId.setWidth_field]

theorem assemble_extgcd (rg rx ry ra rb : RegId) : assemble (.extgcd rg rx ry ra rb) =
    if rg = rx ∨ rg = ry ∨ rx = ry then none
    else some (2#32 ||| BitVec.ofNat 32 rg <<< 8 ||| BitVec.ofNat 32 rx <<< 12 |||
      BitVec.ofNat 32 ry <<< 16 ||| BitVec.ofNat 32 ra <<< 20 ||| BitVec.ofNat 32 rb <<< 24) := by
  have hline : asmInstr (.extgcd rg rx ry ra rb) = some (.extgcd rg rx ry ra rb) := by
    simp [asmInstr]
  rw [assemble_of_asmInstr hline]
  refine (if_congr ?_ ?_ rfl).trans (ite_not ..)
  · rw [wf_extgcd_iff, not_or, not_or]
  · simp [encode, encodeR5_eq_or, RegId.setWidth_field]

theorem assemble_modinv (rd re rphi : RegId) : assemble (.modinv rd re rphi) =
    some (3#32 ||| BitVec.ofNat 32 rd <<< 8 ||| BitVec.ofNat 32 re <<< 12 |||
      BitVec.ofNat 32 rphi <<< 16) := by
  have hline : asmInstr (.modinv rd re rphi) = some (.modinv rd re rphi) := by simp [asmInstr]
  rw [assemble_of_asmInstr hline]
  simp [Instr.wf, encode, encodeR5_eq_or, RegId.setWidth_field]

theorem assemble_mrround (rd rn ra : RegId) : assemble (.mrround rd rn ra) =
    some (5#32 ||| BitVec.ofNat 32 rd <<< 8 ||| BitVec.ofNat 32 rn <<< 12 |||
      BitVec.ofNat 32 ra <<< 16) := by
  have hline : asmInstr (.mrround rd rn ra) = some (.mrround rd rn ra) := by simp [asmInstr]
  rw [assemble_of_asmInstr hline]
  simp [Instr.wf, encode, encodeR5_eq_or, RegId.setWidth_field]

/-- MRTEST's word holds the immediate its round count gives. -/
theorem assemble_mrtest {t : Option Nat} {t8 : BitVec 8} (h : asmRounds t = some t8) (rd rn : RegId) :
    assemble (.mrtest rd rn t) =
      some (4#32 ||| BitVec.ofNat 32 rd <<< 8 ||| BitVec.ofNat 32 rn <<< 12 |||
        t8.setWidth 32 <<< 20) := by
  have hline : asmInstr (.mrtest rd rn t) = some (.mrtest rd rn t8) := by simp [asmInstr, h]
  rw [assemble_of_asmInstr hline]
  simp [Instr.wf, encode, encodeRT_eq_or, RegId.setWidth_field]

theorem setWidth_ofNat_rounds {t : Nat} (h : ¬(t < 1 ∨ 255 < t)) :
    (BitVec.ofNat 8 t).setWidth 32 = BitVec.ofNat 32 t := by
  refine BitVec.eq_of_toNat_eq ?_
  simp
  omega

/-- A line with a register the assembler refuses has no command. -/
theorem assemble_of_asmInstr_none {line : AsmLine} (h : asmInstr line = none) :
    assemble line = none := by
  rw [assemble, h]

theorem assemble_refuses_registers (a b c d e : Nat) :
    (8 ≤ a ∨ 8 ≤ b ∨ 8 ≤ c ∨ 8 ≤ d → assemble (.modexp a b c d) = none) ∧
    (8 ≤ a ∨ 8 ≤ b ∨ 8 ≤ c ∨ 8 ≤ d ∨ 8 ≤ e → assemble (.extgcd a b c d e) = none) ∧
    (8 ≤ a ∨ 8 ≤ b ∨ 8 ≤ c → assemble (.modinv a b c) = none) ∧
    (8 ≤ a ∨ 8 ≤ b → ∀ t, assemble (.mrtest a b t) = none) ∧
    (8 ≤ a ∨ 8 ≤ b ∨ 8 ≤ c → assemble (.mrround a b c) = none) := by
  refine ⟨?_, ?_, ?_, ?_, ?_⟩
  · rintro (h | h | h | h) <;>
      exact assemble_of_asmInstr_none (by simp [asmInstr, asmReg_of_le h])
  · rintro (h | h | h | h | h) <;>
      exact assemble_of_asmInstr_none (by simp [asmInstr, asmReg_of_le h])
  · rintro (h | h | h) <;> exact assemble_of_asmInstr_none (by simp [asmInstr, asmReg_of_le h])
  · rintro (h | h) t <;> exact assemble_of_asmInstr_none (by simp [asmInstr, asmReg_of_le h])
  · rintro (h | h | h) <;> exact assemble_of_asmInstr_none (by simp [asmInstr, asmReg_of_le h])

/-- Settles O7: accepted operands stand in their fields, and an emitted word is the word of a
well-formed command, which O2 decodes. -/
theorem assemblerEmitsOnlyLegalWords : Obligations.AssemblerEmitsOnlyLegalWords := by
  refine ⟨assemble_modexp, assemble_extgcd, assemble_modinv, fun rd rn t => ?_, fun rd rn => ?_,
    assemble_mrround, assemble_refuses_registers, fun line w h => ?_⟩
  · have hrounds := asmRounds_some t
    split_ifs at hrounds ⊢ with ht
    · exact assemble_of_asmInstr_none (by simp [asmInstr, hrounds])
    · rw [assemble_mrtest hrounds, setWidth_ofNat_rounds ht]
  · rw [assemble_mrtest (t := none) rfl]
    simp
  · obtain ⟨i, hwf, rfl⟩ := assemble_eq_some h
    exact ⟨i, decode_encode hwf⟩

/-! ### The round count (R114) and the example words -/

theorem mrtest_immediate_of_decode {w : Word} {rd rn : RegId} {t8 : BitVec 8}
    (h : decode w = .ok (.mrtest rd rn t8)) : t8 = w.extractLsb' 20 8 := by
  obtain ⟨op, -, -, heq⟩ := (decode_eq_ok_iff_matches w _).1 h
  cases op with
  | mrtest =>
    cases heq
    exact ofNat_get_t8 w
  | _ => cases heq

theorem roundCount_bounds (t8 : BitVec 8) : roundCount t8 = (if t8 = 0 then 16 else t8.toNat) ∧
    1 ≤ roundCount t8 ∧ roundCount t8 ≤ 255 := by
  refine ⟨rfl, roundCount_pos t8, ?_⟩
  unfold roundCount
  split_ifs with h
  · decide
  · have hlt := t8.isLt
    omega

/-- Settles O6: T8 is read where R112 puts it, and 0 and 0x10 latch the same 16 rounds. -/
theorem roundCountOfImmediate : Obligations.RoundCountOfImmediate := by
  refine ⟨fun w rd rn t8 => mrtest_immediate_of_decode, roundCount_bounds, fun rd rn h => ?_,
    fun rd rn s hs => ⟨initialWork s (.mrtest rd rn 0), exec_latches hs rfl, exec_latches hs rfl⟩⟩
  have hdecode := congrArg decode h
  rw [decode_encode rfl, decode_encode rfl] at hdecode
  simp at hdecode

/-- Settles O1: the decoder on each listed word. -/
theorem exampleWordsDecode : Obligations.ExampleWordsDecode := by
  unfold Obligations.ExampleWordsDecode
  decide

end Sys2Proof

/-! ## Modular exponentiation (40_modexp.md) -/

namespace Sys2Proof.Machine

/-- Settles O47: the loop keeps result · base^rem ≡ b^e mod m, so it ends with b^e mod m, reduced. -/
theorem modexpIsPowerMod : Obligations.ModexpIsPowerMod := fun _ _ _ hb he hm =>
  ⟨modexp_eq_pow_mod hb he hm, modexp_bounds hb he hm⟩

end Sys2Proof.Machine

/-! ## Extended Euclid and the inverse (41_extgcd.md) -/

namespace Sys2Proof.Machine

/-- Settles O48: the remainder bounds the depth that the recursion below still needs. -/
theorem extgcdRecursion : Obligations.ExtgcdRecursion := by
  intro a b _ hb
  split_ifs with h0
  · rw [h0, extgcd_zero_right]
  · exact extgcd_of_pos a (hb.lt_of_ne' h0)

/-- Settles O49: the loop has ended after b + 1 passes, and its invariant keeps R160's triple. -/
theorem extgcdIterativeIsRecursive : Obligations.ExtgcdIterativeIsRecursive := by
  intro a b ha hb
  have hr1 : (EuclidWork.init a b).r1 ≤ (b.toNat + 1 : Nat) := by
    simp only [EuclidWork.init]
    omega
  exact EuclidWork.run_init_triple ha hb (EuclidWork.run_finished _ (EuclidWork.init a b) hb hr1)

/-- R163: the gcd is zero for (0, 0) only. -/
theorem extgcd_fst_eq_zero_iff {a b : Int} (ha : 0 ≤ a) (hb : 0 ≤ b) :
    (extgcd a b).1 = 0 ↔ a = 0 ∧ b = 0 := by
  rw [extgcd_fst_eq_gcd ha hb, Int.natCast_eq_zero, Int.gcd_eq_zero_iff]

/-- R163: a recursion of any depth above b gives R160's triple. -/
theorem extgcdDepth_eq_extgcd (a : Int) {b : Int} (hb : 0 ≤ b) {depth : Nat}
    (h : b.toNat + 1 ≤ depth) : extgcdDepth depth a b = extgcd a b :=
  extgcdDepth_eq_of_lt _ _ a b hb (by omega) (by omega)

/-- Settles O50: the identity, the gcd and the bounds go down the recursion, whose remainders decrease. -/
theorem extgcdIsBezout : Obligations.ExtgcdIsBezout := by
  intro a b ha hb
  obtain ⟨hx, hy⟩ := extgcd_coeff_bounds ha hb
  exact ⟨extgcd_bezout ha hb, extgcd_fst_eq_gcd ha hb, (extgcd_fst_bounds ha hb).1,
    extgcd_fst_eq_zero_iff ha hb, hx, hy,
    fun h0 => ⟨Int.emod_nonneg a h0, Int.emod_lt_of_pos a (hb.lt_of_ne' h0)⟩,
    fun _ => extgcdDepth_eq_extgcd a hb⟩

/-- Settles O51: the coefficient of R163 is an inverse mod φ, and the normalisation is its floor remainder;
1 mod φ is 1 but for φ = 1. -/
theorem modinvIsTheInverse : Obligations.ModinvIsTheInverse := by
  intro e phi he hphi hg
  have hx : |(extgcd e phi).2.1| ≤ phi := by
    have h := (extgcd_coeff_bounds he hphi.le).1
    rwa [max_eq_left (by omega)] at h
  have hinv := mul_modinv_mod he hphi hg
  obtain ⟨h0, hlt⟩ := modinv_bounds e hphi
  exact ⟨hx, normaliseInverse_eq _ phi, h0, hlt, hinv,
    fun h2 => hinv.trans (Int.emod_eq_of_lt Int.one_nonneg h2)⟩

end Sys2Proof.Machine

/-! ## Miller–Rabin (42_miller_rabin.md) -/

namespace Sys2Proof.Machine

open Sys2Proof.Claims

/-! ### The special cases and the factoring (R190) -/

theorem factor_fst_pos {n : Int} (hn : 3 ≤ n) : 0 < (factor n).1 := by
  obtain ⟨-, heq⟩ := factor_spec hn
  have hprod : 0 < (factor n).1 * 2 ^ (factor n).2 := by omega
  exact pos_of_mul_pos_left hprod (by positivity)

/-- Settles O53: the definition's branches are R190's, and the halving loop keeps u · 2^k. -/
theorem specialCasesAndFactor : Obligations.SpecialCasesAndFactor := by
  refine ⟨fun n => ?_, special_eq_none_iff, fun n hodd hn => ?_⟩
  · rw [special, Apu.bit_zero]
  · obtain ⟨hu, heq⟩ := factor_spec hn
    exact ⟨heq, hu, factor_fst_pos hn, factor_snd_pos hodd hn⟩

/-! ### One round (R191) -/

theorem emod_pow_emod (x n : Int) (m : Nat) : (x % n) ^ m % n = x ^ m % n :=
  (Int.mod_modEq x n).pow m

/-- The tests of a reduced v find n − 1 among its squares v^(2^i). -/
theorem squareLoop_eq_true_iff (n : Int) (tests : Nat) {v : Int} (hv : v % n = v) :
    squareLoop n tests v = true ↔ ∃ i < tests, v ^ 2 ^ i % n = n - 1 := by
  induction tests generalizing v with
  | zero => simp [squareLoop]
  | succ tests ih =>
    have hsq (i : Nat) : (v * v % n) ^ 2 ^ i % n = v ^ 2 ^ (i + 1) % n := by
      rw [emod_pow_emod, ← sq, ← pow_mul, ← pow_succ']
    rw [squareLoop, Nat.exists_lt_succ_left, pow_zero, pow_one, hv, Apu.sub_eq, Apu.mul_eq, Apu.mod_eq]
    split_ifs with h
    · simp [h]
    · simp only [ih (Int.emod_emod _ _), hsq, h, false_or]

/-- What a round with any exponent and number of tests decides (R191). -/
theorem mrRound_eq_true_iff {n u a : Int} (k : Nat) (hn : 0 < n) (hu : 0 ≤ u) (ha : 0 ≤ a) :
    mrRound n u k a = true ↔
      a ^ u.toNat % n = 1 ∨ ∃ i < k, a ^ (u.toNat * 2 ^ i) % n = n - 1 := by
  have hpow (i : Nat) : (a ^ u.toNat % n) ^ 2 ^ i % n = a ^ (u.toNat * 2 ^ i) % n := by
    rw [emod_pow_emod, ← pow_mul]
  rw [mrRound, modexp_eq_pow_mod ha hu hn]
  split_ifs with h
  · simp [h]
  · simp only [squareLoop_eq_true_iff n k (Int.emod_emod _ _), hpow, h, false_or]

theorem LegalWitness.round_passes_iff {n a : Int} (hn : 3 ≤ n) (ha : LegalWitness n a) :
    mrRound n (factor n).1 (factor n).2 a = true ↔
      a ^ (factor n).1.toNat % n = 1 ∨
        ∃ i < (factor n).2, a ^ ((factor n).1.toNat * 2 ^ i) % n = n - 1 :=
  mrRound_eq_true_iff _ (by omega) (factor_fst_pos hn).le (by have := ha.1; omega)

/-- Settles O54: the tests of the loop are on v = a^u mod n and its squares. -/
theorem roundPassesExactlyWhen : Obligations.RoundPassesExactlyWhen :=
  fun _ _ _ hn ha => ha.round_passes_iff hn

/-! ### The rounds in order (R192) -/

theorem mr_of_special_eq_some {n : Int} {verdict : Bool} (h : special n = some verdict) (t : Nat)
    (ws : List Int) : mr n t ws = some verdict := by
  simp [mr, h]

theorem mr_of_special_eq_none {n : Int} (h : special n = none) (t : Nat) (ws : List Int) :
    mr n t ws = mrRounds n (factor n).1 (factor n).2 t ws := by
  simp [mr, h]

/-- The verdict prime takes t witnesses whose rounds all pass. -/
theorem mrRounds_eq_true_iff (n u : Int) (k t : Nat) (ws : List Int) :
    mrRounds n u k t ws = some true ↔
      t ≤ ws.length ∧ ∀ a ∈ ws.take t, mrRound n u k a = true := by
  induction t generalizing ws with
  | zero => simp [mrRounds]
  | succ t ih =>
    cases ws with
    | nil => simp [mrRounds]
    | cons a rest =>
      rw [mrRounds]
      split_ifs with h
      · simp [ih, h]
      · simp [h]

/-- The verdict composite takes one of the first t witnesses whose round fails. -/
theorem mrRounds_eq_false_iff (n u : Int) (k t : Nat) (ws : List Int) :
    mrRounds n u k t ws = some false ↔ ∃ a ∈ ws.take t, mrRound n u k a = false := by
  induction t generalizing ws with
  | zero => simp [mrRounds]
  | succ t ih =>
    cases ws with
    | nil => simp [mrRounds]
    | cons a rest =>
      rw [mrRounds]
      split_ifs with h
      · simp [ih, h]
      · simp [h]

/-- The first t witnesses by their index. -/
theorem mem_take_iff_getD {t : Nat} {ws : List Int} (h : t ≤ ws.length) (a : Int) :
    a ∈ ws.take t ↔ ∃ j < t, ws.getD j 0 = a := by
  rw [List.mem_take_iff_getElem]
  constructor
  · rintro ⟨j, hj, rfl⟩
    exact ⟨j, by omega, List.getD_eq_getElem _ _ _⟩
  · rintro ⟨j, hj, rfl⟩
    exact ⟨j, by omega, (List.getD_eq_getElem _ _ _).symm⟩

/-- Settles O55: the verdict is that of the first t rounds; the first j + 1 of them decide when round j
fails. -/
theorem roundsShortCircuit : Obligations.RoundsShortCircuit := by
  refine ⟨fun n t ws v hv => mr_of_special_eq_some hv t ws, fun n t ws hs ht => ⟨?_, ?_, ?_⟩⟩
  · simp only [mr_of_special_eq_none hs, mrRounds_eq_true_iff, ht, true_and, mem_take_iff_getD ht]
    exact ⟨fun h j hj => h _ ⟨j, hj, rfl⟩, fun h a ⟨j, hj, ha⟩ => ha ▸ h j hj⟩
  · simp only [mr_of_special_eq_none hs, mrRounds_eq_false_iff, mem_take_iff_getD ht]
    exact ⟨fun ⟨a, ⟨j, hj, ha⟩, h⟩ => ⟨j, hj, ha ▸ h⟩, fun ⟨j, hj, h⟩ => ⟨_, ⟨j, hj, rfl⟩, h⟩⟩
  · intro j more hj hfail
    refine mr_of_prefix ?_ (List.prefix_append _ more)
    rw [mr_of_special_eq_none hs, mrRounds_eq_false_iff, List.take_take, min_eq_right hj]
    exact ⟨_, (mem_take_iff_getD (by omega) _).2 ⟨j, by omega, rfl⟩, hfail⟩

/-! ### What a verdict proves (R198) -/

/-- Without zero divisors only ±1 have the square 1, so a chain of squares that ends in 1 begins with 1 or
passes through -1. -/
theorem eq_one_or_pow_two_pow_eq_neg_one {R : Type} [Ring R] [NoZeroDivisors R] {x : R} {k : Nat}
    (h : x ^ 2 ^ k = 1) : x = 1 ∨ ∃ i < k, x ^ 2 ^ i = -1 := by
  induction k with
  | zero => exact .inl (by simpa using h)
  | succ k ih =>
    rw [pow_succ, pow_mul, sq_eq_one_iff] at h
    rcases h with h | h
    · exact (ih h).imp_right fun ⟨i, hi, hx⟩ => ⟨i, by omega, hx⟩
    · exact .inr ⟨k, by omega, h⟩

/-- The factoring of a natural n, as an exponent. -/
theorem sub_one_eq_factor_mul {n : Nat} (hn : 3 ≤ n) :
    n - 1 = (factor n).1.toNat * 2 ^ (factor n).2 := by
  have hn' : (3 : Int) ≤ n := by omega
  obtain ⟨-, heq⟩ := factor_spec hn'
  have hu := Int.toNat_of_nonneg (factor_fst_pos hn').le
  zify [show 1 ≤ n by omega]
  rw [hu, heq]

/-- A power that is the residue c in ZMod n has the remainder c. -/
theorem pow_emod_eq_of_zmod {n e : Nat} {a c : Int} (hc : 0 ≤ c) (hcn : c < n)
    (h : (a : ZMod n) ^ e = c) : a ^ e % n = c := by
  rw [← Int.emod_eq_of_lt hc hcn, ← ZMod.intCast_eq_intCast_iff']
  exact_mod_cast h

/-- R198, item 1, for an odd prime: a^(u · 2^k) = a^(n - 1) is 1 mod n, by Fermat's little theorem. -/
theorem LegalWitness.round_passes_of_prime {n : Nat} {a : Int} (hp : n.Prime) (hn : 3 ≤ n)
    (ha : LegalWitness n a) : mrRound n (factor n).1 (factor n).2 a = true := by
  have hfact : Fact n.Prime := ⟨hp⟩
  have hne : (a : ZMod n) ≠ 0 := by
    obtain ⟨h2, hlt⟩ := ha
    rw [Ne, ZMod.intCast_zmod_eq_zero_iff_dvd]
    exact fun hdvd => absurd (Int.le_of_dvd (by omega) hdvd) (by omega)
  have hfermat := ZMod.pow_card_sub_one_eq_one hne
  rw [sub_one_eq_factor_mul hn, pow_mul] at hfermat
  rw [ha.round_passes_iff (by omega)]
  rcases eq_one_or_pow_two_pow_eq_neg_one hfermat with h | ⟨i, hi, h⟩
  · exact .inl (pow_emod_eq_of_zmod (by omega) (by omega) (by simpa using h))
  · exact .inr ⟨i, hi, pow_emod_eq_of_zmod (by omega) (by omega) (by simpa [pow_mul] using h)⟩

/-- A prime is 2 or odd (R190). -/
theorem special_of_prime {n : Nat} (hp : n.Prime) : special n = some true ∨ special n = none := by
  have h2 := hp.two_le
  have hodd := hp.eq_two_or_odd
  rw [special_eq_true_iff, special_eq_none_iff]
  omega

/-- R198, item 1: every round of a prime passes. -/
theorem allPass_of_prime {n : Nat} (hp : n.Prime) (hs : special n = none) {ws : List Int}
    (hws : ∀ a ∈ ws, LegalWitness n a) : AllPass n ws := by
  obtain ⟨-, hn⟩ := (special_eq_none_iff n).1 hs
  exact fun a ha => (hws a ha).round_passes_of_prime hp (by omega)

theorem mr_eq_true_of_prime {n : Nat} (hp : n.Prime) {t : Nat} {ws : List Int} (hlen : t ≤ ws.length)
    (hws : ∀ a ∈ ws, LegalWitness n a) : mr n t ws = some true := by
  rcases special_of_prime hp with hs | hs
  · exact mr_of_special_eq_some hs t ws
  · rw [mr_of_special_eq_none hs, mrRounds_eq_true_iff]
    exact ⟨hlen, fun a ha => allPass_of_prime hp hs hws a (List.mem_of_mem_take ha)⟩

/-- R198, item 2: verdict 0 proves n not prime, also with witnesses left undrawn. -/
theorem mr_ne_false_of_prime {n : Nat} (hp : n.Prime) (t : Nat) {ws : List Int}
    (hws : ∀ a ∈ ws, LegalWitness n a) : mr n t ws ≠ some false := by
  rcases special_of_prime hp with hs | hs
  · simp [mr_of_special_eq_some hs]
  · rw [mr_of_special_eq_none hs, Ne, mrRounds_eq_false_iff]
    rintro ⟨a, ha, hfail⟩
    simp [allPass_of_prime hp hs hws a (List.mem_of_mem_take ha)] at hfail

/-- The witness n - 1 is legal for every n of 3 or more. -/
theorem legalWitness_sub_one {n : Int} (hn : 3 ≤ n) : LegalWitness n (n - 1) :=
  ⟨by omega, le_rfl⟩

/-- R198, item 3: (n - 1)^u ≡ (-1)^u = -1 mod n, since u is odd. -/
theorem round_passes_sub_one {n : Int} (hodd : n % 2 = 1) (hn : 3 ≤ n) :
    mrRound n (factor n).1 (factor n).2 (n - 1) = true := by
  obtain ⟨hu, -⟩ := factor_spec hn
  have hupos := factor_fst_pos hn
  have huodd : Odd (factor n).1.toNat := by rw [Nat.odd_iff]; omega
  have hneg : n - 1 ≡ -1 [ZMOD n] := Int.modEq_iff_dvd.2 ⟨-1, by ring⟩
  have hpow := (hneg.pow (factor n).1.toNat).trans (huodd.neg_one_pow (α := Int) ▸ hneg.symm)
  rw [(legalWitness_sub_one hn).round_passes_iff hn]
  refine .inr ⟨0, factor_snd_pos hodd hn, ?_⟩
  rw [pow_zero, mul_one, hpow, Int.emod_eq_of_lt (by omega) (by omega)]

/-- R198, item 4: a proper divisor a of n divides a^e mod n, which is then neither 1 nor n - 1. -/
theorem LegalWitness.round_fails_of_dvd {n a : Int} (hn : 3 ≤ n) (ha : LegalWitness n a)
    (hdvd : a ∣ n) : mrRound n (factor n).1 (factor n).2 a = false := by
  have h2 := ha.1
  have hone : ¬a ∣ 1 := fun h => absurd (Int.le_of_dvd one_pos h) (by omega)
  have hu := factor_fst_pos hn
  have hdvd_pow {e : Nat} (he : e ≠ 0) : a ∣ a ^ e % n :=
    (EuclideanDomain.dvd_mod_iff hdvd).2 (dvd_pow_self a he)
  rw [← Bool.not_eq_true, ha.round_passes_iff hn]
  rintro (h | ⟨i, -, h⟩)
  · exact hone (h ▸ hdvd_pow (by omega))
  · have hsub : a ∣ n - 1 := h ▸ hdvd_pow (Nat.mul_ne_zero (by omega) (by positivity))
    exact hone ((dvd_sub_right hdvd).1 hsub)

/-- Settles O56: Fermat's little theorem for a prime, (-1)^u for n - 1, a proper divisor as the witness
against a composite. -/
theorem verdictProperties : Obligations.VerdictProperties := by
  refine ⟨fun n t ws hp hlen hws => ?_, fun n t ws hws hmr hp => ?_, fun n t hodd hn => ?_,
    fun n hodd hn hp => ?_⟩
  · exact mr_eq_true_of_prime hp hlen hws
  · have hn : (n.toNat : Int) = n := Int.toNat_of_nonneg (by have := hp.pos; omega)
    exact mr_ne_false_of_prime hp t (hn.symm ▸ hws) (hn.symm ▸ hmr)
  · have hpass := round_passes_sub_one hodd hn
    refine ⟨legalWitness_sub_one hn, hpass, ?_⟩
    rw [mr_of_special_eq_none ((special_eq_none_iff n).2 ⟨hodd, hn⟩), mrRounds_eq_true_iff]
    refine ⟨List.length_replicate.ge, fun a ha => ?_⟩
    rwa [List.eq_of_mem_replicate (List.mem_of_mem_take ha)]
  · obtain ⟨d, hdvd, h2, hlt⟩ := Nat.exists_dvd_of_not_prime2 (by omega) hp
    have hd : LegalWitness n d := ⟨by omega, by omega⟩
    have hfail := hd.round_fails_of_dvd (by omega) (Int.natCast_dvd_natCast.2 hdvd)
    refine ⟨d, hd, hfail, ?_⟩
    rw [mr_of_special_eq_none ((special_eq_none_iff n).2 ⟨by omega, by omega⟩), mrRounds_eq_false_iff]
    exact ⟨d, by simp, hfail⟩

/-! ### An answer between two engine steps (R194) -/

theorem State.popped_of_cons {s : State} {e : Event} {rest : List Event} (h : s.schedule = e :: rest) :
    s.popped = { s with schedule := rest, rdata := none } := by
  rw [State.popped, h, List.tail_cons]

/-- The step of an answer between two engine steps, with rst released (R194). -/
theorem step_of_witness {s : State} (hr : s.rst = false) {a : Int} {rest : List Event}
    (hs : s.schedule = .witness a :: rest) : step s = .next (s.popped.answerWitness a) := by
  rw [step, hs]
  exact if_neg (by simp [hr])

/-- An answer that meets no request in whose range it lies changes nothing (log 6). -/
theorem State.answerWitness_eq_self {s : State} {a : Int}
    (h : ∀ n, s.witnessRequest = some n → a < 2 ∨ n - 1 < a) : s.answerWitness a = s := by
  rcases s.answerWitness_cases a with ⟨cmd, w, stepped, hs, hphase, h2, hle, -⟩ | heq
  · have hout := h w.n (State.witnessRequest_eq_some.2 ⟨cmd, w, stepped, hs, hphase, rfl⟩)
    omega
  · exact heq

/-- An answer in the range of the pending request begins its round (R191, R194). -/
theorem State.answerWitness_of_legal {s : State} {cmd : Instr} {w : MrWork} {stepped : Bool}
    (hs : s.seq = .busy ⟨cmd, .primality w, stepped⟩) (hphase : w.phase = .awaiting) {a : Int}
    (ha : LegalWitness w.n a) :
    s.answerWitness a = { s with seq := .busy ⟨cmd, .primality (w.beginRound a), stepped⟩ } := by
  have hreceive : w.receive a = w.beginRound a := if_pos ⟨hphase, ha⟩
  rw [State.answerWitness, hs]
  simp only [Work.receive, hreceive]

/-- Settles O46: a legal answer is received, and without a request that it meets no answer is. -/
theorem witnessBeginsTheRound : Obligations.WitnessBeginsTheRound := by
  intro s a rest hr hs
  have hpopped := State.popped_of_cons hs
  rw [step_of_witness hr hs]
  refine ⟨fun cmd w stepped hseq hphase h2 hle => ?_, fun n hn hout => ?_, fun hnone => ?_⟩
  · rw [State.answerWitness_of_legal (s := s.popped) hseq hphase ⟨h2, hle⟩, hpopped]
    rfl
  · rw [State.answerWitness_eq_self, hpopped]
    intro m hm
    cases hn.symm.trans hm
    exact hout
  · rw [State.answerWitness_eq_self, hpopped]
    intro m hm
    cases hnone.symm.trans hm

end Sys2Proof.Machine

/-! ## Exceptions (60_exceptions.md) -/

namespace Sys2Proof.Machine

open Sys2Proof.Claims

/-! ### A word that completes in its accept step (R222, R223, R226) -/

theorem writeCmd_of_idle {s : State} (hi : s.seq = .idle) (w : Word) :
    writeCmd w s = acceptWord w s :=
  if_neg (Bool.eq_false_iff.1 (s.not_busy_iff.2 hi))

/-- ERRINFO holds SLOT from bit 0 on and SUB from bit 4 on (R48). -/
theorem errinfoWord_eq (slot : BitVec 3) (sub : BitVec 4) :
    errinfoWord slot sub = BitVec.ofNat 32 (16 * sub.toNat + slot.toNat) := by
  have hslot := slot.isLt
  have hsub := sub.isLt
  apply BitVec.eq_of_toNat_eq
  unfold errinfoWord
  repeat rw [toNat_append_add]
  simp only [BitVec.toNat_ofNat]
  omega

/-- An accept step that completes with an error changes LASTCMD and the completion record, and nothing
else (R226). -/
theorem State.complete_beginCommand {s : State} (hi : s.seq = .idle) (w : Word) {code : ErrCode}
    (hc : code ≠ .none) (slot : BitVec 3) (sub : BitVec 4) :
    (s.beginCommand w).complete code slot sub [] = { s with
      lastcmd := w, done := true, err := code
      errinfo := BitVec.ofNat 32 (16 * sub.toNat + slot.toNat) } := by
  rw [State.complete, if_neg hc, errinfoWord_eq, ← hi]
  rfl

/-- A word with a sub-code is one the decoder refuses for that reason (R120). -/
theorem decode_of_illegalSub {w : Word} {k : Nat} (h : illegalSub w = some k) :
    ∃ why, decode w = .error why ∧ why.sub.toNat = k := by
  have hsub := illegalWordsBySubcode w
  cases hd : decode w with
  | error why =>
    rw [hd] at hsub
    exact ⟨why, rfl, Option.some.inj (hsub.symm.trans h)⟩
  | ok i =>
    rw [hd] at hsub
    cases hsub.symm.trans h

/-- Settles O11: the decoder refuses the word, and its accept step completes with the sub-code. -/
theorem illegalWordCompletesAtAccept : Obligations.IllegalWordCompletesAtAccept := by
  intro s w k hi hk
  obtain ⟨why, hd, rfl⟩ := decode_of_illegalSub hk
  rw [writeCmd_of_idle hi, acceptWord, hd]
  exact congrArg _ (State.complete_beginCommand hi w (by decide) 0 why.sub)

/-- The first line of the accept step leaves the operands as they were (R50). -/
theorem failingSlot_beginCommand (s : State) (w : Word) (i : Instr) :
    failingSlot (s.beginCommand w) i = failingSlot s i := by cases i <;> rfl

/-- `exec` of a command with an operand outside its domain, while IDLE, completes it with the slot of
R223's table. -/
theorem exec_raisesInvalid {s : State} {i : Instr} {n : Nat} (h : s.seq = .idle)
    (hf : failingSlot s i = some n) :
    ∃ slot : BitVec 3, slot.toNat = n ∧ exec i s = .next (s.raiseInvalid slot) := by
  rw [failingSlot_eq, Option.map_eq_some_iff] at hf
  obtain ⟨slot, hcheck, hn⟩ := hf
  rw [exec_of_idle h, hcheck]
  exact ⟨slot, hn, rfl⟩

/-- Settles O12: a failing operand check completes the command in its accept step, and without one the
command is latched. -/
theorem invalidArgumentCompletesAtAccept : Obligations.InvalidArgumentCompletesAtAccept := by
  intro s w i hi hd
  have hexec : writeCmd w s = exec i (s.beginCommand w) := by
    rw [writeCmd_of_idle hi, acceptWord, hd]
  rw [hexec, ← failingSlot_beginCommand s w i]
  refine ⟨fun n hf => ?_, fun hf => ?_⟩
  · obtain ⟨slot, rfl, hraise⟩ := exec_raisesInvalid (s := s.beginCommand w) hi hf
    have hcomplete := State.complete_beginCommand hi w (code := .invalidArgument) (by decide) slot 0
    rw [hraise, State.raiseInvalid, hcomplete]
    simp
  · exact ⟨_, exec_latches (s := s.beginCommand w) hi hf, rfl, rfl⟩

/-! ### The irq output (R230, R231) -/

/-- STATUS shows DONE in bit 1, above BUSY, its lowest field (R44). -/
theorem State.getLsbD_one_statusWord (s : State) : s.statusWord.getLsbD 1 = s.done := by
  refine BitVec.getLsbD_append.trans (BitVec.getLsbD_append.trans ?_)
  simp

/-- CTRL shows IE in bit 0 (R43). -/
theorem State.getLsbD_zero_ctrlWord (s : State) : s.ctrlWord.getLsbD 0 = s.ie := by
  rw [s.ctrlWord_eq]
  cases s.ie <;> rfl

/-- Settles O45: irq is the conjunction of the flags that STATUS and CTRL show, and reads no other field. -/
theorem irqFollowsDoneAndEnable : Obligations.IrqFollowsDoneAndEnable := by
  intro s
  have hstatus : (s.memRead 0x000C).1 = s.statusWord := rfl
  have hctrl : (s.memRead 0x0008).1 = s.ctrlWord := rfl
  refine ⟨?_, fun _ _ _ => rfl⟩
  rw [hstatus, hctrl, s.getLsbD_one_statusWord, s.getLsbD_zero_ctrlWord, State.irq, Bool.and_eq_true]

end Sys2Proof.Machine

/-! ## Reset (70_reset_and_hazards.md) -/

namespace Sys2Proof.Machine

open Sys2Proof.Claims

/-- A reset leaves every piece of state that R62 lists at its reset value, whatever the level of rst. -/
theorem State.atResetValues_reinit (s : State) (b : Bool) :
    AtResetValues { s.reinit with rst := b } :=
  atResetValues_resetOf s.params b none s.effort s.answers s.schedule

/-! ### Steps by the rst input (R260) -/

/-- The step in which rst is asserted, held before or not. -/
theorem step_of_rst_asserted {s : State} {rest : List Event} (hs : s.schedule = .rst true :: rest) :
    step s = .next { s.popped.reinit with rst := true } := by
  rw [step, hs]
  rfl

/-- The step in which rst is released. -/
theorem step_of_rst_released {s : State} {rest : List Event} (hr : s.rst = true)
    (hs : s.schedule = .rst false :: rest) :
    step s = .next { s.popped.reinit with rst := false } := by
  rw [step, hs]
  exact congrArg _ (if_pos hr)

/-- A step while rst is held: whatever the next event is, no agent but the rst input has its turn. -/
theorem step_of_rst_held {s : State} (hr : s.rst = true)
    (hs : ∀ rest, s.schedule ≠ .rst false :: rest) :
    step s = .next { s.popped.reinit with rst := true } := by
  have hheld : s.popped.reinit = { s.popped.reinit with rst := true } := by
    rw [State.reinit, State.popped_rst, hr]
  cases hsched : s.schedule with
  | nil =>
    rw [← hheld, step, hsched]
    exact if_pos hr
  | cons e rest =>
    cases e with
    | rst level =>
      cases level with
      | true => exact step_of_rst_asserted hsched
      | false => exact absurd hsched (hs rest)
    | _ =>
      rw [← hheld, step, hsched]
      exact if_pos hr

/-- Settles O39: an asserted or held rst resets the block at the level 1, its release at the level 0, and a
reset presents no read data. -/
theorem hardwareResetHoldsTheBlock : Obligations.HardwareResetHoldsTheBlock := by
  intro s
  have hreset := s.popped.atResetValues_reinit
  refine ⟨fun rest hs => ?_, fun hr hs => ?_, fun hr rest hs => ?_⟩
  · exact ⟨_, step_of_rst_asserted hs, rfl, hreset true, rfl⟩
  · exact ⟨_, step_of_rst_held hr hs, rfl, hreset true, rfl⟩
  · exact ⟨_, step_of_rst_released hr hs, rfl, hreset false, congrArg List.tail hs⟩

/-! ### The soft reset (R261) -/

/-- CTRL stands at 0x0008 and takes a write in every state (R43). -/
theorem memWrite_ctrl (s : State) (v : Word) : memWrite 0x0008 v 0xF s = .next (s.writeCtrl v) := by
  simp [memWrite, (region_eq_ctrl s.params 0x0008).2 rfl]

/-- Settles O37: the write resets the block, and keeps the parameters and the interleaving. -/
theorem softResetClearsEverything : Obligations.SoftResetClearsEverything := by
  intro s v hv
  have hreset : s.writeCtrl v = s.reinit := if_pos hv
  refine ⟨s.reinit, ?_, s.atResetValues_reinit s.rst, rfl, rfl⟩
  rw [memWrite_ctrl, hreset]

end Sys2Proof.Machine
